-- ==== Sys2Proof/Word.lean ====
section
/-! DEFINITION. The word type of the command interface, bytes, and the one-bit line level (00_scope.md R10, R13). -/

namespace Sys2Proof

/-- A header, operand or result word (30_encoding.md R80). -/
abbrev Word := BitVec 32

/-- One byte of a serialized frame (30_encoding.md R98). -/
abbrev Byte := BitVec 8

/-- A line level or a stored level, one bit: LOW is 0, HIGH is 1 (00_scope.md R13). -/
inductive Level where
  | low
  | high
deriving DecidableEq, Repr

end Sys2Proof
end

