-- ==== Sys2Proof/Config.lean ====
section
/-! DEFINITION. The types of the implementation parameters of 00_scope.md R8 (and TIMER_REG_MAP of 20_memory.md R62).
They are plain data: every instance fixes them before reset, and the state carries them in a field no step writes (log 1). -/

namespace Sys2Proof

/-- `WIDTH[g]`: a counter is 8 or 16 bits wide (R8). -/
inductive CounterWidth where
  | bits8
  | bits16
deriving DecidableEq, Repr

/-- `NCH[g]`: sub-channels A and B, or A, B and C (R8, 10_state.md R28). -/
inductive ChannelSet where
  | ab
  | abc
deriving DecidableEq, Repr

/-- `WIRING[m]` (10_state.md R41): two direction pins, or a direction pin, a PWM pin and an optional enable pin. -/
inductive Wiring where
  | dual (a b : Nat)
  | dirPwm (dir pwm : Nat) (en : Option Nat)
deriving DecidableEq, Repr

/-- `TORN_READ`: what a racing read of a position returns (20_memory.md R67). -/
inductive TornRead where
  | atomicRace
  | bytewise
deriving DecidableEq, Repr

/-- The clock select of a group (10_state.md R28, R32). -/
inductive ClockSelect where
  | off
  | prescaler (ps : Nat)
deriving DecidableEq, Repr

/-- The waveform-generation mode, abstract (10_state.md R34). -/
inductive WaveMode where
  | reset
  | pwm
deriving DecidableEq, Repr

/-- The register codes of a field that no source encodes (91_not_in_source.md N7, N13): the values of the listed codes, and the value
that every other code gives. They are part of TIMER_REG_MAP (log 15). -/
structure Codes (α : Type) where
  listed : List (Nat × α)
  other : α
deriving DecidableEq, Repr

/-- A named field of a timer group, as the register surface exposes it (20_memory.md R62, R63); the clock select and the waveform mode
with their codes. -/
inductive TimerField where
  | freq (g : Nat)
  | top (g : Nat)
  | cs (g : Nat) (codes : Codes ClockSelect)
  | wgm (g : Nat) (codes : Codes WaveMode)
  | duty (g c : Nat)
  | cmp (g c : Nat)
  | oen (g c : Nat)
deriving DecidableEq, Repr

/-- Where TIMER_REG_MAP puts a field: its address, and its lowest bit in the register there (92_eei_decisions.md D57). Fields of one
address share a register (R63). -/
structure Placement where
  addr : Nat
  lo : Nat
  field : TimerField
deriving DecidableEq, Repr

/-- The parameters of one timer group. -/
structure GroupConfig where
  /-- `WIDTH[g]` -/
  width : CounterWidth
  /-- `NCH[g]` -/
  channels : ChannelSet
  /-- `PRESCALERS[g]`, strictly ascending -/
  prescalers : List Nat
  /-- `INIT_TOP[g]` -/
  initTop : Nat
deriving DecidableEq, Repr

/-- The parameters of one motor. -/
structure MotorConfig where
  /-- `WIRING[m]` -/
  wiring : Wiring
  /-- `ENC_OF[m]` -/
  encOf : Nat
deriving DecidableEq, Repr

/-- The parameters of one block instance (R8). `NG`, `NPINS` and `NM` are the lengths of `groups`, `pinMap` and `motors`. -/
structure Config where
  /-- `NE` -/
  nEnc : Nat
  /-- `POS_WIDTH` -/
  posWidth : Nat
  groups : List GroupConfig
  /-- `BASE_CLOCK`, Hz -/
  baseClock : Nat
  /-- `PIN_MAP`, by pin -/
  pinMap : List (Option (Nat × Nat))
  motors : List MotorConfig
  /-- `SEED_POWER` -/
  seedPower : Nat
  /-- `CHECK_INTERVAL`, ms -/
  checkInterval : Nat
  /-- `POWER_UP`, its value for each power 0..255 (log 13) -/
  powerUp : List Nat
  /-- `POWER_DOWN`, its value for each power 0..255 (log 13) -/
  powerDown : List Nat
  tornRead : TornRead
  /-- `TIMER_REG_MAP`: the address and the bit position of each field -/
  timerRegMap : List Placement
deriving DecidableEq, Repr

end Sys2Proof
end

