-- ==== Sys2Proof/Machine/Params.lean ====
section
/-! DEFINITION. Functions of the implementation parameters (00_scope.md R8, 41_pwm.md R140, 42_motor.md R199), and the spec's example
configuration `EX` (95_test_vectors.md section 2.2; log 2). -/

namespace Sys2Proof

/-- `NCH[g]` as a number (R8). -/
def ChannelSet.count : ChannelSet → Nat
  | .ab => 2
  | .abc => 3

/-- `TOP_MAX[g] = 2^WIDTH[g] - 1` (R8). -/
def CounterWidth.topMax : CounterWidth → Nat
  | .bits8 => 255
  | .bits16 => 65535

/-- `WIDTH[g]` as a number (R8). -/
def CounterWidth.bits : CounterWidth → Nat
  | .bits8 => 8
  | .bits16 => 16

/-- `TOP_MIN`, the exclusive lower bound on top (R8). -/
abbrev topMin : Nat := 3

/-- `DUTY_DIV` (R8). -/
abbrev dutyDiv : Nat := 256

/-- The pins a wiring names (10_state.md R41). -/
def Wiring.pins : Wiring → List Nat
  | .dual a b => [a, b]
  | .dirPwm d p none => [d, p]
  | .dirPwm d p (some e) => [d, p, e]

/-- `NPINS` (R8). -/
def Config.nPins (c : Config) : Nat := c.pinMap.length

/-- `PIN_MAP(p)`: the channel that backs a pin, `none` for a pin with no timer or beyond the pins (41_pwm.md R140). -/
def Config.timerOf (c : Config) (p : Nat) : Option (Nat × Nat) := c.pinMap.getD p none

/-- `PIN_OF(g, c)`: the pin mapped to a channel (41_pwm.md R140). -/
def Config.pinOf (c : Config) (g ch : Nat) : Option Nat := c.pinMap.findIdx? (fun x => x == some (g, ch))

/-- `RATE_SCALE = 1000 div CHECK_INTERVAL` (R8). -/
def Config.rateScale (c : Config) : Nat := 1000 / c.checkInterval

/-- `POWER_UP` (R8; log 13). -/
def Config.up (c : Config) (p : Nat) : Nat := c.powerUp.getD p 0

/-- `POWER_DOWN` (R8; log 13). -/
def Config.down (c : Config) (p : Nat) : Nat := c.powerDown.getD p 0

/-- The default `POWER_UP`, `floor(p * 11 / 10)` (R8). -/
def powerUpDefault : List Nat := (List.range 256).map (fun p => p * 11 / 10)

/-- The default `POWER_DOWN`, `floor(p * 10 / 11)` (R8). -/
def powerDownDefault : List Nat := (List.range 256).map (fun p => p * 10 / 11)

/-- The powers at which binary64 evaluation of `p / 1.1` truncates to one less than the default (42_motor.md R199). -/
def binary64Lower : List Nat := [33, 55, 66, 99, 110, 121, 132, 198, 209, 220, 231, 242, 253]

/-- The `POWER_DOWN` of a target that evaluates `p / 1.1` in IEEE-754 binary64 and truncates (42_motor.md R199). -/
def powerDownBinary64 : List Nat :=
  (List.range 256).map (fun p => if p ∈ binary64Lower then p * 10 / 11 - 1 else p * 10 / 11)

/-- `PIN_MAP` of `EX`: pin 9 is (0, 0), pin 10 is (0, 1), pin 11 is (1, 0), pin 3 is (1, 1). -/
def exPinMap : List (Option (Nat × Nat)) :=
  [none, none, none, some (1, 1), none, none, none, none, none, some (0, 0)] ++
  [some (0, 1), some (1, 0), none, none, none, none, none, none, none, none]

/-- The example configuration `EX` (95_test_vectors.md section 2.2). -/
def Config.ex : Config where
  nEnc := 2
  posWidth := 32
  groups := [⟨.bits16, .abc, [1, 8, 64, 256, 1024], 0⟩, ⟨.bits8, .ab, [1, 8, 32, 64, 128, 256, 1024], 0⟩]
  baseClock := 16000000
  pinMap := exPinMap
  motors := [⟨.dirPwm 7 9 (some 8), 0⟩, ⟨.dual 4 5, 1⟩]
  seedPower := 16
  checkInterval := 333
  powerUp := powerUpDefault
  powerDown := powerDownDefault
  tornRead := .atomicRace
  timerRegMap := []

end Sys2Proof
end

