-- ==== Sys2Proof/Syntax.lean ====
section
/-! DEFINITION. The eighteen commands of 30_encoding.md R88, one constructor per row of spec/opcode_table.json, the agent of each
(R88's column, 60_exceptions.md R245), and the pseudo-instructions of R97. -/

namespace Sys2Proof

/-- A command with its operands (30_encoding.md R88). Indices, duty, value, frequency and `now` are naturals and the signed
operands integers; their ranges are `Instr.wf` (R96). -/
inductive Instr where
  | encSetA (e : Nat) (level : Level)
  | encSetB (e : Nat) (level : Level)
  | encTick (e : Nat)
  | encEdgeA (e : Nat) (level : Level)
  | encEdgeB (e : Nat) (level : Level)
  | encZero (e : Nat) (offset : Int)
  | encPos (e : Nat)
  | pwmSetFreq (p : Nat) (frequency : Nat)
  | pwmSetDuty (g : Nat) (c : Nat) (duty : Nat)
  | pwmAWrite (p : Nat) (value : Nat)
  | motStop (m : Nat)
  | motGo (m : Nat) (forward : Bool) (power : Int)
  | motSetPower (m : Nat) (power : Int)
  | motGoFor (m : Nat) (rate : Int) (ticks : Int)
  | motGoTo (m : Nat) (rate : Int) (goal : Int)
  | motCheck (m : Nat) (now : Nat)
  | motMoving (m : Nat)
  | motEncPos (m : Nat)
deriving DecidableEq, Repr

/-- The two agents (00_scope.md R14). -/
inductive Agent where
  | edge
  | control
deriving DecidableEq, Repr

/-- The pseudo-instructions (R97). -/
inductive Pseudo where
  | encClear (e : Nat)
  | pwmLow (p : Nat)
  | pwmHigh (p : Nat)
  | motFwd (m : Nat) (power : Int)
  | motRev (m : Nat) (power : Int)
deriving DecidableEq, Repr

end Sys2Proof
end

