-- ==== Sys2Proof/Machine/State.lean ====
section
/-! DEFINITION. The state of the block (10_state.md), the reasons a step can stop, and the state after reset
(70_reset_and_hazards.md R270). -/

namespace Sys2Proof.Machine

open Sys2Proof

/-- An encoder (10_state.md R23): the stored levels, the phase code at the last evaluation, the position in ticks. -/
structure Encoder where
  a : Level
  b : Level
  prev : BitVec 2
  pos : Int
deriving DecidableEq, Repr

/-- A compare channel (10_state.md R28): stored duty, compare register, output enable. -/
structure Channel where
  duty : BitVec 8
  cmp : Nat
  oen : Bool
deriving DecidableEq, Repr

/-- A timer group (10_state.md R28). -/
structure Group where
  freq : BitVec 32
  top : Nat
  cs : ClockSelect
  wgm : WaveMode
  chans : List Channel
deriving DecidableEq, Repr

/-- Which source drives a pin (10_state.md R35). -/
inductive Drive where
  | latch
  | timer
  | generic (v : BitVec 8)
deriving DecidableEq, Repr

/-- The direction of a pin (10_state.md R35). -/
inductive PinMode where
  | input
  | output
deriving DecidableEq, Repr

/-- A logical pin (10_state.md R35). -/
structure Pin where
  latch : Level
  drive : Drive
  mode : PinMode
deriving DecidableEq, Repr

/-- The direction of a motor (10_state.md R38). -/
inductive Direction where
  | stopped
  | forward
  | backward
deriving DecidableEq, Repr

/-- A motor (10_state.md R38). -/
structure Motor where
  dir : Direction
  power : BitVec 8
  regulated : Bool
  goal : Int
  tps : BitVec 32
  lastT : BitVec 32
  lastPos : Int
deriving DecidableEq, Repr

/-- The status of a frame (30_encoding.md R92). -/
inductive Status where
  | ok
  | illegal
deriving DecidableEq, Repr

/-- What the block answers to a frame (30_encoding.md R92). -/
structure Response where
  status : Status
  result : Word
deriving DecidableEq, Repr

/-- How far boot has come (70_reset_and_hazards.md R271): the step boot takes next, or `running` once it is over. -/
inductive BootPhase where
  | pinModes
  | stopMotors
  | handlers
  | running
deriving DecidableEq, Repr

/-- One turn of the schedule (20_memory.md R71, 60_exceptions.md R247): whose next frame runs, the value the environment draws if
the command reads the clock (R250), and, if the command's position read overlaps the edge command that ran just before it, which
bytes of the new value it sees (20_memory.md R67; log 11, 12). -/
structure Turn where
  agent : Agent
  draw : Word
  torn : Option Nat
deriving DecidableEq, Repr

/-- The edge command that ran just before: its encoder, and the position it found there (20_memory.md R67). -/
structure EdgeRecord where
  enc : Nat
  before : Int
deriving DecidableEq, Repr

/-- A position read in hand that overlaps an edge command (20_memory.md R67): the encoder, its position before the edge, and which
bytes of the position after it the read sees. -/
structure Race where
  enc : Nat
  before : Int
  mask : Nat
deriving DecidableEq, Repr

/-- The state of one block. `cfg` holds the parameters (log 1); `enc`, `grp`, `pin`, `mot`, `resp` and `boot` are the spec's state;
the rest is what the environment gives (log 5, 11, 12, 20). -/
structure State where
  cfg : Config
  enc : List Encoder
  grp : List Group
  pin : List Pin
  mot : List Motor
  resp : Response
  boot : BootPhase
  bootPort : List Word
  edgePort : List Word
  controlPort : List Word
  turns : List Turn
  draw : Word
  clock : Option Word
  lastEdge : Option EdgeRecord
  race : Option Race
deriving DecidableEq, Repr

/-- Why the machine stops. No command raises one (60_exceptions.md R240). -/
inductive Fault where
  /-- Raised by the register surface only (Machine/RegSurface.lean): the address is no register of TIMER_REG_MAP. Safe. -/
  | noRegister (addr : Nat)
deriving DecidableEq, Repr

/-- Why the model gives no next state. -/
inductive Refusal where
  /-- Raised by an arm of exec that has no meaning yet. Safe. -/
  | notModelled (mnemonic : String)
  /-- Raised by step when an agent issues a command of the other agent (60_exceptions.md R245, 30_encoding.md R99). Safe. -/
  | wrongAgent
  /-- Raised by step when boot's port holds a command that is not of the sequence of 70_reset_and_hazards.md R274. Safe. -/
  | notBootCommand
  /-- Raised by the register surface only: an access narrower than the register, which 20_memory.md R63 does not describe (log 15).
  Safe. -/
  | partialRegisterAccess
deriving DecidableEq, Repr

/-- An encoder at reset (10_state.md R23). -/
def Encoder.atReset : Encoder := ⟨.low, .low, 0, 0⟩

/-- A channel at reset (10_state.md R28). -/
def Channel.atReset : Channel := ⟨0, 0, false⟩

/-- A group at reset (10_state.md R28). -/
def Group.atReset (g : GroupConfig) : Group :=
  ⟨0, g.initTop, .off, .reset, List.replicate g.channels.count .atReset⟩

/-- A pin at reset (10_state.md R35); the level of its latch is given (log 4). -/
def Pin.atReset (l : Level) : Pin := ⟨l, .latch, .input⟩

/-- A motor at reset (10_state.md R38). -/
def Motor.atReset : Motor := ⟨.stopped, 0, false, 0, 0, 0, 0⟩

/-- A block with parameters `c` right after reset (70_reset_and_hazards.md R270), before boot. The latches, which the spec leaves
unspecified, are those of `latches`, LOW where it lists none (log 4). -/
def State.resetWith (c : Config) (latches : List Level) : State where
  cfg := c
  enc := List.replicate c.nEnc .atReset
  grp := c.groups.map .atReset
  pin := (List.range c.nPins).map (fun p => .atReset (latches.getD p .low))
  mot := List.replicate c.motors.length .atReset
  resp := ⟨.ok, 0⟩
  boot := .pinModes
  bootPort := []
  edgePort := []
  controlPort := []
  turns := []
  draw := 0
  clock := none
  lastEdge := none
  race := none

/-- The machine right after reset: the example instance `EX` (log 2), every latch LOW (log 4). -/
def State.reset : State := State.resetWith Config.ex []

end Sys2Proof.Machine
end

