-- ==== Sys2Proof/Machine/Operands.lean ====
section
/-! DEFINITION. Operand and field arithmetic: wrapping to a width (00_scope.md R10), clamping, result words, the phase code, and the
value of a racing read (20_memory.md R67). -/

namespace Sys2Proof.Machine

open Sys2Proof

/-- `wrap_N(v)`: the `w` with `-2^(N-1) <= w < 2^(N-1)` and `w ≡ v (mod 2^N)` (00_scope.md R10). -/
def wrapTo (n : Nat) (v : Int) : Int := Int.bmod v (2 ^ n)

/-- `uwrap_N(v)` (00_scope.md R10). -/
def uwrapTo (n : Nat) (v : Int) : Nat := (v % (2 ^ n : Nat)).toNat

/-- `clamp(v, lo, hi) = min(max(v, lo), hi)` (00_scope.md R10). -/
def clamp (v lo hi : Int) : Int := min (max v lo) hi

/-- `clamp(v, 0, 255)` as a power (42_motor.md R185). -/
def clampPower (v : Int) : Nat := (clamp v 0 255).toNat

/-- `sext_32(pos)` as a result word: the low 32 bits of a wider position (40_encoder.md R111). -/
def posWord (v : Int) : Word := BitVec.ofInt 32 v

/-- A level as a number (00_scope.md R13). -/
def levelNat : Level → Nat
  | .low => 0
  | .high => 1

/-- The phase code `{a, b}`: bit 1 is line A, bit 0 is line B (10_state.md R24). -/
def phaseCode (a b : Level) : BitVec 2 := BitVec.ofNat 2 (2 * levelNat a + levelNat b)

/-- `n` bytes, each the low byte of `u1` where the mask's bit is 1 and of `u0` where it is 0, least significant first. -/
def mixBytes : Nat → Nat → Nat → Nat → Nat
  | 0, _, _, _ => 0
  | n + 1, mask, u0, u1 =>
    (if mask % 2 = 1 then u1 % 256 else u0 % 256) + 256 * mixBytes n (mask / 2) (u0 / 256) (u1 / 256)

/-- What a read of a `width`-bit position returns when it overlaps an edge command that moved it from `v0` to `v1` (20_memory.md
R67): one of the two, or, bytewise, a mixture of their bytes; `mask` is the environment's choice (log 12). -/
def tornValue (mode : TornRead) (width mask : Nat) (v0 v1 : Int) : Int :=
  match mode with
  | .atomicRace => if mask % 2 = 1 then v1 else v0
  | .bytewise => wrapTo width (mixBytes ((width + 7) / 8) mask (uwrapTo width v0) (uwrapTo width v1) : Nat)

end Sys2Proof.Machine
end

