-- ==== Sys2Proof/Machine/Ops.lean ====
section
/-! DEFINITION. The named reads and writes of the state, the answer to a frame, the refusal of an ill-formed one (what this block has
in place of exceptions: 30_encoding.md R93, 60_exceptions.md R240), and the collaborators (00_scope.md R12). -/

namespace Sys2Proof.Machine

open Sys2Proof

/-! ### Units by index -/

/-- `enc[e]`. -/
def State.encoder (s : State) (e : Nat) : Encoder := s.enc.getD e .atReset

/-- Rewrite `enc[e]`. -/
def State.modEncoder (s : State) (e : Nat) (f : Encoder → Encoder) : State := { s with enc := s.enc.modify e f }

/-- `grp[g]`, if the group exists. -/
def State.group? (s : State) (g : Nat) : Option Group := s.grp[g]?

/-- Rewrite `grp[g]`. -/
def State.modGroup (s : State) (g : Nat) (f : Group → Group) : State := { s with grp := s.grp.modify g f }

/-- Channel `c` of `grp[g]`, if it exists. -/
def State.channel? (s : State) (g c : Nat) : Option Channel := (s.grp[g]?).bind (fun x => x.chans[c]?)

/-- Rewrite channel `c` of `grp[g]`. -/
def State.modChannel (s : State) (g c : Nat) (f : Channel → Channel) : State :=
  s.modGroup g (fun x => { x with chans := x.chans.modify c f })

/-- `grp[g].top`. -/
def State.top (s : State) (g : Nat) : Nat := ((s.grp[g]?).map Group.top).getD 0

/-- `pin[p]`, if the pin exists. -/
def State.pin? (s : State) (p : Nat) : Option Pin := s.pin[p]?

/-- Rewrite `pin[p]`. -/
def State.modPin (s : State) (p : Nat) (f : Pin → Pin) : State := { s with pin := s.pin.modify p f }

/-- `mot[m]`. -/
def State.motor (s : State) (m : Nat) : Motor := s.mot.getD m .atReset

/-- Rewrite `mot[m]`. -/
def State.modMotor (s : State) (m : Nat) (f : Motor → Motor) : State := { s with mot := s.mot.modify m f }

/-! ### Answers -/

/-- Answer status OK and a result word (30_encoding.md R92). -/
def State.respond (s : State) (r : Word) : State := { s with resp := ⟨.ok, r⟩ }

/-- A command completes with a result word; a command that returns nothing answers 0 (30_encoding.md R92), and so does one whose unit
index is out of range (R95). The edge agent returns the same way, with no state to restore (60_exceptions.md R248). -/
def complete (r : Word) (s : State) : Host.Outcome State Fault Refusal := .next (s.respond r)

/-- `raise ILLEGAL`: status ILLEGAL, result 0, no other change (30_encoding.md R92, R93). -/
def raiseIllegal (s : State) : State := { s with resp := ⟨.illegal, 0⟩ }

/-! ### Collaborators -/

/-- `writePin(p, l)` sets the latch (10_state.md R44). -/
def writePin (p : Nat) (l : Level) (s : State) : State := s.modPin p (fun x => { x with latch := l })

/-- `setPinMode(p, OUTPUT)` (70_reset_and_hazards.md R271). -/
def setPinOutput (p : Nat) (s : State) : State := s.modPin p (fun x => { x with mode := .output })

/-- Which source drives a pin (10_state.md R35). -/
def setDrive (p : Nat) (d : Drive) (s : State) : State := s.modPin p (fun x => { x with drive := d })

/-- The clock value a draw makes: the first is any 32-bit value, each later one is the one before plus a natural less than `2^31`,
modulo `2^32` (60_exceptions.md R250; log 11). -/
def nextClock (last : Option Word) (draw : Word) : Word :=
  match last with
  | none => draw
  | some t => t + BitVec.ofNat 32 (draw.toNat % 2147483648)

/-- The value `nowMillis()` returns in a state (60_exceptions.md R250). -/
def State.nowMillis (s : State) : Word := nextClock s.clock s.draw

/-- `nowMillis()` has been called: later draws may not precede its value. -/
def State.tickClock (s : State) : State := { s with clock := some s.nowMillis }

/-- One read of `enc[e].pos` (20_memory.md R67): the position, or, when the read overlaps an edge command on the same encoder, a value
that rule admits. -/
def State.readPos (s : State) (e : Nat) : Int :=
  match s.race with
  | none => (s.encoder e).pos
  | some r =>
    if r.enc = e then tornValue s.cfg.tornRead s.cfg.posWidth r.mask r.before (s.encoder e).pos else (s.encoder e).pos

end Sys2Proof.Machine
end

