-- ==== Sys2Proof/Machine/Flags.lean ====
section
/-! DEFINITION. The block's status bits (10_state.md R22): the output enables `grp[g].oen[c]` (R33) and the flag `mot[m].regulated`
(R38). It has no condition codes. -/

namespace Sys2Proof.Machine

open Sys2Proof

/-- `grp[g].oen[c] <- b` (10_state.md R33). -/
def setOen (g c : Nat) (b : Bool) (s : State) : State := s.modChannel g c (fun x => { x with oen := b })

/-- `mot[m].regulated <- b` (10_state.md R38). -/
def setRegulated (m : Nat) (b : Bool) (s : State) : State := s.modMotor m (fun x => { x with regulated := b })

/-- The state label of a motor (10_state.md R40): Stopped, Driving(d) or Regulated(d). -/
inductive Label where
  | stopped
  | driving (d : Direction)
  | regulated (d : Direction)
deriving DecidableEq, Repr

/-- The label is a function of the fields (10_state.md R40). -/
def motorLabel (x : Motor) : Label :=
  match x.dir with
  | .stopped => .stopped
  | d => if x.regulated then .regulated d else .driving d

end Sys2Proof.Machine
end

