-- ==== Sys2Proof/Machine/Encoder.lean ====
section
/-! DEFINITION. The Encoder: phase decoder, tick counter, and the meanings of the ENC commands (40_encoder.md). -/

namespace Sys2Proof.Machine

open Sys2Proof

/-- `DELTA[p][n]` (40_encoder.md R100): rows 00, 01, 10, 11; in each row next 00, 01, 10, 11. -/
def deltaTable : List (List Int) :=
  [[0, 1, -1, 0],
   [-1, 0, 0, 1],
   [1, 0, 0, -1],
   [0, -1, 1, 0]]

/-- The count change of a transition (40_encoder.md R100). -/
def delta (p n : BitVec 2) : Int := (deltaTable.getD p.toNat []).getD n.toNat 0

/-- The next phase code of an encoder, from the stored levels (40_encoder.md R103). -/
def Encoder.phase (x : Encoder) : BitVec 2 := phaseCode x.a x.b

/-- `Tick(e)` on one encoder, with positions of `width` bits (40_encoder.md R103): the count changes by DELTA and wraps, and the
previous phase is replaced on every evaluation. -/
def tickEncoder (width : Nat) (x : Encoder) : Encoder :=
  { x with pos := wrapTo width (x.pos + delta x.prev x.phase), prev := x.phase }

/-- `Tick(e)` (40_encoder.md R103). -/
def tick (e : Nat) (s : State) : State := s.modEncoder e (tickEncoder s.cfg.posWidth)

/-- `enc[e].a <- level`. -/
def storeA (e : Nat) (l : Level) (s : State) : State := s.modEncoder e (fun x => { x with a := l })

/-- `enc[e].b <- level`. -/
def storeB (e : Nat) (l : Level) (s : State) : State := s.modEncoder e (fun x => { x with b := l })

/-- ENC.SETA (40_encoder.md R105). -/
def execEncSetA (e : Nat) (level : Level) (s : State) : Host.Outcome State Fault Refusal :=
  complete 0 (if e < s.cfg.nEnc then storeA e level s else s)

/-- ENC.SETB (40_encoder.md R106). -/
def execEncSetB (e : Nat) (level : Level) (s : State) : Host.Outcome State Fault Refusal :=
  complete 0 (if e < s.cfg.nEnc then storeB e level s else s)

/-- ENC.TICK (40_encoder.md R107). -/
def execEncTick (e : Nat) (s : State) : Host.Outcome State Fault Refusal :=
  complete 0 (if e < s.cfg.nEnc then tick e s else s)

/-- ENC.EDGEA: store the new level of line A and evaluate, as one command (40_encoder.md R108). -/
def execEncEdgeA (e : Nat) (level : Level) (s : State) : Host.Outcome State Fault Refusal :=
  complete 0 (if e < s.cfg.nEnc then tick e (storeA e level s) else s)

/-- ENC.EDGEB: store the new level of line B and evaluate, as one command (40_encoder.md R109). -/
def execEncEdgeB (e : Nat) (level : Level) (s : State) : Host.Outcome State Fault Refusal :=
  complete 0 (if e < s.cfg.nEnc then tick e (storeB e level s) else s)

/-- ENC.ZERO: the position becomes the offset, wrapped; levels and phase are kept (40_encoder.md R110). -/
def execEncZero (e : Nat) (offset : Int) (s : State) : Host.Outcome State Fault Refusal :=
  complete 0 (if e < s.cfg.nEnc then s.modEncoder e (fun x => { x with pos := wrapTo s.cfg.posWidth offset }) else s)

/-- ENC.POS: the position, as a racing read; no state changes (40_encoder.md R111). -/
def execEncPos (e : Nat) (s : State) : Host.Outcome State Fault Refusal :=
  complete (if e < s.cfg.nEnc then posWord (s.readPos e) else 0) s

end Sys2Proof.Machine
end

