-- ==== Sys2Proof/Machine/Pwm.lean ====
section
/-! DEFINITION. The PWM Driver: prescaler and period selection, duty scaling, forced levels, and the meanings of the PWM commands
(41_pwm.md). -/

namespace Sys2Proof.Machine

open Sys2Proof

/-- The first prescaler, in the list's order, whose period `clk div (2 * ps * f)` lies in `(TOP_MIN, topMax]` (41_pwm.md R141). -/
def pickPrescaler (clk topMax f : Nat) : List Nat → Option (Nat × Nat)
  | [] => none
  | ps :: rest =>
    if topMin < clk / (2 * ps * f) ∧ clk / (2 * ps * f) ≤ topMax then some (ps, clk / (2 * ps * f))
    else pickPrescaler clk topMax f rest

/-- `SelectConfig(g, f)` for a group's parameters (41_pwm.md R141): frequency 0 fails. -/
def selectConfig (clk : Nat) (gc : GroupConfig) (f : Nat) : Option (Nat × Nat) :=
  if f = 0 then none else pickPrescaler clk gc.width.topMax f gc.prescalers

/-- `Scale(t, d) = (t * d) div 256` (41_pwm.md R145). -/
def scale (t d : Nat) : Nat := t * d / dutyDiv

/-- Stop the counter's clock input (41_pwm.md R143). -/
def stopClock (g : Nat) (s : State) : State := s.modGroup g (fun x => { x with cs := .off })

/-- Write the period (41_pwm.md R143). -/
def writeTop (g t : Nat) (s : State) : State := s.modGroup g (fun x => { x with top := t })

/-- Every channel's compare register from its stored duty, at period `t` (41_pwm.md R142). -/
def restoreDuties (g t : Nat) (s : State) : State :=
  s.modGroup g (fun x => { x with chans := x.chans.map (fun ch => { ch with cmp := scale t ch.duty.toNat }) })

/-- The waveform mode and the configured frequency (41_pwm.md R142). -/
def writeModeFreq (g f : Nat) (s : State) : State :=
  s.modGroup g (fun x => { x with wgm := .pwm, freq := BitVec.ofNat 32 f })

/-- Re-enable the clock with a prescaler (41_pwm.md R143). -/
def startClock (g ps : Nat) (s : State) : State := s.modGroup g (fun x => { x with cs := .prescaler ps })

/-- The gated programming sequence, in its order (41_pwm.md R142, R143). -/
def programGroup (g ps t f : Nat) (s : State) : State :=
  startClock g ps (writeModeFreq g f (restoreDuties g t (writeTop g t (stopClock g s))))

/-- `DutyCore(g, c, d)` (41_pwm.md R146). -/
def dutyCore (g c d : Nat) (s : State) : State :=
  let s1 := s.modChannel g c (fun x => { x with duty := BitVec.ofNat 8 d, cmp := scale (s.top g) d })
  let s2 := setOen g c true s1
  match s.cfg.pinOf g c with
  | none => s2
  | some p => setDrive p .timer s2

/-- The compare output of the channel behind a pin, disabled (41_pwm.md R150). -/
def disconnect (p : Nat) (s : State) : State :=
  match s.cfg.timerOf p with
  | none => s
  | some (g, c) => setOen g c false s

/-- `ForceLevel(p, l)`: disconnect the compare output, then drive the latch (41_pwm.md R150). -/
def forceLevel (p : Nat) (l : Level) (s : State) : State := writePin p l (setDrive p .latch (disconnect p s))

/-- `genericDuty(p, v)`: the collaborator's duty-cycle write leaves only this record (41_pwm.md R152). -/
def genericDuty (p v : Nat) (s : State) : State := setDrive p (.generic (BitVec.ofNat 8 v)) s

/-- The body of PWM.AWRITE (41_pwm.md R148), which the motor power setter uses too (42_motor.md R185). -/
def aWriteCore (p v : Nat) (s : State) : State :=
  if s.cfg.nPins ≤ p then s
  else if v = 0 then forceLevel p .low s
  else if v = 255 then forceLevel p .high s
  else
    match s.cfg.timerOf p with
    | some (g, c) => dutyCore g c v s
    | none => genericDuty p v s

/-- What PWM.SETFREQ programs: the group of the pin, with a prescaler and a period, or nothing when it fails (41_pwm.md R142). -/
def freqPlan (c : Config) (p f : Nat) : Option (Nat × Nat × Nat) :=
  match c.timerOf p with
  | none => none
  | some (g, _) =>
    match c.groups[g]? with
    | none => none
    | some gc => (selectConfig c.baseClock gc f).map (fun r => (g, r.1, r.2))

/-- PWM.SETFREQ: result 1 and the group reprogrammed, or result 0 and nothing written (41_pwm.md R142). -/
def execPwmSetFreq (p frequency : Nat) (s : State) : Host.Outcome State Fault Refusal :=
  match freqPlan s.cfg p frequency with
  | none => complete 0 s
  | some (g, ps, t) => complete 1 (programGroup g ps t frequency s)

/-- The channel exists: `g < NG` and `c < NCH[g]` (41_pwm.md R147). -/
def channelExists (cfg : Config) (g c : Nat) : Bool :=
  match cfg.groups[g]? with
  | none => false
  | some gc => decide (c < gc.channels.count)

/-- PWM.SETDUTY (41_pwm.md R146); an invalid channel or group is ignored (R147). -/
def execPwmSetDuty (g c duty : Nat) (s : State) : Host.Outcome State Fault Refusal :=
  complete 0 (if channelExists s.cfg g c then dutyCore g c duty s else s)

/-- PWM.AWRITE (41_pwm.md R148). -/
def execPwmAWrite (p value : Nat) (s : State) : Host.Outcome State Fault Refusal :=
  complete 0 (aWriteCore p value s)

end Sys2Proof.Machine
end

