-- ==== Sys2Proof/Machine/Motor.lean ====
section
/-! DEFINITION. The Motor Controller and its regulation loop, and the meanings of the MOT commands (42_motor.md). -/

namespace Sys2Proof.Machine

open Sys2Proof

/-- `AssertDirection(m, fwd)` (42_motor.md R182): the pin of the direction high, the other low; the enable is active low. -/
def assertDirection (w : Wiring) (fwd : Bool) (s : State) : State :=
  match w with
  | .dual a b =>
    if fwd then forceLevel b .low (forceLevel a .high s) else forceLevel a .low (forceLevel b .high s)
  | .dirPwm d _ none => forceLevel d (if fwd then .high else .low) s
  | .dirPwm d _ (some en) => forceLevel en .low (forceLevel d (if fwd then .high else .low) s)

/-- `PowerPin(m)` (42_motor.md R183): the pin that carries the PWM signal, and whether the power is complemented. -/
def powerPin (w : Wiring) (dir : Direction) : Option (Nat × Bool) :=
  match w, dir with
  | .dirPwm _ p _, _ => some (p, false)
  | .dual _ b, .forward => some (b, true)
  | .dual a _, .backward => some (a, true)
  | .dual _ _, .stopped => none

/-- `DeEnergize(m)` (42_motor.md R184): the direction pin of a DIRPWM wiring is not written. -/
def deEnergize (w : Wiring) (s : State) : State :=
  match w with
  | .dual a b => forceLevel b .low (forceLevel a .low s)
  | .dirPwm _ p none => forceLevel p .low s
  | .dirPwm _ p (some en) => forceLevel p .low (forceLevel en .high s)

/-- `SetPowerCore(m, pw)` (42_motor.md R185). -/
def setPowerCore (m : Nat) (w : Wiring) (pw : Int) (s : State) : State :=
  let pc := clampPower pw
  let s1 := s.modMotor m (fun x => { x with power := BitVec.ofNat 8 pc })
  if pc = 0 then deEnergize w s1
  else
    match powerPin w (s1.motor m).dir with
    | none => s1
    | some (q, inv) => aWriteCore q (if inv then 255 - pc else pc) s1

/-- `Stop(m)` (42_motor.md R186). -/
def stopMotor (m : Nat) (w : Wiring) (s : State) : State :=
  deEnergize w (s.modMotor m (fun x => { x with regulated := false, power := 0, dir := .stopped }))

/-- `Go(m, fwd, pw)`: direction first, power last (42_motor.md R187). -/
def goMotor (m : Nat) (w : Wiring) (fwd : Bool) (pw : Int) (s : State) : State :=
  let s1 := s.modMotor m (fun x => { x with regulated := false, dir := if fwd then .forward else .backward })
  setPowerCore m w pw (assertDirection w fwd s1)

/-- `PosSnap(m)`: one racing read of the motor's encoder (42_motor.md R181). -/
abbrev posSnap (mc : MotorConfig) (s : State) : Int := s.readPos mc.encOf

/-- `StartRegulation(m, rate, g, P)` (42_motor.md R189). -/
def startRegulation (m : Nat) (w : Wiring) (rate g p : Int) (s : State) : State :=
  let t := s.nowMillis
  let s1 := s.tickClock.modMotor m
    (fun x => { x with goal := g, tps := BitVec.ofInt 32 rate, lastT := t, lastPos := p })
  setRegulated m true (goMotor m w (decide (p < g)) s.cfg.seedPower s1)

/-- `NextPower(pw, rate, tps)` (42_motor.md R192): the stall test comes first. -/
def nextPower (c : Config) (pw rate : Nat) (tps : Int) : Nat :=
  if rate = 0 then (if pw < c.seedPower then c.seedPower else 2 * pw)
  else if tps < rate then c.down pw
  else if (rate : Int) < tps then c.up pw
  else pw

/-- The goal of an episode is reached (42_motor.md R193). -/
def goalReached (x : Motor) (p : Int) : Bool :=
  match x.dir with
  | .stopped => false
  | .forward => decide (x.goal ≤ p)
  | .backward => decide (p ≤ x.goal)

/-- The milliseconds since the last check, `uwrap_32(now - lastT)` (42_motor.md R193, 70_reset_and_hazards.md R285). -/
def elapsed (x : Motor) (now : Nat) : Nat := (BitVec.ofNat 32 now - x.lastT).toNat

/-- The achieved rate, `abs(P - lastPos) * RATE_SCALE` (42_motor.md R193). -/
def achievedRate (c : Config) (x : Motor) (p : Int) : Nat := (p - x.lastPos).natAbs * c.rateScale

/-- The correction of a check: a new power, then the bookkeeping (42_motor.md R193). -/
def correct (m : Nat) (w : Wiring) (now : Nat) (p : Int) (s : State) : State :=
  let x := s.motor m
  let s1 := setPowerCore m w (nextPower s.cfg x.power.toNat (achievedRate s.cfg x p) x.tps.toInt) s
  s1.modMotor m (fun y => { y with lastT := BitVec.ofNat 32 now, lastPos := p })

/-- The body of MOT.CHECK for an existing motor (42_motor.md R193). -/
def checkMotor (m : Nat) (mc : MotorConfig) (now : Nat) (s : State) : State :=
  let x := s.motor m
  if x.regulated then
    if goalReached x (posSnap mc s) then stopMotor m mc.wiring s
    else if elapsed x now < s.cfg.checkInterval then s
    else correct m mc.wiring now (posSnap mc s) s
  else s

/-- MOT.STOP (42_motor.md R186). -/
def execMotStop (m : Nat) (s : State) : Host.Outcome State Fault Refusal :=
  match s.cfg.motors[m]? with
  | none => complete 0 s
  | some mc => complete 0 (stopMotor m mc.wiring s)

/-- MOT.GO (42_motor.md R187). -/
def execMotGo (m : Nat) (forward : Bool) (power : Int) (s : State) : Host.Outcome State Fault Refusal :=
  match s.cfg.motors[m]? with
  | none => complete 0 s
  | some mc => complete 0 (goMotor m mc.wiring forward power s)

/-- MOT.SETPOWER (42_motor.md R188). -/
def execMotSetPower (m : Nat) (power : Int) (s : State) : Host.Outcome State Fault Refusal :=
  match s.cfg.motors[m]? with
  | none => complete 0 s
  | some mc => complete 0 (setPowerCore m mc.wiring power s)

/-- MOT.GOFOR: the goal is `wrap(P + ticks)` (42_motor.md R191). -/
def execMotGoFor (m : Nat) (rate ticks : Int) (s : State) : Host.Outcome State Fault Refusal :=
  match s.cfg.motors[m]? with
  | none => complete 0 s
  | some mc =>
    complete 0 (startRegulation m mc.wiring rate (wrapTo s.cfg.posWidth (posSnap mc s + ticks)) (posSnap mc s) s)

/-- MOT.GOTO: the goal is `wrap(goal)` (42_motor.md R190). -/
def execMotGoTo (m : Nat) (rate goal : Int) (s : State) : Host.Outcome State Fault Refusal :=
  match s.cfg.motors[m]? with
  | none => complete 0 s
  | some mc => complete 0 (startRegulation m mc.wiring rate (wrapTo s.cfg.posWidth goal) (posSnap mc s) s)

/-- MOT.CHECK (42_motor.md R193). -/
def execMotCheck (m now : Nat) (s : State) : Host.Outcome State Fault Refusal :=
  match s.cfg.motors[m]? with
  | none => complete 0 s
  | some mc => complete 0 (checkMotor m mc now s)

/-- MOT.MOVING: 1 unless the motor is stopped (42_motor.md R194). -/
def execMotMoving (m : Nat) (s : State) : Host.Outcome State Fault Refusal :=
  match s.cfg.motors[m]? with
  | none => complete 0 s
  | some _ => complete (if (s.motor m).dir = .stopped then 0 else 1) s

/-- MOT.ENCPOS: the motor's encoder position, as a racing read (42_motor.md R195). -/
def execMotEncPos (m : Nat) (s : State) : Host.Outcome State Fault Refusal :=
  match s.cfg.motors[m]? with
  | none => complete 0 s
  | some mc => complete (posWord (posSnap mc s)) s

end Sys2Proof.Machine
end

