-- ==== Sys2Proof/Machine/Dispatch.lean ====
section
/-! DEFINITION. One arm per command (30_encoding.md R88). -/

namespace Sys2Proof.Machine

open Sys2Proof

def exec (i : Instr) (s : State) : Host.Outcome State Fault Refusal :=
  match i with
  | .encSetA e level => Sys2Proof.Machine.execEncSetA e level s
  | .encSetB e level => Sys2Proof.Machine.execEncSetB e level s
  | .encTick e => Sys2Proof.Machine.execEncTick e s
  | .encEdgeA e level => Sys2Proof.Machine.execEncEdgeA e level s
  | .encEdgeB e level => Sys2Proof.Machine.execEncEdgeB e level s
  | .encZero e offset => Sys2Proof.Machine.execEncZero e offset s
  | .encPos e => Sys2Proof.Machine.execEncPos e s
  | .pwmSetFreq p frequency => Sys2Proof.Machine.execPwmSetFreq p frequency s
  | .pwmSetDuty g c duty => Sys2Proof.Machine.execPwmSetDuty g c duty s
  | .pwmAWrite p value => Sys2Proof.Machine.execPwmAWrite p value s
  | .motStop m => Sys2Proof.Machine.execMotStop m s
  | .motGo m forward power => Sys2Proof.Machine.execMotGo m forward power s
  | .motSetPower m power => Sys2Proof.Machine.execMotSetPower m power s
  | .motGoFor m rate ticks => Sys2Proof.Machine.execMotGoFor m rate ticks s
  | .motGoTo m rate goal => Sys2Proof.Machine.execMotGoTo m rate goal s
  | .motCheck m now => Sys2Proof.Machine.execMotCheck m now s
  | .motMoving m => Sys2Proof.Machine.execMotMoving m s
  | .motEncPos m => Sys2Proof.Machine.execMotEncPos m s

end Sys2Proof.Machine
end

