-- ==== Sys2Proof/WellFormed.lean ====
section
/-! DEFINITION. Operand ranges of a command (30_encoding.md R82, R94, R96). -/

namespace Sys2Proof

/-- An 8-bit header field: an index, a channel, a duty or a value (R96). -/
def fitsByte (n : Nat) : Bool := decide (n < 256)

/-- An unsigned operand word: `0..2^32-1` (R82, R96). -/
def fitsUnsigned (n : Nat) : Bool := decide (n < 4294967296)

/-- A signed operand word: `-2^31..2^31-1` (R82, R96). -/
def fitsSigned (v : Int) : Bool := decide (-2147483648 ≤ v) && decide (v < 2147483648)

/-- Every operand lies in its range (R96). -/
def Instr.wf : Instr → Bool
  | .encSetA e _ => fitsByte e
  | .encSetB e _ => fitsByte e
  | .encTick e => fitsByte e
  | .encEdgeA e _ => fitsByte e
  | .encEdgeB e _ => fitsByte e
  | .encZero e offset => fitsByte e && fitsSigned offset
  | .encPos e => fitsByte e
  | .pwmSetFreq p frequency => fitsByte p && fitsUnsigned frequency
  | .pwmSetDuty g c duty => fitsByte g && fitsByte c && fitsByte duty
  | .pwmAWrite p value => fitsByte p && fitsByte value
  | .motStop m => fitsByte m
  | .motGo m _ power => fitsByte m && fitsSigned power
  | .motSetPower m power => fitsByte m && fitsSigned power
  | .motGoFor m rate ticks => fitsByte m && fitsSigned rate && fitsSigned ticks
  | .motGoTo m rate goal => fitsByte m && fitsSigned rate && fitsSigned goal
  | .motCheck m now => fitsByte m && fitsUnsigned now
  | .motMoving m => fitsByte m
  | .motEncPos m => fitsByte m

end Sys2Proof
end

