-- ==== Sys2Proof/Decode.lean ====
section
/-! DEFINITION. The decoder of 30_encoding.md, total on any list of words and on any bytes, and after it the encoder, from the
same opcode map and formats (R81 to R93, R98). -/

namespace Sys2Proof

/-- The agent that issues a command (R88's agent column, 60_exceptions.md R245). -/
def Instr.agent : Instr → Agent
  | .encSetA .. => .edge
  | .encSetB .. => .edge
  | .encTick .. => .edge
  | .encEdgeA .. => .edge
  | .encEdgeB .. => .edge
  | .encZero .. => .control
  | .encPos .. => .control
  | .pwmSetFreq .. => .control
  | .pwmSetDuty .. => .control
  | .pwmAWrite .. => .control
  | .motStop .. => .control
  | .motGo .. => .control
  | .motSetPower .. => .control
  | .motGoFor .. => .control
  | .motGoTo .. => .control
  | .motCheck .. => .control
  | .motMoving .. => .control
  | .motEncPos .. => .control

/-- The exact expansion of each pseudo-instruction (R97). -/
def Pseudo.expand : Pseudo → Instr
  | .encClear e => .encZero e 0
  | .pwmLow p => .pwmAWrite p 0
  | .pwmHigh p => .pwmAWrite p 255
  | .motFwd m power => .motGo m true power
  | .motRev m power => .motGo m false power

/-- Why a list of words is no command: a reserved opcode or a nonzero reserved header bit (both ILLEGAL, R93), or a frame whose
operand words have not all arrived (R85; log 6). -/
inductive DecodeError where
  | reservedOpcode (opc : Nat)
  | reservedBits (header : Word)
  | incomplete
deriving DecidableEq, Repr

/-- The seven formats (R83). -/
inductive Format where
  | n | l | cd | i8 | w | fw | ww
deriving DecidableEq, Repr

/-- The opcodes, one per command (R88). -/
inductive Opcode where
  | encSetA | encSetB | encTick | encEdgeA | encEdgeB | encZero | encPos
  | pwmSetFreq | pwmSetDuty | pwmAWrite
  | motStop | motGo | motSetPower | motGoFor | motGoTo | motCheck | motMoving | motEncPos
deriving DecidableEq, Repr

/-! ### Header fields (R81) -/

/-- `OPC = H[31:24]`. -/
def opcField (h : Word) : Nat := (h.extractLsb' 24 8).toNat

/-- `IDX = H[23:16]`, zero-extended (R84). -/
def idxField (h : Word) : Nat := (h.extractLsb' 16 8).toNat

/-- `SUB = H[15:8]`, zero-extended (R84). -/
def subField (h : Word) : Nat := (h.extractLsb' 8 8).toNat

/-- `IMM8 = H[7:0]`, zero-extended (R84). -/
def imm8Field (h : Word) : Nat := (h.extractLsb' 0 8).toNat

/-- `level = H[0]` (R84). -/
def levelField (h : Word) : Level := if imm8Field h % 2 = 1 then .high else .low

/-- `flag = H[8]` (R84). -/
def flagField (h : Word) : Bool := decide (subField h % 2 = 1)

/-! ### The opcode map and the formats -/

/-- The number of an opcode (R88). -/
def Opcode.code : Opcode → Nat
  | .encSetA => 0x01
  | .encSetB => 0x02
  | .encTick => 0x03
  | .encEdgeA => 0x04
  | .encEdgeB => 0x05
  | .encZero => 0x06
  | .encPos => 0x07
  | .pwmSetFreq => 0x10
  | .pwmSetDuty => 0x11
  | .pwmAWrite => 0x12
  | .motStop => 0x20
  | .motGo => 0x21
  | .motSetPower => 0x22
  | .motGoFor => 0x23
  | .motGoTo => 0x24
  | .motCheck => 0x25
  | .motMoving => 0x26
  | .motEncPos => 0x27

/-- The rows of R88 in its order. -/
def Opcode.all : List Opcode :=
  [.encSetA, .encSetB, .encTick, .encEdgeA, .encEdgeB, .encZero, .encPos, .pwmSetFreq, .pwmSetDuty, .pwmAWrite,
   .motStop, .motGo, .motSetPower, .motGoFor, .motGoTo, .motCheck, .motMoving, .motEncPos]

/-- The opcode a number selects; every other number is reserved (R90). -/
def Opcode.ofCode (n : Nat) : Option Opcode := Opcode.all.find? (fun o => o.code == n)

/-- The format of each command (R88). -/
def Opcode.format : Opcode → Format
  | .encSetA => .l
  | .encSetB => .l
  | .encTick => .n
  | .encEdgeA => .l
  | .encEdgeB => .l
  | .encZero => .w
  | .encPos => .n
  | .pwmSetFreq => .w
  | .pwmSetDuty => .cd
  | .pwmAWrite => .i8
  | .motStop => .n
  | .motGo => .fw
  | .motSetPower => .w
  | .motGoFor => .ww
  | .motGoTo => .ww
  | .motCheck => .w
  | .motMoving => .n
  | .motEncPos => .n

/-- How many operand words follow the header (R83). -/
def Format.operandWords : Format → Nat
  | .n => 0
  | .l => 0
  | .cd => 0
  | .i8 => 0
  | .w => 1
  | .fw => 1
  | .ww => 2

/-- The header bits a format marks "must be 0" are 0 (R83). -/
def Format.reservedZero (f : Format) (h : Word) : Bool :=
  match f with
  | .n => decide (subField h = 0) && decide (imm8Field h = 0)
  | .l => decide (subField h = 0) && decide (imm8Field h < 2)
  | .cd => true
  | .i8 => decide (subField h = 0)
  | .w => decide (subField h = 0) && decide (imm8Field h = 0)
  | .fw => decide (subField h < 2) && decide (imm8Field h = 0)
  | .ww => decide (subField h = 0) && decide (imm8Field h = 0)

/-- The header mask of a format's fixed bits, the last column of R83: a header is a command's when, under the mask of its format, it
is the opcode alone. -/
def Format.fixedMask : Format → Word
  | .n => 0xFF00FFFF
  | .l => 0xFF00FFFE
  | .cd => 0xFF000000
  | .i8 => 0xFF00FF00
  | .w => 0xFF00FFFF
  | .fw => 0xFF00FEFF
  | .ww => 0xFF00FFFF

/-- The command an opcode makes of its header and operand words (R82, R84, R87, R88): a signed operand is the word's two's
complement value, an unsigned one the word as a natural. -/
def Opcode.instr (o : Opcode) (h w1 w2 : Word) : Instr :=
  match o with
  | .encSetA => .encSetA (idxField h) (levelField h)
  | .encSetB => .encSetB (idxField h) (levelField h)
  | .encTick => .encTick (idxField h)
  | .encEdgeA => .encEdgeA (idxField h) (levelField h)
  | .encEdgeB => .encEdgeB (idxField h) (levelField h)
  | .encZero => .encZero (idxField h) w1.toInt
  | .encPos => .encPos (idxField h)
  | .pwmSetFreq => .pwmSetFreq (idxField h) w1.toNat
  | .pwmSetDuty => .pwmSetDuty (idxField h) (subField h) (imm8Field h)
  | .pwmAWrite => .pwmAWrite (idxField h) (imm8Field h)
  | .motStop => .motStop (idxField h)
  | .motGo => .motGo (idxField h) (flagField h) w1.toInt
  | .motSetPower => .motSetPower (idxField h) w1.toInt
  | .motGoFor => .motGoFor (idxField h) w1.toInt w2.toInt
  | .motGoTo => .motGoTo (idxField h) w1.toInt w2.toInt
  | .motCheck => .motCheck (idxField h) w1.toNat
  | .motMoving => .motMoving (idxField h)
  | .motEncPos => .motEncPos (idxField h)

/-- How many operand words the frame of a header has; a reserved opcode's frame is the header alone (R85). -/
def operandCount (h : Word) : Nat :=
  match Opcode.ofCode (opcField h) with
  | none => 0
  | some o => o.format.operandWords

/-- The decoder (R85, R93): the first frame of a list of words, with the words after it. ILLEGAL is decided first, from the
header alone (60_exceptions.md R242). -/
def decodeFrame : List Word → Except DecodeError (Instr × List Word)
  | [] => .error .incomplete
  | h :: ws =>
    match Opcode.ofCode (opcField h) with
    | none => .error (.reservedOpcode (opcField h))
    | some o =>
      if o.format.reservedZero h then
        if ws.length < o.format.operandWords then .error .incomplete
        else .ok (o.instr h (ws.getD 0 0) (ws.getD 1 0), ws.drop o.format.operandWords)
      else .error (.reservedBits h)

/-- The words left after an ILLEGAL frame: its whole frame is taken, whose length its opcode gives (R85; log 8). -/
def afterIllegal : List Word → List Word
  | [] => []
  | h :: ws => ws.drop (operandCount h)

/-! ### Serialized frames (R98) -/

/-- The four bytes of a word, least significant first. -/
def bytesOfWord (w : Word) : List Byte :=
  [w.extractLsb' 0 8, w.extractLsb' 8 8, w.extractLsb' 16 8, w.extractLsb' 24 8]

/-- The word four bytes make, least significant first. -/
def wordOfBytes (b0 b1 b2 b3 : Byte) : Word := b3 ++ b2 ++ b1 ++ b0

/-- The words of a byte sequence; fewer than four bytes left over make no word yet. -/
def wordsOfBytes : List Byte → List Word
  | b0 :: b1 :: b2 :: b3 :: rest => wordOfBytes b0 b1 b2 b3 :: wordsOfBytes rest
  | _ => []

/-- The bytes of a sequence of words, in order. -/
def bytesOfWords : List Word → List Byte
  | [] => []
  | w :: ws => bytesOfWord w ++ bytesOfWords ws

/-- The decoder on bytes (R98). -/
def decodeBytes (bs : List Byte) : Except DecodeError (Instr × List Word) := decodeFrame (wordsOfBytes bs)

/-- The `n` bytes of a natural, least significant first. -/
def bytesOfNat : Nat → Nat → List Byte
  | 0, _ => []
  | n + 1, v => BitVec.ofNat 8 v :: bytesOfNat n (v / 256)

/-- The three words (the longest frame, R83) that an instruction's bits make when bit 0 is bit 0 of the header and the bits above
`nbits` are 0. -/
def wordsOfTable (nbits w : Nat) : List Word := wordsOfBytes (bytesOfNat 12 (w % 2 ^ nbits))

/-- The instruction the decoder reads from a row of spec/opcode_table.json. -/
def decodeTableWord (nbits w : Nat) : Option Instr :=
  match decodeFrame (wordsOfTable nbits w) with
  | .ok (i, _) => some i
  | .error _ => none

/-! ### The encoder -/

/-- A header from its four fields (R81). -/
def header (o : Opcode) (idx sub imm8 : Nat) : Word :=
  BitVec.ofNat 32 (o.code * 16777216 + idx * 65536 + sub * 256 + imm8)

/-- A level in `IMM8[0]` (R81). -/
def Level.bit : Level → Nat
  | .low => 0
  | .high => 1

/-- The flag in `SUB[0]` (R81). -/
def flagBit (b : Bool) : Nat := if b then 1 else 0

/-- The opcode of a command (R88). -/
def Instr.opcode : Instr → Opcode
  | .encSetA .. => .encSetA
  | .encSetB .. => .encSetB
  | .encTick .. => .encTick
  | .encEdgeA .. => .encEdgeA
  | .encEdgeB .. => .encEdgeB
  | .encZero .. => .encZero
  | .encPos .. => .encPos
  | .pwmSetFreq .. => .pwmSetFreq
  | .pwmSetDuty .. => .pwmSetDuty
  | .pwmAWrite .. => .pwmAWrite
  | .motStop .. => .motStop
  | .motGo .. => .motGo
  | .motSetPower .. => .motSetPower
  | .motGoFor .. => .motGoFor
  | .motGoTo .. => .motGoTo
  | .motCheck .. => .motCheck
  | .motMoving .. => .motMoving
  | .motEncPos .. => .motEncPos

/-- The words of a well-formed command (R82, R89). -/
def encode : Instr → List Word
  | .encSetA e l => [header .encSetA e 0 l.bit]
  | .encSetB e l => [header .encSetB e 0 l.bit]
  | .encTick e => [header .encTick e 0 0]
  | .encEdgeA e l => [header .encEdgeA e 0 l.bit]
  | .encEdgeB e l => [header .encEdgeB e 0 l.bit]
  | .encZero e offset => [header .encZero e 0 0, BitVec.ofInt 32 offset]
  | .encPos e => [header .encPos e 0 0]
  | .pwmSetFreq p f => [header .pwmSetFreq p 0 0, BitVec.ofNat 32 f]
  | .pwmSetDuty g c d => [header .pwmSetDuty g c d]
  | .pwmAWrite p v => [header .pwmAWrite p 0 v]
  | .motStop m => [header .motStop m 0 0]
  | .motGo m fwd power => [header .motGo m (flagBit fwd) 0, BitVec.ofInt 32 power]
  | .motSetPower m power => [header .motSetPower m 0 0, BitVec.ofInt 32 power]
  | .motGoFor m rate ticks => [header .motGoFor m 0 0, BitVec.ofInt 32 rate, BitVec.ofInt 32 ticks]
  | .motGoTo m rate goal => [header .motGoTo m 0 0, BitVec.ofInt 32 rate, BitVec.ofInt 32 goal]
  | .motCheck m now => [header .motCheck m 0 0, BitVec.ofNat 32 now]
  | .motMoving m => [header .motMoving m 0 0]
  | .motEncPos m => [header .motEncPos m 0 0]

end Sys2Proof
end

