-- ==== Sys2Proof/Machine/Boot.lean ====
section
/-! DEFINITION. Boot (70_reset_and_hazards.md R271): pin modes, then Stop on every motor, then the edge handlers. -/

namespace Sys2Proof.Machine

open Sys2Proof

/-- `setPinMode(p, OUTPUT)` for each pin of a list. -/
def setOutputs : List Nat → State → State
  | [], s => s
  | p :: ps, s => setOutputs ps (setPinOutput p s)

/-- Every pin of every motor's wiring; the order in which they become OUTPUTs decides nothing. -/
def motorPins (c : Config) : List Nat := c.motors.flatMap (fun mc => mc.wiring.pins)

/-- Boot step (1): every motor pin an OUTPUT (R271). -/
def bootPinModes (s : State) : State := { setOutputs (motorPins s.cfg) s with boot := .stopMotors }

/-- `Stop(m)` for the motors of a list, the first of them motor `m`, in the order of their indices. DESIGN CHOICE (log 21): R271 gives
no order, which decides the level of a pin that two motors share. -/
def stopFrom : Nat → List MotorConfig → State → State
  | _, [], s => s
  | m, mc :: rest, s => stopFrom (m + 1) rest (stopMotor m mc.wiring s)

/-- Boot step (2): Stop on every motor (R271). -/
def bootStopMotors (s : State) : State := { stopFrom 0 s.cfg.motors s with boot := .handlers }

/-- Boot step (3): the edge handlers are registered, and the block waits for commands (R271, R272). -/
def bootHandlers (s : State) : State := { s with boot := .running }

/-- What is left of boot, all at once (log 3). -/
def finishBoot (s : State) : State :=
  match s.boot with
  | .pinModes => bootHandlers (bootStopMotors (bootPinModes s))
  | .stopMotors => bootHandlers (bootStopMotors s)
  | .handlers => bootHandlers s
  | .running => s

end Sys2Proof.Machine
end

