-- ==== Sys2Proof/Machine/Fetch.lean ====
section
/-! DEFINITION. How the next command is taken: boot, then the schedule's turns, each taking one frame from its agent's port
(30_encoding.md R80, R85; 20_memory.md R71; 60_exceptions.md R244, R245, R247). -/

namespace Sys2Proof.Machine

open Sys2Proof

/-- What the block does next: wait for commands, move on by itself (boot, an ILLEGAL frame), refuse to admit a command, or execute
one in a state in which its frame has been taken. -/
inductive Fetched where
  | wait
  | move (s : State)
  | refuse (r : Refusal)
  | command (i : Instr) (s : State)
deriving Repr

/-- The words an agent has issued and the block has not taken. -/
def State.port (s : State) (a : Agent) : List Word :=
  match a with
  | .edge => s.edgePort
  | .control => s.controlPort

/-- Replace an agent's words. -/
def State.setPort (s : State) (a : Agent) (ws : List Word) : State :=
  match a with
  | .edge => { s with edgePort := ws }
  | .control => { s with controlPort := ws }

/-- The encoder an encoder command names (30_encoding.md R87). -/
def Instr.encoderIndex : Instr → Option Nat
  | .encSetA e _ => some e
  | .encSetB e _ => some e
  | .encTick e => some e
  | .encEdgeA e _ => some e
  | .encEdgeB e _ => some e
  | .encZero e _ => some e
  | .encPos e => some e
  | .pwmSetFreq .. => none
  | .pwmSetDuty .. => none
  | .pwmAWrite .. => none
  | .motStop .. => none
  | .motGo .. => none
  | .motSetPower .. => none
  | .motGoFor .. => none
  | .motGoTo .. => none
  | .motCheck .. => none
  | .motMoving .. => none
  | .motEncPos .. => none

/-- What a position read of the next control command could overlap (20_memory.md R67): the edge command about to run. -/
def edgeRecord (i : Instr) (s : State) : Option EdgeRecord :=
  match Instr.encoderIndex i with
  | none => none
  | some e => if e < s.cfg.nEnc then some ⟨e, (s.encoder e).pos⟩ else none

/-- The overlap of a control command's position read with the edge command just before it, as its turn says (log 12). -/
def raceOf (t : Turn) (s : State) : Option Race :=
  match t.torn, s.lastEdge with
  | some mask, some r => some ⟨r.enc, r.before, mask⟩
  | _, _ => none

/-- The state in which a turn's command executes: its frame and its turn are taken, the environment's draw is at hand, and a control
command's read overlaps the edge command just before it where the turn says so. -/
def State.begin (s : State) (t : Turn) (ts : List Turn) (rest : List Word) (i : Instr) : State :=
  match t.agent with
  | .edge =>
    { s with edgePort := rest, turns := ts, draw := t.draw, race := none, lastEdge := edgeRecord i s }
  | .control =>
    { s with controlPort := rest, turns := ts, draw := t.draw, race := raceOf t s, lastEdge := none }

/-- The state after an ILLEGAL frame: its words and its turn are taken, nothing is executed (30_encoding.md R93; log 8). -/
def State.dropIllegal (s : State) (t : Turn) (ts : List Turn) : State :=
  raiseIllegal { s.setPort t.agent (afterIllegal (s.port t.agent)) with turns := ts, race := none, lastEdge := none }

/-- One turn of the schedule. A frame whose words have not all arrived makes the block wait (log 6); a command of the other agent is
refused (R99, R245; log 9). -/
def fetchTurn (t : Turn) (ts : List Turn) (s : State) : Fetched :=
  match decodeFrame (s.port t.agent) with
  | .error .incomplete => .wait
  | .error (.reservedOpcode _) => .move (s.dropIllegal t ts)
  | .error (.reservedBits _) => .move (s.dropIllegal t ts)
  | .ok (i, rest) => if i.agent = t.agent then .command i (s.begin t ts rest i) else .refuse .wrongAgent

/-- The commands of the synchronisation sequence of 70_reset_and_hazards.md R274. -/
def bootCommand : Instr → Bool
  | .encSetA .. => true
  | .encSetB .. => true
  | .encTick .. => true
  | .encZero .. => true
  | .encEdgeA .. => false
  | .encEdgeB .. => false
  | .encPos .. => false
  | .pwmSetFreq .. => false
  | .pwmSetDuty .. => false
  | .pwmAWrite .. => false
  | .motStop .. => false
  | .motGo .. => false
  | .motSetPower .. => false
  | .motGoFor .. => false
  | .motGoTo .. => false
  | .motCheck .. => false
  | .motMoving .. => false
  | .motEncPos .. => false

/-- The frames software issues before the edge handlers are registered (70_reset_and_hazards.md R274; log 10); when none is left,
the handlers are registered (R271). -/
def fetchBoot (s : State) : Fetched :=
  match s.bootPort with
  | [] => .move (bootHandlers s)
  | w :: ws =>
    match decodeFrame (w :: ws) with
    | .error .incomplete => .wait
    | .error (.reservedOpcode _) => .move (raiseIllegal { s with bootPort := afterIllegal (w :: ws) })
    | .error (.reservedBits _) => .move (raiseIllegal { s with bootPort := afterIllegal (w :: ws) })
    | .ok (i, rest) =>
      if bootCommand i then .command i { s with bootPort := rest, race := none, lastEdge := none }
      else .refuse .notBootCommand

/-- What the block does next. -/
def fetch (s : State) : Fetched :=
  match s.boot with
  | .pinModes => .move (bootPinModes s)
  | .stopMotors => .move (bootStopMotors s)
  | .handlers => fetchBoot s
  | .running =>
    match s.turns with
    | [] => .wait
    | t :: ts => fetchTurn t ts s

/-! ### Loading from outside -/

/-- A frame of an agent stands first: its words head the agent's port and its turn heads the schedule, with the environment's inputs
as they are in the state. -/
def State.putFirst (s : State) (a : Agent) (ws : List Word) : State :=
  { s.setPort a (ws ++ s.port a) with turns := ⟨a, s.draw, none⟩ :: s.turns }

/-- The agent that issues the first frame of a list of words; an ILLEGAL frame may come from either, the control agent here. -/
def issuer (ws : List Word) : Agent :=
  match decodeFrame ws with
  | .ok (i, _) => i.agent
  | .error _ => .control

/-- The words of the first frame alone: the header and the operand words its opcode asks for (30_encoding.md R85). -/
def firstFrame : List Word → List Word
  | [] => []
  | h :: ws => h :: ws.take (operandCount h)

/-- Boot is over and the first frame of `ws` is the next command (log 3). -/
def State.withFrame (s : State) (ws : List Word) : State := (finishBoot s).putFirst (issuer ws) (firstFrame ws)

/-- An agent issues a command: its words follow the agent's earlier ones, and its turn ends the schedule. -/
def State.issue (s : State) (i : Instr) (draw : Word) (torn : Option Nat) : State :=
  { s.setPort i.agent (s.port i.agent ++ encode i) with turns := s.turns ++ [⟨i.agent, draw, torn⟩] }

/-- The two lines of an encoder, its two interrupt sources (60_exceptions.md R243). -/
inductive Line where
  | a
  | b
deriving DecidableEq, Repr

/-- The command a delivered edge runs (60_exceptions.md R244). -/
def edgeCommand (line : Line) (e : Nat) (l : Level) : Instr :=
  match line with
  | .a => .encEdgeA e l
  | .b => .encEdgeB e l

end Sys2Proof.Machine
end

