-- ==== Sys2Proof/Machine/Step.lean ====
section
/-! DEFINITION. One step of the block, and a table word stored where the next step takes its command. -/

namespace Sys2Proof.Machine

open Sys2Proof

/-- One step: one boot step, one frame, or waiting for commands (30_encoding.md R80, 70_reset_and_hazards.md R271, R272). -/
def step (s : State) : Host.Outcome State Fault Refusal :=
  match fetch s with
  | .wait => .next s
  | .move t => .next t
  | .refuse r => .refused r
  | .command i t => exec i t

/-- `s` with boot over and the table word's frame next on its agent's port (log 3). -/
def State.withFetchWord (s : State) (nbits w : Nat) : State := s.withFrame (wordsOfTable nbits w)

end Sys2Proof.Machine
end

