-- ==== Sys2Proof/Machine/Assembler.lean ====
section
/-! DEFINITION. The assembler's syntax (30_encoding.md R96) and pseudo-instructions (R97): one line of text to one command. It is
notation only (92_eei_decisions.md D55): no step calls it. -/

namespace Sys2Proof.Machine

open Sys2Proof

/-- Spaces and tabs, which stand around operands (log 19). -/
def isBlank (c : Char) : Bool := c == ' ' || c == '\t'

/-- Without blanks at either end. -/
def trimBlanks (cs : List Char) : List Char := ((cs.dropWhile isBlank).reverse.dropWhile isBlank).reverse

/-- A `;` starts a comment to the end of the line. -/
def stripComment (cs : List Char) : List Char := trimBlanks (cs.takeWhile (fun c => c != ';'))

/-- The operands between the commas. -/
def splitCommas : List Char → List (List Char)
  | [] => [[]]
  | c :: cs =>
    if c == ',' then [] :: splitCommas cs
    else
      match splitCommas cs with
      | [] => [[c]]
      | first :: rest => (c :: first) :: rest

/-- The value of a digit in a base up to 16; letters of either case (log 19). -/
def digitValue (base : Nat) (c : Char) : Option Nat :=
  let v :=
    if '0' ≤ c ∧ c ≤ '9' then c.toNat - '0'.toNat
    else if 'a' ≤ c ∧ c ≤ 'f' then c.toNat - 'a'.toNat + 10
    else if 'A' ≤ c ∧ c ≤ 'F' then c.toNat - 'A'.toNat + 10
    else 16
  if v < base then some v else none

/-- Digits onto the number read so far. -/
def readDigits (base : Nat) : Nat → List Char → Option Nat
  | acc, [] => some acc
  | acc, c :: cs => (digitValue base c).bind (fun d => readDigits base (acc * base + d) cs)

/-- A natural: decimal, or hexadecimal after `0x`. -/
def readNat : List Char → Option Nat
  | [] => none
  | '0' :: 'x' :: [] => none
  | '0' :: 'x' :: c :: cs => readDigits 16 0 (c :: cs)
  | c :: cs => readDigits 10 0 (c :: cs)

/-- An integer: a natural, or decimal after a `-`. -/
def readInt : List Char → Option Int
  | '-' :: [] => none
  | '-' :: c :: cs => (readDigits 10 0 (c :: cs)).map (fun n => -(n : Int))
  | cs => (readNat cs).map (fun n => (n : Int))

/-- The command a mnemonic and its operand texts make, before the range check; the operands stand in the order of R88. -/
def readCommand (mnemonic : List Char) (ops : List (List Char)) : Option Instr :=
  let level := fun cs => match readNat cs with
    | some 0 => some Level.low
    | some 1 => some Level.high
    | _ => none
  let flag := fun cs => match readNat cs with
    | some 0 => some false
    | some 1 => some true
    | _ => none
  let unitOnly := fun (mk : Nat → Instr) => match ops with
    | [x] => (readNat x).map mk
    | _ => none
  let unitLevel := fun (mk : Nat → Level → Instr) => match ops with
    | [x, y] => (readNat x).bind fun u => (level y).map (mk u)
    | _ => none
  let unitNat := fun (mk : Nat → Nat → Instr) => match ops with
    | [x, y] => (readNat x).bind fun u => (readNat y).map (mk u)
    | _ => none
  let unitInt := fun (mk : Nat → Int → Instr) => match ops with
    | [x, y] => (readNat x).bind fun u => (readInt y).map (mk u)
    | _ => none
  let unitIntInt := fun (mk : Nat → Int → Int → Instr) => match ops with
    | [x, y, z] => (readNat x).bind fun u => (readInt y).bind fun v => (readInt z).map (mk u v)
    | _ => none
  if mnemonic = "ENC.SETA".toList then unitLevel .encSetA
  else if mnemonic = "ENC.SETB".toList then unitLevel .encSetB
  else if mnemonic = "ENC.TICK".toList then unitOnly .encTick
  else if mnemonic = "ENC.EDGEA".toList then unitLevel .encEdgeA
  else if mnemonic = "ENC.EDGEB".toList then unitLevel .encEdgeB
  else if mnemonic = "ENC.ZERO".toList then unitInt .encZero
  else if mnemonic = "ENC.POS".toList then unitOnly .encPos
  else if mnemonic = "PWM.SETFREQ".toList then unitNat .pwmSetFreq
  else if mnemonic = "PWM.SETDUTY".toList then
    match ops with
    | [x, y, z] => (readNat x).bind fun g => (readNat y).bind fun c => (readNat z).map (Instr.pwmSetDuty g c)
    | _ => none
  else if mnemonic = "PWM.AWRITE".toList then unitNat .pwmAWrite
  else if mnemonic = "MOT.STOP".toList then unitOnly .motStop
  else if mnemonic = "MOT.GO".toList then
    match ops with
    | [x, y, z] => (readNat x).bind fun m => (flag y).bind fun f => (readInt z).map (Instr.motGo m f)
    | _ => none
  else if mnemonic = "MOT.SETPOWER".toList then unitInt .motSetPower
  else if mnemonic = "MOT.GOFOR".toList then unitIntInt .motGoFor
  else if mnemonic = "MOT.GOTO".toList then unitIntInt .motGoTo
  else if mnemonic = "MOT.CHECK".toList then unitNat .motCheck
  else if mnemonic = "MOT.MOVING".toList then unitOnly .motMoving
  else if mnemonic = "MOT.ENCPOS".toList then unitOnly .motEncPos
  else if mnemonic = "ENC.CLEAR".toList then unitOnly (fun e => (Pseudo.encClear e).expand)
  else if mnemonic = "PWM.LOW".toList then unitOnly (fun p => (Pseudo.pwmLow p).expand)
  else if mnemonic = "PWM.HIGH".toList then unitOnly (fun p => (Pseudo.pwmHigh p).expand)
  else if mnemonic = "MOT.FWD".toList then unitInt (fun m power => (Pseudo.motFwd m power).expand)
  else if mnemonic = "MOT.REV".toList then unitInt (fun m power => (Pseudo.motRev m power).expand)
  else none

/-- What one line holds: nothing (a comment or blanks), a command, or text the assembler rejects. -/
inductive Assembled where
  | empty
  | command (i : Instr)
  | rejected
deriving DecidableEq, Repr

/-- One line: the mnemonic, a space, the operands separated by commas; an operand outside its range is rejected (R96). -/
def assembleLine (line : List Char) : Assembled :=
  match stripComment line with
  | [] => .empty
  | c :: cs =>
    let mnemonic := (c :: cs).takeWhile (fun x => !isBlank x)
    let rest := trimBlanks ((c :: cs).dropWhile (fun x => !isBlank x))
    match readCommand mnemonic ((splitCommas rest).map trimBlanks) with
    | none => .rejected
    | some i => if i.wf then .command i else .rejected

end Sys2Proof.Machine
end

