-- ==== Sys2Proof/Machine/Output.lean ====
section
/-! DEFINITION. What a pin shows (10_state.md R37, 41_pwm.md R153): a function of the state, read by no command. Where the source
gives no level, the output is `someLevel` (constant, U4) or `anyValue`, which says nothing (93_implementation_defined.md U2, U3, U7;
log 16). -/

namespace Sys2Proof.Machine

open Sys2Proof

/-- What is seen on a pin. A waveform has the frequency `clockNum / clockDen` Hz and is high for `high / period` of each period; a
generic duty is the collaborator's, at duty `v` of 256 (41_pwm.md R152, R153); `someLevel` is a constant level the source does not
give (U4). -/
inductive PinOutput where
  | level (l : Level)
  | someLevel
  | waveform (clockNum clockDen high period : Nat)
  | generic (v : BitVec 8)
  | anyValue
deriving DecidableEq, Repr

/-- The waveform of a channel (41_pwm.md R153): frequency `BASE_CLOCK / (2 * ps * top)`, high for `cmp / top`; a constant level
with the clock stopped (U4). It is not specified with `cmp = 0`, with `cmp >= top`, or at the stored duty 255 (R149, U2, U3). -/
def channelOutput (clk : Nat) (x : Group) (ch : Channel) : PinOutput :=
  match x.cs with
  | .off => .someLevel
  | .prescaler ps =>
    if ch.cmp = 0 ∨ x.top ≤ ch.cmp ∨ ch.duty = 255 then .anyValue
    else .waveform clk (2 * ps * x.top) ch.cmp x.top

/-- The effective output of a pin (10_state.md R37). What an INPUT pin shows after `writePin` is not in source (R44, U7). -/
def State.pinOutput (s : State) (p : Nat) : PinOutput :=
  match s.pin? p with
  | none => .anyValue
  | some x =>
    match x.drive with
    | .latch =>
      match x.mode with
      | .input => .anyValue
      | .output => .level x.latch
    | .generic v => .generic v
    | .timer =>
      match s.cfg.timerOf p with
      | none => .anyValue
      | some (g, c) =>
        match s.group? g, s.channel? g c with
        | some grp, some ch => channelOutput s.cfg.baseClock grp ch
        | _, _ => .anyValue

end Sys2Proof.Machine
end

