-- ==== Sys2Proof/Machine/RegSurface.lean ====
section
/-! DEFINITION. The timer register surface (20_memory.md R62, R63): `MemRead` and `MemWrite` over the open parameter TIMER_REG_MAP, which
gives each field an address and a bit position (92_eei_decisions.md D57) and the clock select and the waveform mode their codes. No
command uses it. -/

namespace Sys2Proof.Machine

open Sys2Proof

/-! ### The map -/

/-- The fields at an address of TIMER_REG_MAP. -/
def placed (c : Config) (addr : Nat) : List Placement := c.timerRegMap.filter (fun p => p.addr == addr)

/-- The bits of a field in its register (R63): `WIDTH[g]` bits, 8 for duty, 1 for oen. -/
def fieldBits (c : Config) (f : TimerField) : Nat :=
  let width := fun g => ((c.groups[g]?).map (fun x => x.width.bits)).getD 0
  match f with
  | .freq g => width g
  | .top g => width g
  | .cs g _ => width g
  | .wgm g _ => width g
  | .duty _ _ => 8
  | .cmp g _ => width g
  | .oen _ _ => 1

/-- The bits of a register: up to the end of its highest field. -/
def registerBits (c : Config) (ps : List Placement) : Nat := (ps.map (fun p => p.lo + fieldBits c p.field)).foldr max 0

/-- The value of a register code. -/
def Codes.decode {α : Type} (c : Codes α) (v : Nat) : α := ((c.listed.find? (fun x => x.1 == v)).map Prod.snd).getD c.other

/-- The register code of a value, if one is listed. -/
def Codes.encode {α : Type} [DecidableEq α] (c : Codes α) (a : α) : Option Nat :=
  (c.listed.find? (fun x => decide (x.2 = a))).map Prod.fst

/-! ### Bit positions -/

/-- The `n` bits of `x` from bit `lo` on. -/
def getField (lo n x : Nat) : Nat := x / 2 ^ lo % 2 ^ n

/-- `x` with its `n` bits from bit `lo` on replaced by those of `v`. -/
def setField (lo n v x : Nat) : Nat := x % 2 ^ lo + v % 2 ^ n * 2 ^ lo + x / 2 ^ (lo + n) * 2 ^ (lo + n)

/-! ### Reading -/

/-- The value of a field as a register shows it; `none` for a group or channel that does not exist and for a value with no code. -/
def fieldValue (f : TimerField) (s : State) : Option Nat :=
  match f with
  | .freq g => (s.group? g).map (fun x => x.freq.toNat)
  | .top g => (s.group? g).map Group.top
  | .cs g codes => (s.group? g).bind (fun x => Codes.encode codes x.cs)
  | .wgm g codes => (s.group? g).bind (fun x => Codes.encode codes x.wgm)
  | .duty g c => (s.channel? g c).map (fun x => x.duty.toNat)
  | .cmp g c => (s.channel? g c).map Channel.cmp
  | .oen g c => (s.channel? g c).map (fun x => if x.oen then 1 else 0)

/-- The fields of a register, each in its bits, over `x`. A frequency of more than `WIDTH[g]` bits shows its low bits (log 15). -/
def overlay : List Placement → State → Nat → Option Nat
  | [], _, x => some x
  | p :: ps, s, x => (fieldValue p.field s).bind (fun v => overlay ps s (setField p.lo (fieldBits s.cfg p.field) v x))

/-- `MemRead(addr, n)` (R63). The bits that belong to no field, in the register or above it, read as those of `spare`, which the
environment chooses. DESIGN CHOICE (log 15): `n` counts bytes. -/
def memRead (addr n spare : Nat) (s : State) : Option Nat :=
  match placed s.cfg addr with
  | [] => none
  | p :: ps => if 8 * n < registerBits s.cfg (p :: ps) then none else overlay (p :: ps) s (spare % 2 ^ (8 * n))

/-! ### Writing -/

/-- The compare output of a channel switched, with the drive of its pin, which says the same (10_state.md R36). -/
def switchOutput (g c : Nat) (b : Bool) (s : State) : State :=
  match s.cfg.pinOf g c with
  | none => setOen g c b s
  | some p => setDrive p (if b then .timer else .latch) (setOen g c b s)

/-- The assignment of a register's bits to their field (R63). -/
def writeField (f : TimerField) (x : Nat) (s : State) : State :=
  match f with
  | .freq g => s.modGroup g (fun y => { y with freq := BitVec.ofNat 32 x })
  | .top g => writeTop g x s
  | .cs g codes => s.modGroup g (fun y => { y with cs := Codes.decode codes x })
  | .wgm g codes => s.modGroup g (fun y => { y with wgm := Codes.decode codes x })
  | .duty g c => s.modChannel g c (fun y => { y with duty := BitVec.ofNat 8 x })
  | .cmp g c => s.modChannel g c (fun y => { y with cmp := x })
  | .oen g c => switchOutput g c (decide (x = 1)) s

/-- Every field of a register assigned from its bits of `v`. -/
def writeFields : List Placement → Nat → State → State
  | [], _, s => s
  | p :: ps, v, s => writeFields ps v (writeField p.field (getField p.lo (fieldBits s.cfg p.field) v) s)

/-- `MemWrite(addr, n, v)`: exactly the effect of the assignment to each field of the register (R63), with the group's clock stopped or
running (DEDUCED, log 15). DESIGN CHOICE (log 15): `n` counts bytes; bits of `v` that belong to no field have no effect, an access of
more bits than the register's being one with such bits above it; an access of fewer bits is refused. -/
def memWrite (addr n v : Nat) (s : State) : Host.Outcome State Fault Refusal :=
  match placed s.cfg addr with
  | [] => .fault (.noRegister addr)
  | p :: ps =>
    if 8 * n < registerBits s.cfg (p :: ps) then .refused .partialRegisterAccess
    else .next (writeFields (p :: ps) v s)

/-- Register writes one after another, each of `n` bytes; they stop at the first that has no next state. -/
def memWrites (n : Nat) : List (Nat × Nat) → State → Host.Outcome State Fault Refusal
  | [], s => .next s
  | x :: xs, s =>
    match memWrite x.1 n x.2 s with
    | .next t => memWrites n xs t
    | .fault r => .fault r
    | .refused r => .refused r

end Sys2Proof.Machine
end

