-- ==== Sys2Proof/Safety.lean ====
section
/-! DEFINITION. What claims are stated in: well-formed parameters (00_scope.md R8), the invariants the spec states of every reachable
state, and runs of commands. -/

namespace Sys2Proof

open Sys2Proof.Machine

/-- A wiring names pins of the block, each once (10_state.md R41; log 17). -/
def Wiring.wf (nPins : Nat) (w : Wiring) : Bool :=
  w.pins.all (fun p => decide (p < nPins)) && decide w.pins.Nodup

/-- A group's parameters: a strictly ascending, non-empty list of positive prescalers, and `INIT_TOP[g] <= TOP_MAX[g]` (R8). -/
def GroupConfig.wf (g : GroupConfig) : Bool :=
  !g.prescalers.isEmpty && g.prescalers.all (fun p => decide (0 < p)) &&
    decide (g.prescalers.Pairwise (· < ·)) && decide (g.initTop ≤ g.width.topMax)

/-- `PIN_MAP` names existing channels (41_pwm.md R140). -/
def Config.pinTargetsExist (c : Config) : Bool :=
  c.pinMap.all fun
    | none => true
    | some (g, ch) => channelExists c g ch

/-- No two pins map to the same channel (41_pwm.md R140). -/
def Config.pinMapInjective (c : Config) : Bool :=
  (List.range c.nPins).all fun p => (List.range c.nPins).all fun q =>
    decide (p = q) || (c.timerOf p).isNone || decide (c.timerOf p ≠ c.timerOf q)

/-- The parameters are those of a block (R8, R140; log 17). -/
def Config.wf (c : Config) : Bool :=
  decide (1 ≤ c.nEnc) && decide (2 ≤ c.posWidth) && c.groups.all GroupConfig.wf && decide (0 < c.baseClock) &&
    decide (1 ≤ c.nPins) && decide (c.nPins ≤ 256) && c.pinTargetsExist && c.pinMapInjective &&
    c.motors.all (fun m => m.wiring.wf c.nPins && decide (m.encOf < c.nEnc)) &&
    decide (1 ≤ c.seedPower) && decide (c.seedPower ≤ 255) && decide (1 ≤ c.checkInterval) &&
    decide (c.powerUp.length = 256) && decide (c.powerDown.length = 256)

namespace Machine

/-- `v` is a `width`-bit two's complement number (10_state.md R23, R26, R38). -/
def fitsWidth (width : Nat) (v : Int) : Prop := -(2 ^ (width - 1) : Int) ≤ v ∧ v < (2 ^ (width - 1) : Int)

/-- A channel of a group: its compare register is its stored duty scaled to the period (41_pwm.md R145, 10_state.md R31). -/
def Channel.Inv (top : Nat) (ch : Channel) : Prop := ch.cmp = scale top ch.duty.toNat

/-- A group: as many channels as it has, the period in its width, and, once configured, above `TOP_MIN` with the clock running on a
supported prescaler in the PWM mode; before that, at its reset configuration (10_state.md R28, R29, R32, R34). -/
def Group.Inv (gc : GroupConfig) (x : Group) : Prop :=
  x.chans.length = gc.channels.count ∧ x.top ≤ gc.width.topMax ∧ (∀ ch ∈ x.chans, ch.Inv x.top) ∧
  ((x.freq = 0 ∧ x.top = gc.initTop ∧ x.cs = .off ∧ x.wgm = .reset) ∨
   (x.freq ≠ 0 ∧ topMin < x.top ∧ (∃ ps ∈ gc.prescalers, x.cs = .prescaler ps) ∧ x.wgm = .pwm))

/-- A motor: its positions in their width, and regulation only with a direction (10_state.md R38, R39). -/
def Motor.Inv (width : Nat) (x : Motor) : Prop :=
  fitsWidth width x.goal ∧ fitsWidth width x.lastPos ∧ (x.regulated = true → x.dir ≠ .stopped)

/-- A pin: the timer drives it exactly when its channel's output is enabled (10_state.md R36), and a generic duty is 1..254 on a pin
with no timer (R35, 41_pwm.md R148). -/
def pinInv (s : State) (p : Nat) (x : Pin) : Prop :=
  (∀ g c ch, s.cfg.timerOf p = some (g, c) → s.channel? g c = some ch → (x.drive = .timer ↔ ch.oen = true)) ∧
  (s.cfg.timerOf p = none → x.drive ≠ .timer) ∧
  (∀ v, x.drive = .generic v → s.cfg.timerOf p = none ∧ v ≠ 0 ∧ v ≠ 255)

/-- The invariant of every reachable state. -/
structure State.Inv (s : State) : Prop where
  cfg : s.cfg.wf = true
  encLength : s.enc.length = s.cfg.nEnc
  grpLength : s.grp.length = s.cfg.groups.length
  pinLength : s.pin.length = s.cfg.nPins
  motLength : s.mot.length = s.cfg.motors.length
  positions : ∀ x ∈ s.enc, fitsWidth s.cfg.posWidth x.pos
  groups : ∀ (g : Nat) (gc : GroupConfig) (x : Group), s.cfg.groups[g]? = some gc → s.grp[g]? = some x → Group.Inv gc x
  pins : ∀ (p : Nat) (x : Pin), s.pin[p]? = some x → pinInv s p x
  motors : ∀ x ∈ s.mot, Motor.Inv s.cfg.posWidth x
  record : ∀ r, s.lastEdge = some r → fitsWidth s.cfg.posWidth r.before
  race : ∀ r, s.race = some r → fitsWidth s.cfg.posWidth r.before

/-- What the environment and boot have set is the same in two states: no command writes it. -/
structure SameInputs (s t : State) : Prop where
  cfg : t.cfg = s.cfg
  boot : t.boot = s.boot
  bootPort : t.bootPort = s.bootPort
  edgePort : t.edgePort = s.edgePort
  controlPort : t.controlPort = s.controlPort
  turns : t.turns = s.turns
  draw : t.draw = s.draw
  lastEdge : t.lastEdge = s.lastEdge
  race : t.race = s.race

/-- A group's frequency, period, clock select and waveform mode. -/
def groupSettings (x : Group) : BitVec 32 × Nat × ClockSelect × WaveMode := (x.freq, x.top, x.cs, x.wgm)

/-- The timer groups of `t` are those of `s`, but for channels that back the pins `ps`. -/
structure GroupsOnly (ps : List Nat) (s t : State) : Prop where
  count : t.grp.length = s.grp.length
  settings : ∀ g, (t.group? g).map groupSettings = (s.group? g).map groupSettings
  chanCount : ∀ g, (t.group? g).map (fun x => x.chans.length) = (s.group? g).map (fun x => x.chans.length)
  channels : ∀ g c, (∀ p ∈ ps, s.cfg.timerOf p ≠ some (g, c)) → t.channel? g c = s.channel? g c

/-- The pins of `t` are those of `s`, but for the latch and the drive of the pins `ps`. -/
structure PinsOnly (ps : List Nat) (s t : State) : Prop where
  count : t.pin.length = s.pin.length
  others : ∀ p, p ∉ ps → t.pin? p = s.pin? p
  modes : ∀ p, (t.pin? p).map Pin.mode = (s.pin? p).map Pin.mode

/-- The frame of a write to the pins `ps`: nothing else of the block changes. -/
structure OutputsOnly (ps : List Nat) (s t : State) : Prop where
  inputs : SameInputs s t
  enc : t.enc = s.enc
  grp : GroupsOnly ps s t
  pin : PinsOnly ps s t

/-- The frame of an encoder command: only encoder `e` may change. -/
structure EncoderOnly (e : Nat) (s t : State) : Prop where
  inputs : SameInputs s t
  count : t.enc.length = s.enc.length
  others : ∀ e', e' ≠ e → t.encoder e' = s.encoder e'
  grp : t.grp = s.grp
  pin : t.pin = s.pin
  mot : t.mot = s.mot
  clock : t.clock = s.clock

/-- The frame of a motor command: only motor `m`, its pins and the channels behind them may change. -/
structure MotorOnly (m : Nat) (w : Wiring) (s t : State) : Prop where
  outputs : OutputsOnly w.pins s t
  count : t.mot.length = s.mot.length
  others : ∀ m', m' ≠ m → t.motor m' = s.motor m'

/-- The stored duty and the compare value of every channel are kept, but for those of channels that back the pins `ps`. -/
def DutiesKept (ps : List Nat) (s t : State) : Prop :=
  ∀ g c, (∀ p ∈ ps, s.cfg.timerOf p ≠ some (g, c)) →
    (t.channel? g c).map (fun ch => (ch.duty, ch.cmp)) = (s.channel? g c).map (fun ch => (ch.duty, ch.cmp))

/-- The pin that MOT.GO modulates at power `pc` (42_motor.md R183, R185): none at 0 and 255, where every write is a force write
(41_pwm.md R148). -/
def modulated (w : Wiring) (fwd : Bool) (pc : Nat) : List Nat :=
  if pc = 0 ∨ pc = 255 then []
  else
    match w with
    | .dual a b => [if fwd then b else a]
    | .dirPwm _ p _ => [p]

/-- A pin drives its latch at a level, and no compare output drives it (41_pwm.md R150). -/
def State.forced (s : State) (p : Nat) (l : Level) : Prop :=
  (∃ x, s.pin? p = some x ∧ x.drive = .latch ∧ x.latch = l) ∧
  (∀ g c, s.cfg.timerOf p = some (g, c) → ∃ ch, s.channel? g c = some ch ∧ ch.oen = false)

/-- A pin carries a duty as PWM.AWRITE leaves it (41_pwm.md R148): forced low at 0 and high at 255, else through its timer channel
(R146), else the generic write (R152). -/
def State.carries (s : State) (p v : Nat) : Prop :=
  if v = 0 then s.forced p .low
  else if v = 255 then s.forced p .high
  else
    match s.cfg.timerOf p with
    | some (g, c) =>
      (∃ x, s.pin? p = some x ∧ x.drive = .timer) ∧
        s.channel? g c = some ⟨BitVec.ofNat 8 v, scale (s.top g) v, true⟩
    | none => ∃ x, s.pin? p = some x ∧ x.drive = .generic (BitVec.ofNat 8 v)

/-- The de-energized configuration of a wiring (42_motor.md R184): both direction pins low, or PWM pin low and enable high. -/
def State.deEnergized (s : State) : Wiring → Prop
  | .dual a b => s.forced a .low ∧ s.forced b .low
  | .dirPwm _ p en => s.forced p .low ∧ ∀ e, en = some e → s.forced e .high

/-- The pins of a wiring as MOT.GO leaves them at power `pc` (42_motor.md R182, R183, R185, R187). -/
def State.driven (s : State) (fwd : Bool) (pc : Nat) : Wiring → Prop
  | .dual a b =>
    if pc = 0 then s.forced a .low ∧ s.forced b .low
    else s.forced (if fwd then a else b) .high ∧ s.carries (if fwd then b else a) (255 - pc)
  | .dirPwm d p en =>
    s.forced d (if fwd then .high else .low) ∧
      if pc = 0 then s.forced p .low ∧ ∀ e, en = some e → s.forced e .high
      else s.carries p pc ∧ ∀ e, en = some e → s.forced e .low

/-- The unit index of a command is out of range (30_encoding.md R95). -/
def outOfRange (c : Config) : Instr → Bool
  | .encSetA e _ => decide (c.nEnc ≤ e)
  | .encSetB e _ => decide (c.nEnc ≤ e)
  | .encTick e => decide (c.nEnc ≤ e)
  | .encEdgeA e _ => decide (c.nEnc ≤ e)
  | .encEdgeB e _ => decide (c.nEnc ≤ e)
  | .encZero e _ => decide (c.nEnc ≤ e)
  | .encPos e => decide (c.nEnc ≤ e)
  | .pwmSetFreq p _ => decide (c.nPins ≤ p)
  | .pwmSetDuty g ch _ => decide (c.groups.length ≤ g) || c.groups[g]?.any (fun x => decide (x.channels.count ≤ ch))
  | .pwmAWrite p _ => decide (c.nPins ≤ p)
  | .motStop m => decide (c.motors.length ≤ m)
  | .motGo m _ _ => decide (c.motors.length ≤ m)
  | .motSetPower m _ => decide (c.motors.length ≤ m)
  | .motGoFor m _ _ => decide (c.motors.length ≤ m)
  | .motGoTo m _ _ => decide (c.motors.length ≤ m)
  | .motCheck m _ => decide (c.motors.length ≤ m)
  | .motMoving m => decide (c.motors.length ≤ m)
  | .motEncPos m => decide (c.motors.length ≤ m)

/-- The 4 forward transitions, previous code and next code (40_encoder.md R100). -/
def isForward (t : BitVec 2 × BitVec 2) : Bool :=
  decide (t ∈ [((0 : BitVec 2), (1 : BitVec 2)), (1, 3), (3, 2), (2, 0)])

/-- The 4 backward transitions (40_encoder.md R100). -/
def isBackward (t : BitVec 2 × BitVec 2) : Bool :=
  decide (t ∈ [((0 : BitVec 2), (2 : BitVec 2)), (2, 3), (3, 1), (1, 0)])

/-- An encoder with a new level on one line. -/
def setLine (line : Line) (l : Level) (x : Encoder) : Encoder :=
  match line with
  | .a => { x with a := l }
  | .b => { x with b := l }

/-- The transitions a sequence of delivered edges evaluates, in order. -/
def transitions : Encoder → List (Line × Level) → List (BitVec 2 × BitVec 2)
  | _, [] => []
  | x, ev :: rest =>
    let y := setLine ev.1 ev.2 x
    (x.prev, y.phase) :: transitions { y with prev := y.phase } rest

/-! ### The register surface -/

/-- What tells two fields apart: the kind, the group, the channel. -/
def fieldKey : TimerField → Nat × Nat × Nat
  | .freq g => (0, g, 0)
  | .top g => (1, g, 0)
  | .cs g _ => (2, g, 0)
  | .wgm g _ => (3, g, 0)
  | .duty g c => (4, g, c)
  | .cmp g c => (5, g, c)
  | .oen g c => (6, g, c)

/-- The group of a field, and its channel, exist. -/
def fieldExists (c : Config) : TimerField → Bool
  | .freq g => decide (g < c.groups.length)
  | .top g => decide (g < c.groups.length)
  | .cs g _ => decide (g < c.groups.length)
  | .wgm g _ => decide (g < c.groups.length)
  | .duty g ch => channelExists c g ch
  | .cmp g ch => channelExists c g ch
  | .oen g ch => channelExists c g ch

/-- The codes of a field of `bits` bits: no code listed twice, each in the field's bits, and the values they give are `values`, each of
which has one. -/
def codesWf {α : Type} [DecidableEq α] (bits : Nat) (values : List α) (codes : Codes α) : Bool :=
  decide (codes.listed.map Prod.fst).Nodup && codes.listed.all (fun x => decide (x.1 < 2 ^ bits) && decide (x.2 ∈ values)) &&
    values.all (fun a => decide (a ∈ codes.listed.map Prod.snd)) && decide (codes.other ∈ values)

/-- The values of a group's clock select (10_state.md R28). -/
def clockValues (c : Config) (g : Nat) : List ClockSelect :=
  .off :: (((c.groups[g]?).map GroupConfig.prescalers).getD []).map .prescaler

/-- A field of TIMER_REG_MAP: it exists, and has codes where it needs them. -/
def fieldWf (c : Config) (f : TimerField) : Bool :=
  fieldExists c f &&
    match f with
    | .cs g codes => codesWf (fieldBits c f) (clockValues c g) codes
    | .wgm _ codes => codesWf (fieldBits c f) [.reset, .pwm] codes
    | .freq _ => true
    | .top _ => true
    | .duty _ _ => true
    | .cmp _ _ => true
    | .oen _ _ => true

/-- TIMER_REG_MAP places fields of the block, each once, no two over one bit (20_memory.md R62, R63; log 17). -/
def regMapWf (c : Config) : Bool :=
  c.timerRegMap.all (fun p => fieldWf c p.field) &&
    decide (c.timerRegMap.Pairwise (fun p q => fieldKey p.field ≠ fieldKey q.field ∧
      (p.addr = q.addr → p.lo + fieldBits c p.field ≤ q.lo ∨ q.lo + fieldBits c q.field ≤ p.lo)))

/-- The groups and channels of a state are those its parameters give it, and each clock select is one of its group. Register writes
keep this, which is less than `State.Inv`. -/
def State.shaped (s : State) : Prop :=
  s.grp.length = s.cfg.groups.length ∧
  ∀ (g : Nat) (gc : GroupConfig) (x : Group), s.cfg.groups[g]? = some gc → s.grp[g]? = some x →
    x.chans.length = gc.channels.count ∧ x.cs ∈ clockValues s.cfg g

/-- A field of a state has the value that the register bits `x` assign to it (20_memory.md R63); an output enable with the drive of its
pin (10_state.md R36). -/
def fieldHolds (f : TimerField) (x : Nat) (s : State) : Prop :=
  match f with
  | .freq g => (s.group? g).map Group.freq = some (BitVec.ofNat 32 x)
  | .top g => (s.group? g).map Group.top = some x
  | .cs g codes => (s.group? g).map Group.cs = some (Codes.decode codes x)
  | .wgm g codes => (s.group? g).map Group.wgm = some (Codes.decode codes x)
  | .duty g c => (s.channel? g c).map Channel.duty = some (BitVec.ofNat 8 x)
  | .cmp g c => (s.channel? g c).map Channel.cmp = some x
  | .oen g c => (s.channel? g c).map Channel.oen = some (decide (x = 1)) ∧
      ∀ p y, s.cfg.timerOf p = some (g, c) → s.pin? p = some y → y.drive = if x = 1 then .timer else .latch

/-- A field is the same in two states, an output enable with its pin. -/
def fieldKept (f : TimerField) (s t : State) : Prop :=
  match f with
  | .freq g => (t.group? g).map Group.freq = (s.group? g).map Group.freq
  | .top g => (t.group? g).map Group.top = (s.group? g).map Group.top
  | .cs g _ => (t.group? g).map Group.cs = (s.group? g).map Group.cs
  | .wgm g _ => (t.group? g).map Group.wgm = (s.group? g).map Group.wgm
  | .duty g c => (t.channel? g c).map Channel.duty = (s.channel? g c).map Channel.duty
  | .cmp g c => (t.channel? g c).map Channel.cmp = (s.channel? g c).map Channel.cmp
  | .oen g c => (t.channel? g c).map Channel.oen = (s.channel? g c).map Channel.oen ∧
      ∀ p, s.cfg.timerOf p = some (g, c) → t.pin? p = s.pin? p

/-- The frame of a register write: nothing changes but timer groups, and the drive of pins that have a timer. -/
structure RegistersOnly (s t : State) : Prop where
  inputs : SameInputs s t
  enc : t.enc = s.enc
  mot : t.mot = s.mot
  resp : t.resp = s.resp
  clock : t.clock = s.clock
  latches : ∀ p, (t.pin? p).map (fun x => (x.latch, x.mode)) = (s.pin? p).map (fun x => (x.latch, x.mode))
  others : ∀ p, s.cfg.timerOf p = none → t.pin? p = s.pin? p

/-- Two readings of the bits of a field say the same: equal bits, or codes of one value. -/
def sameReading (f : TimerField) (x y : Nat) : Prop :=
  match f with
  | .cs _ codes => Codes.decode codes x = Codes.decode codes y
  | .wgm _ codes => Codes.decode codes x = Codes.decode codes y
  | .freq _ => x = y
  | .top _ => x = y
  | .duty _ _ => x = y
  | .cmp _ _ => x = y
  | .oen _ _ => x = y

/-- Byte `k` of a number, byte 0 the least significant. -/
def byteAt (k n : Nat) : Nat := n / 256 ^ k % 256

/-- The goal of motor `x` is reached at position `p` (42_motor.md R193). -/
def atGoal (x : Motor) (p : Int) : Prop := (x.dir = .forward ∧ x.goal ≤ p) ∨ (x.dir = .backward ∧ p ≤ x.goal)

/-- Commands one after another; it stops at the first that has no next state. -/
def execAll : List Instr → State → Host.Outcome State Fault Refusal
  | [], s => .next s
  | i :: is, s =>
    match exec i s with
    | .next t => execAll is t
    | .fault r => .fault r
    | .refused r => .refused r

end Machine

end Sys2Proof
end

