-- ==== Sys2Proof/Certificates/Slice0/Obligations.lean ====
section
/-! DEFINITION. The statements about the block, from the numbered rules of spec/. Parameters are those of any state's `cfg`. -/

open Sys2Proof Sys2Proof.Machine

/-! ### Frames -/

/-- A well-formed command's words decode to it, whatever words follow (30_encoding.md R81 to R85, R88). -/
def Obligations.EncodedCommandDecodesToItself : Prop :=
  ∀ (i : Instr) (rest : List Word), i.wf = true → decodeFrame (encode i ++ rest) = .ok (i, rest)

/-- Words that decode are a well-formed command's own words, so no two frames are one command (30_encoding.md R83, R88, R89). -/
def Obligations.DecodedFrameIsTheCommandsEncoding : Prop :=
  ∀ (ws rest : List Word) (i : Instr), decodeFrame ws = .ok (i, rest) → i.wf = true ∧ ws = encode i ++ rest

/-- Serialized frames are little-endian, word by word, and are read back whole (30_encoding.md R98). -/
def Obligations.SerializedFramesAreLittleEndian : Prop :=
  (∀ (w : Word) (ws : List Word), bytesOfWords (w :: ws) =
    [BitVec.ofNat 8 w.toNat, BitVec.ofNat 8 (w.toNat / 256), BitVec.ofNat 8 (w.toNat / 65536),
      BitVec.ofNat 8 (w.toNat / 16777216)] ++ bytesOfWords ws) ∧
  (∀ ws : List Word, wordsOfBytes (bytesOfWords ws) = ws) ∧
  (∀ (i : Instr) (rest : List Word), i.wf = true → decodeBytes (bytesOfWords (encode i ++ rest)) = .ok (i, rest))

/-- The worked encodings (30_encoding.md R91), encoded and decoded. -/
def Obligations.WorkedEncodings : Prop :=
  ∀ x ∈ [(Instr.encEdgeA 0 .high, [(0x04000001 : Word)]), (.encEdgeB 2 .low, [0x05020000]),
      (.encZero 0 (-5), [0x06000000, 0xFFFFFFFB]), (.pwmSetFreq 9 1000, [0x10090000, 0x000003E8]),
      (.pwmSetDuty 1 2 128, [0x11010280]), (.pwmAWrite 9 255, [0x120900FF]),
      (.motGo 0 true 200, [0x21000100, 0x000000C8]), (.motGoTo 0 100 500, [0x24000000, 0x00000064, 0x000001F4]),
      (.motCheck 0 333, [0x25000000, 0x0000014D])],
    encode x.1 = x.2 ∧ decodeFrame x.2 = .ok (x.1, [])

/-- The decoder refuses a header exactly when no row of the opcode map matches it under the mask of its format: a reserved opcode or a
nonzero reserved bit, and nothing else (30_encoding.md R83, R88, R90, R93). -/
def Obligations.HeaderIllegalExactlyWhenNoRowMatches : Prop :=
  ∀ (h : Word) (ws : List Word),
    (∃ e, decodeFrame (h :: ws) = .error e ∧ e ≠ .incomplete) ↔
      ∀ o : Opcode, h &&& o.format.fixedMask ≠ BitVec.ofNat 32 (o.code * 16777216)

/-- A frame no row of the opcode map matches is answered ILLEGAL with result 0, and no unit changes (30_encoding.md R92, R93). How many
words it takes is the model's reading (log 8). -/
def Obligations.IllegalFrameChangesNoUnit : Prop :=
  ∀ (s : State) (t : Turn) (ts : List Turn) (h : Word) (ws : List Word),
    s.boot = .running → s.turns = t :: ts → s.port t.agent = h :: ws →
    (∀ o : Opcode, h &&& o.format.fixedMask ≠ BitVec.ofNat 32 (o.code * 16777216)) →
    ∃ u, step s = .next u ∧ u.resp = ⟨.illegal, 0⟩ ∧ u.cfg = s.cfg ∧ u.enc = s.enc ∧ u.grp = s.grp ∧ u.pin = s.pin ∧
      u.mot = s.mot ∧ u.clock = s.clock ∧ u.boot = .running ∧ u.turns = ts ∧
      u.port t.agent = ws.drop (operandCount h) ∧ ∀ a, a ≠ t.agent → u.port a = s.port a

/-- A step of a booted block runs the command its turn's agent has issued next, in a state in which that frame and that turn are taken
and nothing of the block has changed (30_encoding.md R80, 20_memory.md R71). -/
def Obligations.StepRunsTheDecodedCommand : Prop :=
  ∀ (s : State) (t : Turn) (ts : List Turn) (i : Instr) (rest : List Word),
    s.boot = .running → s.turns = t :: ts → decodeFrame (s.port t.agent) = .ok (i, rest) → i.agent = t.agent →
    ∃ u, step s = exec i u ∧ u.cfg = s.cfg ∧ u.enc = s.enc ∧ u.grp = s.grp ∧ u.pin = s.pin ∧ u.mot = s.mot ∧
      u.resp = s.resp ∧ u.clock = s.clock ∧ u.boot = .running ∧ u.turns = ts ∧ u.draw = t.draw ∧
      u.port t.agent = rest ∧ (∀ a, a ≠ t.agent → u.port a = s.port a) ∧
      (t.agent = .edge ∨ t.torn = none → u.race = none)

/-- The edge agent's commands are the five of R245; a booted block refuses a command of the other agent when its turn comes, though
it decodes (30_encoding.md R99). -/
def Obligations.WrongAgentCommandIsRefused : Prop :=
  (∀ i : Instr, i.agent = .edge ↔ (∃ e l, i = .encSetA e l) ∨ (∃ e l, i = .encSetB e l) ∨ (∃ e, i = .encTick e) ∨
    (∃ e l, i = .encEdgeA e l) ∨ (∃ e l, i = .encEdgeB e l)) ∧
  ∀ (s : State) (t : Turn) (ts : List Turn) (i : Instr) (rest : List Word),
    s.boot = .running → s.turns = t :: ts → decodeFrame (s.port t.agent) = .ok (i, rest) → i.agent ≠ t.agent →
    step s = .refused .wrongAgent

/-- With no turn to run a booted block waits (70_reset_and_hazards.md R272; the waiting step is the model's reading, log 6). -/
def Obligations.IdleBlockWaits : Prop :=
  ∀ s : State, s.boot = .running → s.turns = [] → step s = .next s

/-- Every command completes with status OK, in every state and with every operand, and writes nothing of the parameters, of boot or of
the environment's inputs (42_motor.md R196, 60_exceptions.md R240, 30_encoding.md R94). -/
def Obligations.EveryCommandAnswersOk : Prop :=
  ∀ (i : Instr) (s : State), ∃ t, exec i s = .next t ∧ t.resp.status = .ok ∧ SameInputs s t

/-- A command whose unit index is out of range answers OK, 0 and changes nothing (30_encoding.md R95). -/
def Obligations.OutOfRangeIndexIsIgnored : Prop :=
  ∀ (i : Instr) (s : State), outOfRange s.cfg i = true → exec i s = .next (s.respond 0)

/-! ### Reset and boot -/

/-- Every field at its reset value, for any parameters and any latches (70_reset_and_hazards.md R270); the mode of a pin is the INPUT
that 10_state.md R35 gives the pins no motor uses. -/
def Obligations.ResetValues : Prop :=
  ∀ (c : Config) (latches : List Level),
    (State.resetWith c latches).cfg = c ∧
    (State.resetWith c latches).enc.length = c.nEnc ∧
    (∀ e < c.nEnc, (State.resetWith c latches).encoder e = ⟨.low, .low, 0, 0⟩) ∧
    (State.resetWith c latches).grp.length = c.groups.length ∧
    (∀ (g : Nat) (gc : GroupConfig), c.groups[g]? = some gc → ∃ x, (State.resetWith c latches).group? g = some x ∧
      x.freq = 0 ∧ x.top = gc.initTop ∧ x.cs = .off ∧ x.wgm = .reset ∧ x.chans.length = gc.channels.count ∧
      ∀ ch ∈ x.chans, ch.duty = 0 ∧ ch.cmp = 0 ∧ ch.oen = false) ∧
    (State.resetWith c latches).pin.length = c.nPins ∧
    (∀ p < c.nPins, ∃ x, (State.resetWith c latches).pin? p = some x ∧ x.drive = .latch ∧
      ((∀ mc ∈ c.motors, p ∉ mc.wiring.pins) → x.mode = .input)) ∧
    (State.resetWith c latches).mot.length = c.motors.length ∧
    (∀ m < c.motors.length, (State.resetWith c latches).motor m = ⟨.stopped, 0, false, 0, 0, 0, 0⟩)

/-- The three boot steps from reset: every motor pin an OUTPUT, every motor stopped with its pins de-energized (a pin several motors
name as the last of them leaves it), the handlers registered; encoders, groups and motors as at reset, and the pins no motor uses
untouched (70_reset_and_hazards.md R271; that the last motor decides a shared pin is the model's order, log 21). -/
def Obligations.BootSequence : Prop :=
  ∀ (c : Config) (latches : List Level), c.wf = true →
    ∃ s1 s2 s3, step (State.resetWith c latches) = .next s1 ∧ step s1 = .next s2 ∧ step s2 = .next s3 ∧
      s3.boot = .running ∧ s3.cfg = c ∧ s3.enc = (State.resetWith c latches).enc ∧
      s3.grp = (State.resetWith c latches).grp ∧ s3.mot = (State.resetWith c latches).mot ∧
      (∀ mc ∈ c.motors, ∀ p ∈ mc.wiring.pins, ∃ x, s3.pin? p = some x ∧ x.mode = .output ∧ x.drive = .latch) ∧
      (∀ p, (∀ mc ∈ c.motors, p ∉ mc.wiring.pins) → s3.pin? p = (State.resetWith c latches).pin? p) ∧
      (∀ (m : Nat) (mc : MotorConfig), c.motors[m]? = some mc →
        (∀ (m' : Nat) (mc' : MotorConfig), m < m' → c.motors[m']? = some mc' →
          ∀ p ∈ mc'.wiring.pins, p ∉ mc.wiring.pins) →
        s3.deEnergized mc.wiring)

/-- Until the handlers are registered no frame of either port is taken, and of boot's own port only the commands of the
synchronisation sequence run: any other is refused (70_reset_and_hazards.md R271, R274; log 10). -/
def Obligations.NoPortIsServedBeforeHandlers : Prop :=
  (∀ s t : State, s.boot ≠ .running → step s = .next t →
    t.edgePort = s.edgePort ∧ t.controlPort = s.controlPort ∧ t.turns = s.turns) ∧
  (∀ (s : State) (i : Instr) (rest : List Word), s.boot = .handlers → decodeFrame s.bootPort = .ok (i, rest) →
    ((∃ e l, i = .encSetA e l) ∨ (∃ e l, i = .encSetB e l) ∨ (∃ e, i = .encTick e) ∨ (∃ e v, i = .encZero e v)) →
    step s = exec i { s with bootPort := rest, race := none, lastEdge := none }) ∧
  (∀ (s : State) (i : Instr) (rest : List Word), s.boot = .handlers → decodeFrame s.bootPort = .ok (i, rest) →
    ¬((∃ e l, i = .encSetA e l) ∨ (∃ e l, i = .encSetB e l) ∨ (∃ e, i = .encTick e) ∨ (∃ e v, i = .encZero e v)) →
    step s = .refused .notBootCommand) ∧
  (∀ s : State, s.boot = .handlers → s.bootPort = [] → step s = .next { s with boot := .running })

/-- The state after reset meets the invariant, for every well-formed block and for the reset instance. -/
def Obligations.ResetMeetsTheInvariant : Prop :=
  (∀ (c : Config) (latches : List Level), c.wf = true → (State.resetWith c latches).Inv) ∧ State.reset.Inv

/-- Every step keeps the invariant: unit counts, positions in their width (10_state.md R26), each period within its width and above
TOP_MIN once configured (R29), each compare value its stored duty scaled (41_pwm.md R145), TIMER drive exactly with the output enable
(R36), regulation only with a direction (R39). -/
def Obligations.EveryStepKeepsTheInvariant : Prop :=
  ∀ s t : State, s.Inv → step s = .next t → t.Inv

/-! ### Encoder -/

/-- The phase decoder over (A, B) pairs: +1 on the four forward transitions, -1 on their reverses, 0 elsewhere (40_encoder.md R100). -/
def Obligations.PhaseDecoderTable : Prop :=
  ∀ a b a' b' : Level, delta (phaseCode a b) (phaseCode a' b') =
    if ((a, b), (a', b')) ∈ [((Level.low, Level.low), (Level.low, Level.high)), ((.low, .high), (.high, .high)),
      ((.high, .high), (.high, .low)), ((.high, .low), (.low, .low))] then 1
    else if ((a', b'), (a, b)) ∈ [((Level.low, Level.low), (Level.low, Level.high)), ((.low, .high), (.high, .high)),
      ((.high, .high), (.high, .low)), ((.high, .low), (.low, .low))] then -1
    else 0

/-- ENC.SETA and ENC.SETB store a level and change nothing else (40_encoder.md R105, R106). -/
def Obligations.SetLevelOnlyStoresTheLevel : Prop :=
  ∀ (s : State) (e : Nat) (l : Level), e < s.cfg.nEnc → s.enc.length = s.cfg.nEnc →
    (∃ t, exec (.encSetA e l) s = .next t ∧ t.resp = ⟨.ok, 0⟩ ∧ EncoderOnly e s t ∧
      t.encoder e = { s.encoder e with a := l }) ∧
    (∃ t, exec (.encSetB e l) s = .next t ∧ t.resp = ⟨.ok, 0⟩ ∧ EncoderOnly e s t ∧
      t.encoder e = { s.encoder e with b := l })

/-- ENC.TICK, ENC.EDGEA and ENC.EDGEB: the level is stored, the count changes by DELTA and wraps, the previous phase is replaced, and
nothing else changes (40_encoder.md R103, R107, R108, R109). -/
def Obligations.EdgeCommandsStoreAndEvaluate : Prop :=
  ∀ (s : State) (e : Nat) (l : Level), e < s.cfg.nEnc → s.enc.length = s.cfg.nEnc →
    (∃ t, exec (.encTick e) s = .next t ∧ t.resp = ⟨.ok, 0⟩ ∧ EncoderOnly e s t ∧
      t.encoder e = ⟨(s.encoder e).a, (s.encoder e).b, phaseCode (s.encoder e).a (s.encoder e).b,
        wrapTo s.cfg.posWidth ((s.encoder e).pos + delta (s.encoder e).prev (phaseCode (s.encoder e).a (s.encoder e).b))⟩) ∧
    (∃ t, exec (.encEdgeA e l) s = .next t ∧ t.resp = ⟨.ok, 0⟩ ∧ EncoderOnly e s t ∧
      t.encoder e = ⟨l, (s.encoder e).b, phaseCode l (s.encoder e).b,
        wrapTo s.cfg.posWidth ((s.encoder e).pos + delta (s.encoder e).prev (phaseCode l (s.encoder e).b))⟩) ∧
    (∃ t, exec (.encEdgeB e l) s = .next t ∧ t.resp = ⟨.ok, 0⟩ ∧ EncoderOnly e s t ∧
      t.encoder e = ⟨(s.encoder e).a, l, phaseCode (s.encoder e).a l,
        wrapTo s.cfg.posWidth ((s.encoder e).pos + delta (s.encoder e).prev (phaseCode (s.encoder e).a l))⟩)

/-- ENC.ZERO writes the wrapped offset into the position and nothing else, and a following ENC.POS returns it (40_encoder.md R110). -/
def Obligations.ZeroSetsThePosition : Prop :=
  ∀ (s : State) (e : Nat) (offset : Int), e < s.cfg.nEnc → s.enc.length = s.cfg.nEnc →
    ∃ t, exec (.encZero e offset) s = .next t ∧ t.resp = ⟨.ok, 0⟩ ∧ EncoderOnly e s t ∧
      t.encoder e = { s.encoder e with pos := wrapTo s.cfg.posWidth offset } ∧
      (s.race = none → exec (.encPos e) t = .next (t.respond (BitVec.ofInt 32 (wrapTo s.cfg.posWidth offset))))

/-- ENC.POS and MOT.ENCPOS answer the low 32 bits of the position they read, which is the position with no overlapping edge and with an
edge of another encoder, and else a racing value (40_encoder.md R111, 42_motor.md R195, 20_memory.md R67). -/
def Obligations.PositionReadsAnswerThePosition : Prop :=
  (∀ (s : State) (e : Nat), e < s.cfg.nEnc → exec (.encPos e) s = .next (s.respond (BitVec.ofInt 32 (s.readPos e)))) ∧
  (∀ (s : State) (m : Nat) (mc : MotorConfig), s.cfg.motors[m]? = some mc →
    exec (.motEncPos m) s = .next (s.respond (BitVec.ofInt 32 (s.readPos mc.encOf)))) ∧
  (∀ (s : State) (e : Nat), s.race = none → s.readPos e = (s.encoder e).pos) ∧
  (∀ (s : State) (e : Nat) (r : Race), s.race = some r → r.enc ≠ e → s.readPos e = (s.encoder e).pos) ∧
  (∀ (s : State) (r : Race), s.race = some r →
    s.readPos r.enc = tornValue s.cfg.tornRead s.cfg.posWidth r.mask r.before (s.encoder r.enc).pos)

/-- ENC.POS, MOT.ENCPOS and MOT.MOVING change no state but the answer, and a second ENC.TICK changes nothing (20_memory.md R68). -/
def Obligations.ReadsHaveNoSideEffect : Prop :=
  (∀ (s t : State) (u : Nat), exec (.encPos u) s = .next t ∨ exec (.motEncPos u) s = .next t ∨
    exec (.motMoving u) s = .next t → t = s.respond t.resp.result) ∧
  (∀ (s t : State) (e : Nat), s.enc.length = s.cfg.nEnc → exec (.encTick e) s = .next t →
    exec (.encTick e) t = .next t)

/-- The count law: after any sequence of delivered edges the position is the earlier one plus the forward and minus the backward
transitions, wrapped; no-edge and impossible evaluations count 0 (40_encoder.md R112, R113). -/
def Obligations.CountLaw : Prop :=
  ∀ (s : State) (e : Nat) (edges : List (Line × Level)),
    e < s.cfg.nEnc → s.enc.length = s.cfg.nEnc → 2 ≤ s.cfg.posWidth → fitsWidth s.cfg.posWidth (s.encoder e).pos →
    ∃ t, execAll (edges.map (fun ev => edgeCommand ev.1 e ev.2)) s = .next t ∧
      (t.encoder e).pos = wrapTo s.cfg.posWidth ((s.encoder e).pos +
        ((transitions (s.encoder e) edges).countP isForward : Nat) -
        ((transitions (s.encoder e) edges).countP isBackward : Nat))

/-- An evaluation in which both lines differ from the previous phase leaves the position alone (40_encoder.md R113). -/
def Obligations.ImpossibleTransitionIsDropped : Prop :=
  ∀ (s t : State) (e : Nat) (l : Level) (a b : Level), e < s.cfg.nEnc → s.enc.length = s.cfg.nEnc →
    2 ≤ s.cfg.posWidth → fitsWidth s.cfg.posWidth (s.encoder e).pos → (s.encoder e).prev = phaseCode a b →
    ((exec (.encTick e) s = .next t ∧ (s.encoder e).a ≠ a ∧ (s.encoder e).b ≠ b) ∨
     (exec (.encEdgeA e l) s = .next t ∧ l ≠ a ∧ (s.encoder e).b ≠ b) ∨
     (exec (.encEdgeB e l) s = .next t ∧ (s.encoder e).a ≠ a ∧ l ≠ b)) →
    (t.encoder e).pos = (s.encoder e).pos

/-- An edge-agent command changes a position by -1, 0 or +1 (40_encoder.md R116). -/
def Obligations.EdgeCommandMovesByAtMostOne : Prop :=
  ∀ (i : Instr) (s t : State) (e : Nat), i.agent = .edge → s.enc.length = s.cfg.nEnc → 2 ≤ s.cfg.posWidth →
    fitsWidth s.cfg.posWidth (s.encoder e).pos → exec i s = .next t →
    ∃ d : Int, -1 ≤ d ∧ d ≤ 1 ∧ (t.encoder e).pos = wrapTo s.cfg.posWidth ((s.encoder e).pos + d)

/-- From phase 00, line A first counts -2 and line B first counts +2, though both end in phase 11 (40_encoder.md R117). -/
def Obligations.EdgeOrderDecidesTheCount : Prop :=
  ∀ (s : State) (e : Nat) (p : Int), e < s.cfg.nEnc → s.enc.length = s.cfg.nEnc → s.encoder e = ⟨.low, .low, 0, p⟩ →
    (∃ t, execAll [.encEdgeA e .high, .encEdgeB e .high] s = .next t ∧
      t.encoder e = ⟨.high, .high, 3, wrapTo s.cfg.posWidth (p - 2)⟩) ∧
    (∃ t, execAll [.encEdgeB e .high, .encEdgeA e .high] s = .next t ∧
      t.encoder e = ⟨.high, .high, 3, wrapTo s.cfg.posWidth (p + 2)⟩)

/-- The PWM and motor commands, and the position read, never write encoder state (10_state.md R27). -/
def Obligations.OnlyEncoderCommandsWriteEncoders : Prop :=
  ∀ (i : Instr) (s t : State), exec i s = .next t → Machine.Instr.encoderIndex i = none ∨ (∃ e, i = .encPos e) → t.enc = s.enc

/-- The edge agent writes only encoder fields; the control agent writes an encoder only through ENC.ZERO, and only its position
(20_memory.md R72). -/
def Obligations.AgentsTouchDisjointState : Prop :=
  (∀ (i : Instr) (s t : State), i.agent = .edge → exec i s = .next t →
    t.grp = s.grp ∧ t.pin = s.pin ∧ t.mot = s.mot ∧ t.clock = s.clock) ∧
  (∀ (i : Instr) (s t : State), i.agent = .control → exec i s = .next t →
    t.enc = s.enc ∨ ∃ e v, i = .encZero e v ∧ ∀ e', (t.encoder e').a = (s.encoder e').a ∧
      (t.encoder e').b = (s.encoder e').b ∧ (t.encoder e').prev = (s.encoder e').prev)

/-- What a racing read may return: under ATOMIC_RACE the position before or after the edge, each of them; under BYTEWISE exactly the
values each of whose bytes is that byte of one of the two (20_memory.md R67). -/
def Obligations.RacingReadValues : Prop :=
  (∀ (width : Nat) (v0 v1 v : Int), (∃ mask, tornValue .atomicRace width mask v0 v1 = v) ↔ v = v0 ∨ v = v1) ∧
  (∀ (width : Nat) (v0 v1 v : Int), 2 ≤ width → fitsWidth width v →
    ((∃ mask, tornValue .bytewise width mask v0 v1 = v) ↔
      ∀ k < (width + 7) / 8, byteAt k (uwrapTo width v) = byteAt k (uwrapTo width v0) ∨
        byteAt k (uwrapTo width v) = byteAt k (uwrapTo width v1)))

/-- An edge command, then an ENC.POS whose read the schedule overlaps with it: the answer is a value R67 admits for the position
before and after the edge; with no overlap it is the position after (20_memory.md R67, 60_exceptions.md R247; log 12). -/
def Obligations.OverlappedReadSeesAnAdmittedValue : Prop :=
  ∀ (s : State) (t1 t2 : Turn) (ts : List Turn) (i : Instr) (e : Nat) (r1 r2 : List Word),
    s.boot = .running → s.turns = t1 :: t2 :: ts → t1.agent = .edge → t2.agent = .control →
    decodeFrame s.edgePort = .ok (i, r1) → i.agent = .edge → Machine.Instr.encoderIndex i = some e → e < s.cfg.nEnc →
    decodeFrame s.controlPort = .ok (.encPos e, r2) →
    ∃ u v, step s = .next u ∧ step u = .next v ∧ v.resp = ⟨.ok, BitVec.ofInt 32
      (match t2.torn with
       | none => (u.encoder e).pos
       | some mask => tornValue s.cfg.tornRead s.cfg.posWidth mask (s.encoder e).pos (u.encoder e).pos)⟩

/-! ### PWM Driver -/

/-- SelectConfig returns the first prescaler whose period fits, with that period, and fails otherwise and at frequency 0
(41_pwm.md R141). -/
def Obligations.SelectConfigTakesTheFirstFit : Prop :=
  ∀ (clk f ps t : Nat) (gc : GroupConfig),
    selectConfig clk gc f = some (ps, t) ↔
      f ≠ 0 ∧ ∃ l1 l2, gc.prescalers = l1 ++ ps :: l2 ∧ t = clk / (2 * ps * f) ∧ 3 < t ∧ t ≤ gc.width.topMax ∧
        ∀ q ∈ l1, ¬(3 < clk / (2 * q * f) ∧ clk / (2 * q * f) ≤ gc.width.topMax)

/-- PWM.SETFREQ on a timer pin answers 1 exactly when some supported prescaler gives a period in range, else 0 (41_pwm.md R155); on a
pin with no timer it answers 0 and changes nothing, whatever the frequency (R142). -/
def Obligations.SetFreqSucceedsExactlyWhenAPairExists : Prop :=
  (∀ (s : State) (p f g c : Nat) (gc : GroupConfig), s.cfg.timerOf p = some (g, c) → s.cfg.groups[g]? = some gc →
    ∃ t, exec (.pwmSetFreq p f) s = .next t ∧
      ((∃ ps ∈ gc.prescalers, 3 < s.cfg.baseClock / (2 * ps * f) ∧ s.cfg.baseClock / (2 * ps * f) ≤ gc.width.topMax) →
        t.resp = ⟨.ok, 1⟩) ∧
      ((¬∃ ps ∈ gc.prescalers, 3 < s.cfg.baseClock / (2 * ps * f) ∧ s.cfg.baseClock / (2 * ps * f) ≤ gc.width.topMax) →
        t.resp = ⟨.ok, 0⟩)) ∧
  (∀ (s : State) (p f : Nat), s.cfg.timerOf p = none → exec (.pwmSetFreq p f) s = .next (s.respond 0))

/-- A successful PWM.SETFREQ writes the frequency, the period, the prescaler and the mode of the pin's group and rescales every
channel's compare register from its stored duty; duties, output enables, other groups, pins, encoders and motors stay (41_pwm.md R142,
R151). -/
def Obligations.SetFreqReprogramsTheGroup : Prop :=
  ∀ (s : State) (p f g c ps t : Nat) (gc : GroupConfig) (x : Group),
    s.cfg.timerOf p = some (g, c) → s.cfg.groups[g]? = some gc → s.group? g = some x →
    selectConfig s.cfg.baseClock gc f = some (ps, t) →
    ∃ u, exec (.pwmSetFreq p f) s = .next u ∧ u.resp = ⟨.ok, 1⟩ ∧
      u.group? g = some ⟨BitVec.ofNat 32 f, t, .prescaler ps, .pwm,
        x.chans.map (fun ch => ⟨ch.duty, t * ch.duty.toNat / 256, ch.oen⟩)⟩ ∧
      (∀ g', g' ≠ g → u.group? g' = s.group? g') ∧ u.grp.length = s.grp.length ∧
      SameInputs s u ∧ u.enc = s.enc ∧ u.pin = s.pin ∧ u.mot = s.mot ∧ u.clock = s.clock

/-- PWM.SETFREQ with frequency 0 answers 0 and writes nothing, on any pin (41_pwm.md R144). -/
def Obligations.FrequencyZeroFails : Prop :=
  ∀ (s : State) (p : Nat), exec (.pwmSetFreq p 0) s = .next (s.respond 0)

/-- A PWM.SETFREQ that does not answer 1 answers 0 and writes no field of any group, nor anything else (10_state.md R30). -/
def Obligations.FailedSetFreqChangesNothing : Prop :=
  ∀ (s t : State) (p f : Nat), exec (.pwmSetFreq p f) s = .next t → t.resp ≠ ⟨.ok, 1⟩ → t = s.respond 0

/-- The chosen pair reproduces the frequency within one count of period, never below it: `clk / (2 ps (t + 1)) < f <= clk / (2 ps t)`
(41_pwm.md R154). -/
def Obligations.AchievedFrequencyIsWithinOneCount : Prop :=
  ∀ (clk f ps t : Nat) (gc : GroupConfig), selectConfig clk gc f = some (ps, t) →
    clk < f * (2 * ps * (t + 1)) ∧ f * (2 * ps * t) ≤ clk

/-- Duty scaling, its floor, and that duty 255 never reaches the period (41_pwm.md R145). -/
def Obligations.ScaledDuty : Prop :=
  ∀ t d : Nat, scale t d = t * d / 256 ∧ scale t 0 = 0 ∧ scale t 255 = t - (t + 255) / 256 ∧ (0 < t → scale t 255 < t)

/-- PWM.SETDUTY on an existing channel stores the duty, writes the scaled compare value, enables the output and hands the mapped pin to
the timer; the group's settings, other channels and other pins stay (41_pwm.md R146). -/
def Obligations.SetDutyProgramsTheChannel : Prop :=
  ∀ (s : State) (g c d : Nat) (ch : Channel), s.Inv → channelExists s.cfg g c = true → s.channel? g c = some ch →
    ∃ t, exec (.pwmSetDuty g c d) s = .next t ∧ t.resp = ⟨.ok, 0⟩ ∧
      t.channel? g c = some ⟨BitVec.ofNat 8 d, s.top g * d / 256, true⟩ ∧
      (∀ g' c', (g', c') ≠ (g, c) → t.channel? g' c' = s.channel? g' c') ∧
      (∀ g', (t.group? g').map groupSettings = (s.group? g').map groupSettings) ∧
      (∀ p, s.cfg.timerOf p = some (g, c) → t.pin? p = (s.pin? p).map (fun x => { x with drive := .timer })) ∧
      (∀ p, s.cfg.timerOf p ≠ some (g, c) → t.pin? p = s.pin? p) ∧
      SameInputs s t ∧ t.enc = s.enc ∧ t.mot = s.mot ∧ t.clock = s.clock

/-- PWM.AWRITE leaves its pin carrying the value: forced low at 0 and high at 255 with duty and compare register kept, through the
timer channel or the generic write between; nothing else changes (41_pwm.md R148, R150, R152). -/
def Obligations.AnalogWriteDrivesThePin : Prop :=
  ∀ (s : State) (p v : Nat), s.Inv → p < s.cfg.nPins → v < 256 →
    ∃ t, exec (.pwmAWrite p v) s = .next t ∧ t.resp = ⟨.ok, 0⟩ ∧ t.carries p v ∧ OutputsOnly [p] s t ∧
      t.mot = s.mot ∧ t.clock = s.clock ∧
      (v = 0 ∨ v = 255 → ∀ g c, (t.channel? g c).map (fun ch => (ch.duty, ch.cmp)) =
        (s.channel? g c).map (fun ch => (ch.duty, ch.cmp)))

/-- After PWM.AWRITE an OUTPUT pin shows the level at 0 and 255; at 1..254 a pin with no timer shows the generic output, and a timer
pin, with the group's clock running, the channel's waveform where it is specified (10_state.md R37, 41_pwm.md R148, R153). That an
INPUT pin shows its generic or timer source too is the model's reading (log 16). -/
def Obligations.AnalogWriteShowsOnThePin : Prop :=
  ∀ (s : State) (p v : Nat) (x : Pin), s.Inv → v < 256 → s.pin? p = some x →
    ∃ t, exec (.pwmAWrite p v) s = .next t ∧
      (x.mode = .output → v = 0 → t.pinOutput p = .level .low) ∧
      (x.mode = .output → v = 255 → t.pinOutput p = .level .high) ∧
      (v ≠ 0 → v ≠ 255 → s.cfg.timerOf p = none → t.pinOutput p = .generic (BitVec.ofNat 8 v)) ∧
      (∀ (g c ps : Nat) (y : Group), v ≠ 0 → v ≠ 255 → s.cfg.timerOf p = some (g, c) → s.group? g = some y →
        y.cs = .prescaler ps → 0 < y.top * v / 256 →
        t.pinOutput p = .waveform s.cfg.baseClock (2 * ps * y.top) (y.top * v / 256) y.top)

/-- A register write assigns to each field of the register its bits, whether or not the group's clock runs, and keeps every other field
(20_memory.md R63). The model's own (log 15): the register codes, bytes as the unit of `n`, what happens to the bits of no field and to
the high bits of a frequency, the two stops, that R63 holds of a running group's period, compare values and prescaler too, and that an
output enable takes the drive of its pin with it. -/
def Obligations.RegisterWriteSetsItsFields : Prop :=
  (∀ (s : State) (addr n v : Nat), s.cfg.wf = true → regMapWf s.cfg = true → s.shaped → placed s.cfg addr ≠ [] →
    registerBits s.cfg (placed s.cfg addr) ≤ 8 * n →
    ∃ t, memWrite addr n v s = .next t ∧ RegistersOnly s t ∧ t.shaped ∧
      (∀ p ∈ placed s.cfg addr, fieldHolds p.field (getField p.lo (fieldBits s.cfg p.field) v) t) ∧
      (∀ f, (∀ p ∈ placed s.cfg addr, fieldKey p.field ≠ fieldKey f) → fieldKept f s t)) ∧
  (∀ (s : State) (addr n v : Nat), placed s.cfg addr = [] → memWrite addr n v s = .fault (.noRegister addr)) ∧
  (∀ (s : State) (addr n v : Nat), placed s.cfg addr ≠ [] → 8 * n < registerBits s.cfg (placed s.cfg addr) →
    memWrite addr n v s = .refused .partialRegisterAccess)

/-- A register reads as its fields in their bits, with the environment's bits elsewhere, and after a write each field reads back what
was written (20_memory.md R63). The model's own (log 15): the codes of clock select and waveform mode, the low `WIDTH[g]` bits of a
frequency, bytes as the unit of `n`, and the bits of no field. -/
def Obligations.RegisterReadsBackWhatIsWritten : Prop :=
  ∀ (s : State) (addr n spare : Nat), s.cfg.wf = true → regMapWf s.cfg = true → s.shaped → placed s.cfg addr ≠ [] →
    registerBits s.cfg (placed s.cfg addr) ≤ 8 * n →
    (∃ r, memRead addr n spare s = some r ∧ r < 2 ^ (8 * n) ∧
      (∀ p ∈ placed s.cfg addr, ∃ x, fieldValue p.field s = some x ∧
        getField p.lo (fieldBits s.cfg p.field) r = x % 2 ^ fieldBits s.cfg p.field) ∧
      (∀ k < 8 * n, (∀ p ∈ placed s.cfg addr, k < p.lo ∨ p.lo + fieldBits s.cfg p.field ≤ k) →
        r.testBit k = spare.testBit k)) ∧
    (∀ (v : Nat) (t : State), memWrite addr n v s = .next t → ∃ r, memRead addr n spare t = some r ∧
      ∀ p ∈ placed s.cfg addr, sameReading p.field (getField p.lo (fieldBits s.cfg p.field) r)
        (getField p.lo (fieldBits s.cfg p.field) v))

/-- The gated sequence on the register surface: clock select off, period, every compare value from its stored duty, clock select on a
prescaler. Each write completes, and the group is then as PWM.SETFREQ programs its clock, period and compare values (41_pwm.md R143).
The register codes, bytes as the unit of `n`, and that an access wider than its register completes are the model's (log 15). -/
def Obligations.RegisterSequenceReprogramsTheGroup : Prop :=
  ∀ (s : State) (g ps t off on n csAddr topAddr : Nat) (cmpAddr : Nat → Nat) (gc : GroupConfig) (x : Group)
    (codes : Codes ClockSelect),
    s.cfg.groups[g]? = some gc → s.group? g = some x → gc.width.bits ≤ 8 * n → t ≤ gc.width.topMax →
    placed s.cfg csAddr = [⟨csAddr, 0, .cs g codes⟩] → placed s.cfg topAddr = [⟨topAddr, 0, .top g⟩] →
    (∀ c < x.chans.length, placed s.cfg (cmpAddr c) = [⟨cmpAddr c, 0, .cmp g c⟩]) →
    off < 2 ^ gc.width.bits → on < 2 ^ gc.width.bits → Codes.decode codes off = .off → Codes.decode codes on = .prescaler ps →
    ∃ u, memWrites n ((csAddr, off) :: (topAddr, t) ::
        ((List.range x.chans.length).map
          (fun c => (cmpAddr c, scale t (((x.chans[c]?).map (fun ch => ch.duty.toNat)).getD 0))) ++ [(csAddr, on)])) s = .next u ∧
      u.group? g = some { x with cs := .prescaler ps, top := t,
                                 chans := x.chans.map (fun ch => { ch with cmp := t * ch.duty.toNat / 256 }) } ∧
      (∀ g', g' ≠ g → u.group? g' = s.group? g') ∧ u.pin = s.pin ∧ RegistersOnly s u

/-! ### Motor Controller -/

/-- MOT.STOP: Stopped, power 0, regulation cleared, outputs de-energized with every stored duty and compare value kept, the direction pin
of a DIRPWM wiring not written, and nothing of another motor changed (42_motor.md R184, R186, 41_pwm.md R150). -/
def Obligations.StopDeEnergizes : Prop :=
  ∀ (s : State) (m : Nat) (mc : MotorConfig), s.Inv → s.cfg.motors[m]? = some mc →
    ∃ t, exec (.motStop m) s = .next t ∧ t.resp = ⟨.ok, 0⟩ ∧ MotorOnly m mc.wiring s t ∧ t.clock = s.clock ∧
      t.motor m = { s.motor m with regulated := false, power := 0, dir := .stopped } ∧
      t.deEnergized mc.wiring ∧ DutiesKept [] s t ∧
      (∀ d p en, mc.wiring = .dirPwm d p en → t.pin? d = s.pin? d ∧ OutputsOnly (p :: en.toList) s t)

/-- A second MOT.STOP changes nothing (42_motor.md R186). -/
def Obligations.StopIsIdempotent : Prop :=
  ∀ (s t : State) (m : Nat), s.Inv → exec (.motStop m) s = .next t → exec (.motStop m) t = .next t

/-- MOT.GO: regulation cleared, the direction set, the power clamped; direction pins and enable asserted, then the PWM pin at the power
or the other direction pin at its complement, and at power 0 all de-energized; stored duties and compare values change on a pin
modulated at 1 to 254 only (42_motor.md R182, R183, R185, R187, 41_pwm.md R148, R150). -/
def Obligations.GoDrivesInItsDirection : Prop :=
  ∀ (s : State) (m : Nat) (mc : MotorConfig) (fwd : Bool) (pw : Int), s.Inv → s.cfg.motors[m]? = some mc →
    ∃ t, exec (.motGo m fwd pw) s = .next t ∧ t.resp = ⟨.ok, 0⟩ ∧ MotorOnly m mc.wiring s t ∧ t.clock = s.clock ∧
      t.motor m = { s.motor m with regulated := false, dir := if fwd then .forward else .backward,
                                   power := BitVec.ofInt 8 (min (max pw 0) 255) } ∧
      t.driven fwd (min (max pw 0) 255).toNat mc.wiring ∧
      DutiesKept (modulated mc.wiring fwd (min (max pw 0) 255).toNat) s t

/-- MOT.SETPOWER: the clamped power is stored, direction and regulation stay; power 0 de-energizes; power above 0 writes only the pin that
carries the power (R183: the PWM pin of a DIRPWM wiring at the power, in DUAL wiring the pin opposite to the direction at the complement,
and while stopped no pin); the direction pin of a DIRPWM wiring is never written, and at powers 0 and 255 every stored duty and compare value is kept (42_motor.md R183, R184, R185, R188, 41_pwm.md R150). -/
def Obligations.SetPowerStoresAndAppliesThePower : Prop :=
  ∀ (s : State) (m : Nat) (mc : MotorConfig) (pw : Int), s.Inv → s.cfg.motors[m]? = some mc →
    ∃ t, exec (.motSetPower m pw) s = .next t ∧ t.resp = ⟨.ok, 0⟩ ∧ MotorOnly m mc.wiring s t ∧ t.clock = s.clock ∧
      t.motor m = { s.motor m with power := BitVec.ofInt 8 (min (max pw 0) 255) } ∧
      (pw ≤ 0 → t.deEnergized mc.wiring) ∧ (pw ≤ 0 ∨ 255 ≤ pw → DutiesKept [] s t) ∧
      (∀ d p en, mc.wiring = .dirPwm d p en → t.pin? d = s.pin? d ∧ OutputsOnly (p :: en.toList) s t) ∧
      (0 < pw → ∀ d p en, mc.wiring = .dirPwm d p en → t.carries p (min pw 255).toNat ∧ OutputsOnly [p] s t) ∧
      (0 < pw → ∀ a b, mc.wiring = .dual a b →
        ((s.motor m).dir = .forward → t.carries b (255 - (min pw 255).toNat) ∧ OutputsOnly [b] s t) ∧
        ((s.motor m).dir = .backward → t.carries a (255 - (min pw 255).toNat) ∧ OutputsOnly [a] s t) ∧
        ((s.motor m).dir = .stopped → t.pin = s.pin ∧ t.grp = s.grp))

/-- MOT.GOTO starts an episode: goal, rate, clock, position snapshot, direction by the sign of goal minus position, seed power, and
regulation armed; the pins are driven as MOT.GO drives them, stored duties and compare values with them (42_motor.md R187, R189,
R190). -/
def Obligations.GoToStartsAnEpisode : Prop :=
  ∀ (s : State) (m : Nat) (mc : MotorConfig) (rate goal : Int), s.Inv → s.cfg.motors[m]? = some mc →
    ∃ t, exec (.motGoTo m rate goal) s = .next t ∧ t.resp = ⟨.ok, 0⟩ ∧ MotorOnly m mc.wiring s t ∧
      t.clock = some s.nowMillis ∧
      t.motor m =
        { dir := if s.readPos mc.encOf < wrapTo s.cfg.posWidth goal then .forward else .backward,
          power := BitVec.ofNat 8 s.cfg.seedPower, regulated := true, goal := wrapTo s.cfg.posWidth goal,
          tps := BitVec.ofInt 32 rate, lastT := s.nowMillis, lastPos := s.readPos mc.encOf } ∧
      t.driven (decide (s.readPos mc.encOf < wrapTo s.cfg.posWidth goal)) s.cfg.seedPower mc.wiring ∧
      DutiesKept (modulated mc.wiring (decide (s.readPos mc.encOf < wrapTo s.cfg.posWidth goal)) s.cfg.seedPower) s t

/-- MOT.GOFOR starts the episode whose goal is the position plus the ticks, wrapped, as MOT.GOTO does (42_motor.md R189, R191). -/
def Obligations.GoForStartsAnEpisode : Prop :=
  ∀ (s : State) (m : Nat) (mc : MotorConfig) (rate ticks : Int), s.Inv → s.cfg.motors[m]? = some mc →
    ∃ t, exec (.motGoFor m rate ticks) s = .next t ∧ t.resp = ⟨.ok, 0⟩ ∧ MotorOnly m mc.wiring s t ∧
      t.clock = some s.nowMillis ∧
      t.motor m =
        { dir := if s.readPos mc.encOf < wrapTo s.cfg.posWidth (s.readPos mc.encOf + ticks) then .forward
            else .backward,
          power := BitVec.ofNat 8 s.cfg.seedPower, regulated := true,
          goal := wrapTo s.cfg.posWidth (s.readPos mc.encOf + ticks),
          tps := BitVec.ofInt 32 rate, lastT := s.nowMillis, lastPos := s.readPos mc.encOf } ∧
      t.driven (decide (s.readPos mc.encOf < wrapTo s.cfg.posWidth (s.readPos mc.encOf + ticks))) s.cfg.seedPower
        mc.wiring ∧
      DutiesKept (modulated mc.wiring (decide (s.readPos mc.encOf < wrapTo s.cfg.posWidth (s.readPos mc.encOf + ticks)))
        s.cfg.seedPower) s t

/-- MOT.CHECK: nothing outside regulation; a stop at the goal; nothing before the interval has passed; else the power setter with the
next power, and the bookkeeping (42_motor.md R193). -/
def Obligations.CheckRegulates : Prop :=
  ∀ (s : State) (m now : Nat) (mc : MotorConfig), s.Inv → s.cfg.motors[m]? = some mc →
    ((s.motor m).regulated = false → exec (.motCheck m now) s = .next (s.respond 0)) ∧
    ((s.motor m).regulated = true → atGoal (s.motor m) (s.readPos mc.encOf) →
      exec (.motCheck m now) s = exec (.motStop m) s) ∧
    ((s.motor m).regulated = true → ¬atGoal (s.motor m) (s.readPos mc.encOf) →
      uwrapTo 32 ((now : Int) - (s.motor m).lastT.toNat) < s.cfg.checkInterval →
      exec (.motCheck m now) s = .next (s.respond 0)) ∧
    ((s.motor m).regulated = true → ¬atGoal (s.motor m) (s.readPos mc.encOf) →
      s.cfg.checkInterval ≤ uwrapTo 32 ((now : Int) - (s.motor m).lastT.toNat) →
      ∃ u, exec (.motSetPower m (nextPower s.cfg (s.motor m).power.toNat
          ((s.readPos mc.encOf - (s.motor m).lastPos).natAbs * (1000 / s.cfg.checkInterval))
          (s.motor m).tps.toInt)) s = .next u ∧
        exec (.motCheck m now) s = .next (u.modMotor m (fun x =>
          { x with lastT := BitVec.ofNat 32 now, lastPos := s.readPos mc.encOf })))

/-- The correction step: stall escalation first, then the ratio steps, then on target (42_motor.md R192). -/
def Obligations.NextPowerRule : Prop :=
  ∀ (c : Config) (pw rate : Nat) (tps : Int),
    (rate = 0 → pw < c.seedPower → nextPower c pw rate tps = c.seedPower) ∧
    (rate = 0 → c.seedPower ≤ pw → nextPower c pw rate tps = 2 * pw) ∧
    (rate ≠ 0 → (rate : Int) > tps → nextPower c pw rate tps = c.down pw) ∧
    (rate ≠ 0 → (rate : Int) < tps → nextPower c pw rate tps = c.up pw) ∧
    (rate ≠ 0 → (rate : Int) = tps → nextPower c pw rate tps = pw)

/-- With the default POWER_UP, a correction below target raises the power exactly from 10 on, holds 255, and the stall branch doubles
from the default seed (42_motor.md R198). -/
def Obligations.CorrectionsBelowTargetRaiseThePower : Prop :=
  ∀ (c : Config), c.powerUp = powerUpDefault →
    (∀ (p rate : Nat) (tps : Int), p ≤ 255 → 0 < rate → (rate : Int) < tps →
      (p < nextPower c p rate tps ↔ 10 ≤ p) ∧ (p ≤ 9 → nextPower c p rate tps = p) ∧
      (10 ≤ p → p < 255 → p < clampPower (nextPower c p rate tps)) ∧
      (p = 255 → nextPower c p rate tps = 280 ∧ clampPower (nextPower c p rate tps) = 255)) ∧
    (c.seedPower = 16 → ∀ tps : Int, clampPower (nextPower c 16 0 tps) = 32 ∧ clampPower (nextPower c 32 0 tps) = 64 ∧
      clampPower (nextPower c 64 0 tps) = 128 ∧ clampPower (nextPower c 128 0 tps) = 255)

/-- Power 0 is sticky: a disasserted enable stays high, and a low asserted pin stays low, under every MOT.SETPOWER and MOT.CHECK
(70_reset_and_hazards.md R280). -/
def Obligations.PowerZeroIsSticky : Prop :=
  ∀ (s t : State) (m : Nat) (mc : MotorConfig) (pw : Int) (now : Nat), s.Inv → s.cfg.motors[m]? = some mc →
    (exec (.motSetPower m pw) s = .next t ∨ exec (.motCheck m now) s = .next t) →
    (∀ d p e, mc.wiring = .dirPwm d p (some e) → s.forced e .high → t.forced e .high) ∧
    (∀ a b, mc.wiring = .dual a b →
      ((s.motor m).dir = .forward → s.forced a .low → t.forced a .low) ∧
      ((s.motor m).dir = .backward → s.forced b .low → t.forced b .low))

/-- An episode ends only by a stop (MOT.STOP, or MOT.CHECK at the goal) or by MOT.GO, MOT.GOFOR or MOT.GOTO on its motor: any other
command leaves its regulation, direction, goal and rate (42_motor.md R197). -/
def Obligations.EpisodeEndsOnlyByStopOrReplacement : Prop :=
  ∀ (i : Instr) (s t : State) (m : Nat) (mc : MotorConfig), s.Inv → s.cfg.motors[m]? = some mc →
    (s.motor m).regulated = true → exec i s = .next t →
    i ≠ .motStop m → (∀ f p, i ≠ .motGo m f p) → (∀ r k, i ≠ .motGoFor m r k) → (∀ r g, i ≠ .motGoTo m r g) →
    (∀ now, i = .motCheck m now → ¬atGoal (s.motor m) (s.readPos mc.encOf)) →
    (t.motor m).regulated = true ∧ (t.motor m).dir = (s.motor m).dir ∧ (t.motor m).goal = (s.motor m).goal ∧
      (t.motor m).tps = (s.motor m).tps

/-- MOT.MOVING answers 1 unless the motor is stopped, and changes nothing (42_motor.md R194). -/
def Obligations.MovingReportsTheDirection : Prop :=
  ∀ (s : State) (m : Nat) (mc : MotorConfig), s.cfg.motors[m]? = some mc →
    exec (.motMoving m) s = .next (s.respond (if (s.motor m).dir = .stopped then 0 else 1))

/-- The clock: the first draw is any value, each later one is the one before plus a natural below 2^31, and every such value can be
drawn; only MOT.GOFOR and MOT.GOTO read it (60_exceptions.md R250; log 11). -/
def Obligations.ClockIsMonotone : Prop :=
  (∀ v : Word, ∃ d, nextClock none d = v) ∧
  (∀ (t d : Word), ∃ k < 2147483648, nextClock (some t) d = t + BitVec.ofNat 32 k) ∧
  (∀ (t : Word), ∀ k < 2147483648, ∃ d, nextClock (some t) d = t + BitVec.ofNat 32 k) ∧
  (∀ (i : Instr) (s t : State), exec i s = .next t →
    t.clock = s.clock ∨ (t.clock = some (nextClock s.clock s.draw) ∧
      ((∃ m r k, i = .motGoFor m r k) ∨ (∃ m r g, i = .motGoTo m r g))))

/-- The elapsed time is right across a wrap of the 32-bit clock (70_reset_and_hazards.md R285). -/
def Obligations.ElapsedTimeAcrossAWrap : Prop :=
  ∀ (x : Motor) (d : Nat), d < 4294967296 → elapsed x ((x.lastT.toNat + d) % 4294967296) = d

/-- The synchronisation sequence leaves the previous phase equal to the lines' phase and the position 0
(70_reset_and_hazards.md R274). -/
def Obligations.SynchronisationSequence : Prop :=
  ∀ (s : State) (e : Nat) (la lb : Level), e < s.cfg.nEnc → s.enc.length = s.cfg.nEnc →
    ∃ t, execAll [.encSetA e la, .encSetB e lb, .encTick e, .encZero e 0] s = .next t ∧
      t.encoder e = ⟨la, lb, phaseCode la lb, 0⟩ ∧ (∀ e', e' ≠ e → t.encoder e' = s.encoder e') ∧
      t.grp = s.grp ∧ t.pin = s.pin ∧ t.mot = s.mot
end

