-- ==== Sys2Proof/Laws/State.lean ====
section
/-! SUPPORT. One lemma per field per update of the state: what each update leaves alone. -/

namespace Sys2Proof.Machine

open Sys2Proof

variable (s : State)

/-! ### modEncoder -/

@[simp] theorem modEncoder_cfg (e : Nat) (f : Encoder → Encoder) : (s.modEncoder e f).cfg = s.cfg := rfl
@[simp] theorem modEncoder_grp (e : Nat) (f : Encoder → Encoder) : (s.modEncoder e f).grp = s.grp := rfl
@[simp] theorem modEncoder_pin (e : Nat) (f : Encoder → Encoder) : (s.modEncoder e f).pin = s.pin := rfl
@[simp] theorem modEncoder_mot (e : Nat) (f : Encoder → Encoder) : (s.modEncoder e f).mot = s.mot := rfl
@[simp] theorem modEncoder_resp (e : Nat) (f : Encoder → Encoder) : (s.modEncoder e f).resp = s.resp := rfl
@[simp] theorem modEncoder_boot (e : Nat) (f : Encoder → Encoder) : (s.modEncoder e f).boot = s.boot := rfl
@[simp] theorem modEncoder_bootPort (e : Nat) (f : Encoder → Encoder) : (s.modEncoder e f).bootPort = s.bootPort := rfl
@[simp] theorem modEncoder_edgePort (e : Nat) (f : Encoder → Encoder) : (s.modEncoder e f).edgePort = s.edgePort := rfl
@[simp] theorem modEncoder_controlPort (e : Nat) (f : Encoder → Encoder) : (s.modEncoder e f).controlPort = s.controlPort := rfl
@[simp] theorem modEncoder_turns (e : Nat) (f : Encoder → Encoder) : (s.modEncoder e f).turns = s.turns := rfl
@[simp] theorem modEncoder_draw (e : Nat) (f : Encoder → Encoder) : (s.modEncoder e f).draw = s.draw := rfl
@[simp] theorem modEncoder_clock (e : Nat) (f : Encoder → Encoder) : (s.modEncoder e f).clock = s.clock := rfl
@[simp] theorem modEncoder_lastEdge (e : Nat) (f : Encoder → Encoder) : (s.modEncoder e f).lastEdge = s.lastEdge := rfl
@[simp] theorem modEncoder_race (e : Nat) (f : Encoder → Encoder) : (s.modEncoder e f).race = s.race := rfl

/-! ### modGroup -/

@[simp] theorem modGroup_cfg (g : Nat) (f : Group → Group) : (s.modGroup g f).cfg = s.cfg := rfl
@[simp] theorem modGroup_enc (g : Nat) (f : Group → Group) : (s.modGroup g f).enc = s.enc := rfl
@[simp] theorem modGroup_pin (g : Nat) (f : Group → Group) : (s.modGroup g f).pin = s.pin := rfl
@[simp] theorem modGroup_mot (g : Nat) (f : Group → Group) : (s.modGroup g f).mot = s.mot := rfl
@[simp] theorem modGroup_resp (g : Nat) (f : Group → Group) : (s.modGroup g f).resp = s.resp := rfl
@[simp] theorem modGroup_boot (g : Nat) (f : Group → Group) : (s.modGroup g f).boot = s.boot := rfl
@[simp] theorem modGroup_bootPort (g : Nat) (f : Group → Group) : (s.modGroup g f).bootPort = s.bootPort := rfl
@[simp] theorem modGroup_edgePort (g : Nat) (f : Group → Group) : (s.modGroup g f).edgePort = s.edgePort := rfl
@[simp] theorem modGroup_controlPort (g : Nat) (f : Group → Group) : (s.modGroup g f).controlPort = s.controlPort := rfl
@[simp] theorem modGroup_turns (g : Nat) (f : Group → Group) : (s.modGroup g f).turns = s.turns := rfl
@[simp] theorem modGroup_draw (g : Nat) (f : Group → Group) : (s.modGroup g f).draw = s.draw := rfl
@[simp] theorem modGroup_clock (g : Nat) (f : Group → Group) : (s.modGroup g f).clock = s.clock := rfl
@[simp] theorem modGroup_lastEdge (g : Nat) (f : Group → Group) : (s.modGroup g f).lastEdge = s.lastEdge := rfl
@[simp] theorem modGroup_race (g : Nat) (f : Group → Group) : (s.modGroup g f).race = s.race := rfl

/-! ### modChannel -/

@[simp] theorem modChannel_cfg (g c : Nat) (f : Channel → Channel) : (s.modChannel g c f).cfg = s.cfg := rfl
@[simp] theorem modChannel_enc (g c : Nat) (f : Channel → Channel) : (s.modChannel g c f).enc = s.enc := rfl
@[simp] theorem modChannel_pin (g c : Nat) (f : Channel → Channel) : (s.modChannel g c f).pin = s.pin := rfl
@[simp] theorem modChannel_mot (g c : Nat) (f : Channel → Channel) : (s.modChannel g c f).mot = s.mot := rfl
@[simp] theorem modChannel_resp (g c : Nat) (f : Channel → Channel) : (s.modChannel g c f).resp = s.resp := rfl
@[simp] theorem modChannel_boot (g c : Nat) (f : Channel → Channel) : (s.modChannel g c f).boot = s.boot := rfl
@[simp] theorem modChannel_bootPort (g c : Nat) (f : Channel → Channel) : (s.modChannel g c f).bootPort = s.bootPort := rfl
@[simp] theorem modChannel_edgePort (g c : Nat) (f : Channel → Channel) : (s.modChannel g c f).edgePort = s.edgePort := rfl
@[simp] theorem modChannel_controlPort (g c : Nat) (f : Channel → Channel) : (s.modChannel g c f).controlPort = s.controlPort := rfl
@[simp] theorem modChannel_turns (g c : Nat) (f : Channel → Channel) : (s.modChannel g c f).turns = s.turns := rfl
@[simp] theorem modChannel_draw (g c : Nat) (f : Channel → Channel) : (s.modChannel g c f).draw = s.draw := rfl
@[simp] theorem modChannel_clock (g c : Nat) (f : Channel → Channel) : (s.modChannel g c f).clock = s.clock := rfl
@[simp] theorem modChannel_lastEdge (g c : Nat) (f : Channel → Channel) : (s.modChannel g c f).lastEdge = s.lastEdge := rfl
@[simp] theorem modChannel_race (g c : Nat) (f : Channel → Channel) : (s.modChannel g c f).race = s.race := rfl

/-! ### modPin -/

@[simp] theorem modPin_cfg (p : Nat) (f : Pin → Pin) : (s.modPin p f).cfg = s.cfg := rfl
@[simp] theorem modPin_enc (p : Nat) (f : Pin → Pin) : (s.modPin p f).enc = s.enc := rfl
@[simp] theorem modPin_grp (p : Nat) (f : Pin → Pin) : (s.modPin p f).grp = s.grp := rfl
@[simp] theorem modPin_mot (p : Nat) (f : Pin → Pin) : (s.modPin p f).mot = s.mot := rfl
@[simp] theorem modPin_resp (p : Nat) (f : Pin → Pin) : (s.modPin p f).resp = s.resp := rfl
@[simp] theorem modPin_boot (p : Nat) (f : Pin → Pin) : (s.modPin p f).boot = s.boot := rfl
@[simp] theorem modPin_bootPort (p : Nat) (f : Pin → Pin) : (s.modPin p f).bootPort = s.bootPort := rfl
@[simp] theorem modPin_edgePort (p : Nat) (f : Pin → Pin) : (s.modPin p f).edgePort = s.edgePort := rfl
@[simp] theorem modPin_controlPort (p : Nat) (f : Pin → Pin) : (s.modPin p f).controlPort = s.controlPort := rfl
@[simp] theorem modPin_turns (p : Nat) (f : Pin → Pin) : (s.modPin p f).turns = s.turns := rfl
@[simp] theorem modPin_draw (p : Nat) (f : Pin → Pin) : (s.modPin p f).draw = s.draw := rfl
@[simp] theorem modPin_clock (p : Nat) (f : Pin → Pin) : (s.modPin p f).clock = s.clock := rfl
@[simp] theorem modPin_lastEdge (p : Nat) (f : Pin → Pin) : (s.modPin p f).lastEdge = s.lastEdge := rfl
@[simp] theorem modPin_race (p : Nat) (f : Pin → Pin) : (s.modPin p f).race = s.race := rfl

/-! ### modMotor -/

@[simp] theorem modMotor_cfg (m : Nat) (f : Motor → Motor) : (s.modMotor m f).cfg = s.cfg := rfl
@[simp] theorem modMotor_enc (m : Nat) (f : Motor → Motor) : (s.modMotor m f).enc = s.enc := rfl
@[simp] theorem modMotor_grp (m : Nat) (f : Motor → Motor) : (s.modMotor m f).grp = s.grp := rfl
@[simp] theorem modMotor_pin (m : Nat) (f : Motor → Motor) : (s.modMotor m f).pin = s.pin := rfl
@[simp] theorem modMotor_resp (m : Nat) (f : Motor → Motor) : (s.modMotor m f).resp = s.resp := rfl
@[simp] theorem modMotor_boot (m : Nat) (f : Motor → Motor) : (s.modMotor m f).boot = s.boot := rfl
@[simp] theorem modMotor_bootPort (m : Nat) (f : Motor → Motor) : (s.modMotor m f).bootPort = s.bootPort := rfl
@[simp] theorem modMotor_edgePort (m : Nat) (f : Motor → Motor) : (s.modMotor m f).edgePort = s.edgePort := rfl
@[simp] theorem modMotor_controlPort (m : Nat) (f : Motor → Motor) : (s.modMotor m f).controlPort = s.controlPort := rfl
@[simp] theorem modMotor_turns (m : Nat) (f : Motor → Motor) : (s.modMotor m f).turns = s.turns := rfl
@[simp] theorem modMotor_draw (m : Nat) (f : Motor → Motor) : (s.modMotor m f).draw = s.draw := rfl
@[simp] theorem modMotor_clock (m : Nat) (f : Motor → Motor) : (s.modMotor m f).clock = s.clock := rfl
@[simp] theorem modMotor_lastEdge (m : Nat) (f : Motor → Motor) : (s.modMotor m f).lastEdge = s.lastEdge := rfl
@[simp] theorem modMotor_race (m : Nat) (f : Motor → Motor) : (s.modMotor m f).race = s.race := rfl

/-! ### respond -/

@[simp] theorem respond_cfg (r : Word) : (s.respond r).cfg = s.cfg := rfl
@[simp] theorem respond_enc (r : Word) : (s.respond r).enc = s.enc := rfl
@[simp] theorem respond_grp (r : Word) : (s.respond r).grp = s.grp := rfl
@[simp] theorem respond_pin (r : Word) : (s.respond r).pin = s.pin := rfl
@[simp] theorem respond_mot (r : Word) : (s.respond r).mot = s.mot := rfl
@[simp] theorem respond_boot (r : Word) : (s.respond r).boot = s.boot := rfl
@[simp] theorem respond_bootPort (r : Word) : (s.respond r).bootPort = s.bootPort := rfl
@[simp] theorem respond_edgePort (r : Word) : (s.respond r).edgePort = s.edgePort := rfl
@[simp] theorem respond_controlPort (r : Word) : (s.respond r).controlPort = s.controlPort := rfl
@[simp] theorem respond_turns (r : Word) : (s.respond r).turns = s.turns := rfl
@[simp] theorem respond_draw (r : Word) : (s.respond r).draw = s.draw := rfl
@[simp] theorem respond_clock (r : Word) : (s.respond r).clock = s.clock := rfl
@[simp] theorem respond_lastEdge (r : Word) : (s.respond r).lastEdge = s.lastEdge := rfl
@[simp] theorem respond_race (r : Word) : (s.respond r).race = s.race := rfl

/-! ### tickClock -/

@[simp] theorem tickClock_cfg : (s.tickClock).cfg = s.cfg := rfl
@[simp] theorem tickClock_enc : (s.tickClock).enc = s.enc := rfl
@[simp] theorem tickClock_grp : (s.tickClock).grp = s.grp := rfl
@[simp] theorem tickClock_pin : (s.tickClock).pin = s.pin := rfl
@[simp] theorem tickClock_mot : (s.tickClock).mot = s.mot := rfl
@[simp] theorem tickClock_resp : (s.tickClock).resp = s.resp := rfl
@[simp] theorem tickClock_boot : (s.tickClock).boot = s.boot := rfl
@[simp] theorem tickClock_bootPort : (s.tickClock).bootPort = s.bootPort := rfl
@[simp] theorem tickClock_edgePort : (s.tickClock).edgePort = s.edgePort := rfl
@[simp] theorem tickClock_controlPort : (s.tickClock).controlPort = s.controlPort := rfl
@[simp] theorem tickClock_turns : (s.tickClock).turns = s.turns := rfl
@[simp] theorem tickClock_draw : (s.tickClock).draw = s.draw := rfl
@[simp] theorem tickClock_lastEdge : (s.tickClock).lastEdge = s.lastEdge := rfl
@[simp] theorem tickClock_race : (s.tickClock).race = s.race := rfl

/-! ### raiseIllegal -/

@[simp] theorem raiseIllegal_cfg : (raiseIllegal s).cfg = s.cfg := rfl
@[simp] theorem raiseIllegal_enc : (raiseIllegal s).enc = s.enc := rfl
@[simp] theorem raiseIllegal_grp : (raiseIllegal s).grp = s.grp := rfl
@[simp] theorem raiseIllegal_pin : (raiseIllegal s).pin = s.pin := rfl
@[simp] theorem raiseIllegal_mot : (raiseIllegal s).mot = s.mot := rfl
@[simp] theorem raiseIllegal_boot : (raiseIllegal s).boot = s.boot := rfl
@[simp] theorem raiseIllegal_bootPort : (raiseIllegal s).bootPort = s.bootPort := rfl
@[simp] theorem raiseIllegal_edgePort : (raiseIllegal s).edgePort = s.edgePort := rfl
@[simp] theorem raiseIllegal_controlPort : (raiseIllegal s).controlPort = s.controlPort := rfl
@[simp] theorem raiseIllegal_turns : (raiseIllegal s).turns = s.turns := rfl
@[simp] theorem raiseIllegal_draw : (raiseIllegal s).draw = s.draw := rfl
@[simp] theorem raiseIllegal_clock : (raiseIllegal s).clock = s.clock := rfl
@[simp] theorem raiseIllegal_lastEdge : (raiseIllegal s).lastEdge = s.lastEdge := rfl
@[simp] theorem raiseIllegal_race : (raiseIllegal s).race = s.race := rfl

/-! ### The field each update writes -/

@[simp] theorem modEncoder_enc (e : Nat) (f : Encoder → Encoder) : (s.modEncoder e f).enc = s.enc.modify e f := rfl
@[simp] theorem modGroup_grp (g : Nat) (f : Group → Group) : (s.modGroup g f).grp = s.grp.modify g f := rfl
@[simp] theorem modPin_pin (p : Nat) (f : Pin → Pin) : (s.modPin p f).pin = s.pin.modify p f := rfl
@[simp] theorem modMotor_mot (m : Nat) (f : Motor → Motor) : (s.modMotor m f).mot = s.mot.modify m f := rfl
@[simp] theorem respond_resp (r : Word) : (s.respond r).resp = ⟨.ok, r⟩ := rfl
@[simp] theorem tickClock_clock : s.tickClock.clock = some s.nowMillis := rfl
@[simp] theorem raiseIllegal_resp : (raiseIllegal s).resp = ⟨.illegal, 0⟩ := rfl

end Sys2Proof.Machine
end

