-- ==== Sys2Proof/Laws/Units.lean ====
section
/-! SUPPORT. Reading one unit (an encoder, a group, a channel, a pin, a motor) after a unit has been rewritten. -/

namespace Sys2Proof.Machine

open Sys2Proof

variable (s : State)

/-! ### Encoders and motors -/

theorem encoder_modEncoder_self {e : Nat} (f : Encoder → Encoder) (h : e < s.enc.length) :
    (s.modEncoder e f).encoder e = f (s.encoder e) := by
  simp [State.encoder, List.getD_eq_getElem?_getD, h]

theorem encoder_modEncoder_ne {e e' : Nat} (f : Encoder → Encoder) (h : e' ≠ e) :
    (s.modEncoder e f).encoder e' = s.encoder e' := by
  simp [State.encoder, List.getD_eq_getElem?_getD, Ne.symm h]

theorem motor_modMotor_self {m : Nat} (f : Motor → Motor) (h : m < s.mot.length) :
    (s.modMotor m f).motor m = f (s.motor m) := by
  simp [State.motor, List.getD_eq_getElem?_getD, h]

theorem motor_modMotor_ne {m m' : Nat} (f : Motor → Motor) (h : m' ≠ m) :
    (s.modMotor m f).motor m' = s.motor m' := by
  simp [State.motor, List.getD_eq_getElem?_getD, Ne.symm h]

theorem encoder_congr {s t : State} (h : t.enc = s.enc) (e : Nat) : t.encoder e = s.encoder e := by
  simp [State.encoder, h]

theorem motor_congr {s t : State} (h : t.mot = s.mot) (m : Nat) : t.motor m = s.motor m := by
  simp [State.motor, h]

/-- Two rewrites of one motor are one. -/
theorem modMotor_modMotor (m : Nat) (f h : Motor → Motor) :
    (s.modMotor m f).modMotor m h = s.modMotor m (fun x => h (f x)) := by
  simp [State.modMotor, List.modify_modify_eq, Function.comp_def]

/-- Two rewrites of one encoder are one. -/
theorem modEncoder_modEncoder (e : Nat) (f h : Encoder → Encoder) :
    (s.modEncoder e f).modEncoder e h = s.modEncoder e (fun x => h (f x)) := by
  simp [State.modEncoder, List.modify_modify_eq, Function.comp_def]

/-! ### Pins -/

theorem pin?_modPin (p q : Nat) (f : Pin → Pin) :
    (s.modPin p f).pin? q = if p = q then (s.pin? q).map f else s.pin? q := by
  simp only [State.pin?, modPin_pin, List.getElem?_modify]
  split <;> simp

theorem pin?_congr {s t : State} (h : t.pin = s.pin) (p : Nat) : t.pin? p = s.pin? p := by
  simp [State.pin?, h]

/-! ### Groups and channels -/

theorem group?_modGroup (g g' : Nat) (f : Group → Group) :
    (s.modGroup g f).group? g' = if g = g' then (s.group? g').map f else s.group? g' := by
  simp only [State.group?, modGroup_grp, List.getElem?_modify]
  split <;> simp

theorem group?_congr {s t : State} (h : t.grp = s.grp) (g : Nat) : t.group? g = s.group? g := by
  simp [State.group?, h]

theorem channel?_congr {s t : State} (h : t.grp = s.grp) (g c : Nat) : t.channel? g c = s.channel? g c := by
  simp [State.channel?, h]

theorem top_congr {s t : State} (h : t.grp = s.grp) (g : Nat) : t.top g = s.top g := by
  simp [State.top, h]

theorem channel?_eq (g c : Nat) : s.channel? g c = (s.group? g).bind (fun x => x.chans[c]?) := rfl

theorem top_eq (g : Nat) : s.top g = ((s.group? g).map Group.top).getD 0 := rfl

theorem group?_modChannel (g c g' : Nat) (f : Channel → Channel) :
    (s.modChannel g c f).group? g' =
      if g = g' then (s.group? g').map (fun x => { x with chans := x.chans.modify c f }) else s.group? g' :=
  group?_modGroup s g g' _

theorem channel?_modChannel (g c g' c' : Nat) (f : Channel → Channel) :
    (s.modChannel g c f).channel? g' c' =
      if g = g' ∧ c = c' then (s.channel? g' c').map f else s.channel? g' c' := by
  rw [channel?_eq, channel?_eq, group?_modChannel]
  cases s.group? g' with
  | none => by_cases hg : g = g' <;> simp [hg]
  | some x => by_cases hg : g = g' <;> by_cases hc : c = c' <;> simp [hg, hc]

theorem top_modChannel (g c g' : Nat) (f : Channel → Channel) : (s.modChannel g c f).top g' = s.top g' := by
  rw [top_eq, top_eq, group?_modChannel]
  split
  · cases s.group? g' <;> simp
  · rfl

end Sys2Proof.Machine
end

