-- ==== Sys2Proof/Laws/Outputs.lean ====
section
/-! SUPPORT. What the pin-writing operations do: each touches its pins and the channels behind them, and nothing else. -/

namespace Sys2Proof.Machine

open Sys2Proof

/-! ### Frames compose -/

theorem SameInputs.refl (s : State) : SameInputs s s := ⟨rfl, rfl, rfl, rfl, rfl, rfl, rfl, rfl, rfl⟩

theorem SameInputs.trans {s t u : State} (h : SameInputs s t) (k : SameInputs t u) : SameInputs s u where
  cfg := k.cfg.trans h.cfg
  boot := k.boot.trans h.boot
  bootPort := k.bootPort.trans h.bootPort
  edgePort := k.edgePort.trans h.edgePort
  controlPort := k.controlPort.trans h.controlPort
  turns := k.turns.trans h.turns
  draw := k.draw.trans h.draw
  lastEdge := k.lastEdge.trans h.lastEdge
  race := k.race.trans h.race

theorem GroupsOnly.refl (ps : List Nat) (s : State) : GroupsOnly ps s s :=
  ⟨rfl, fun _ => rfl, fun _ => rfl, fun _ _ _ => rfl⟩

theorem GroupsOnly.of_grp {ps : List Nat} {s t : State} (h : t.grp = s.grp) : GroupsOnly ps s t :=
  ⟨by rw [h], fun g => by rw [group?_congr h], fun g => by rw [group?_congr h], fun g c _ => channel?_congr h g c⟩

theorem PinsOnly.of_pin {ps : List Nat} {s t : State} (h : t.pin = s.pin) : PinsOnly ps s t :=
  ⟨by rw [h], fun p _ => pin?_congr h p, fun p => by rw [pin?_congr h]⟩

theorem GroupsOnly.trans {ps : List Nat} {s t u : State} (hc : t.cfg = s.cfg) (h : GroupsOnly ps s t)
    (k : GroupsOnly ps t u) : GroupsOnly ps s u where
  count := k.count.trans h.count
  settings g := (k.settings g).trans (h.settings g)
  chanCount g := (k.chanCount g).trans (h.chanCount g)
  channels g c hp := (k.channels g c (by rw [hc]; exact hp)).trans (h.channels g c hp)

theorem PinsOnly.trans {ps : List Nat} {s t u : State} (h : PinsOnly ps s t) (k : PinsOnly ps t u) :
    PinsOnly ps s u where
  count := k.count.trans h.count
  others p hp := (k.others p hp).trans (h.others p hp)
  modes p := (k.modes p).trans (h.modes p)

theorem OutputsOnly.refl (ps : List Nat) (s : State) : OutputsOnly ps s s :=
  ⟨.refl s, rfl, .refl ps s, .of_pin rfl⟩

theorem OutputsOnly.trans {ps : List Nat} {s t u : State} (h : OutputsOnly ps s t) (k : OutputsOnly ps t u) :
    OutputsOnly ps s u :=
  ⟨h.inputs.trans k.inputs, k.enc.trans h.enc, h.grp.trans h.inputs.cfg k.grp, h.pin.trans k.pin⟩

theorem OutputsOnly.mono {ps qs : List Nat} {s t : State} (hs : ∀ p ∈ ps, p ∈ qs) (h : OutputsOnly ps s t) :
    OutputsOnly qs s t where
  inputs := h.inputs
  enc := h.enc
  grp := ⟨h.grp.count, h.grp.settings, h.grp.chanCount, fun g c hp => h.grp.channels g c (fun p hm => hp p (hs p hm))⟩
  pin := ⟨h.pin.count, fun p hp => h.pin.others p (fun hm => hp (hs p hm)), h.pin.modes⟩

/-- A change of a motor, of the answer or of the clock is no change of an output. -/
theorem OutputsOnly.of_units {ps : List Nat} {s t : State} (hi : SameInputs s t) (he : t.enc = s.enc)
    (hg : t.grp = s.grp) (hp : t.pin = s.pin) : OutputsOnly ps s t :=
  ⟨hi, he, .of_grp hg, .of_pin hp⟩

theorem OutputsOnly.respond (ps : List Nat) (s : State) (r : Word) : OutputsOnly ps s (s.respond r) :=
  .of_units ⟨rfl, rfl, rfl, rfl, rfl, rfl, rfl, rfl, rfl⟩ rfl rfl rfl

theorem OutputsOnly.modMotor (ps : List Nat) (s : State) (m : Nat) (f : Motor → Motor) :
    OutputsOnly ps s (s.modMotor m f) :=
  .of_units ⟨rfl, rfl, rfl, rfl, rfl, rfl, rfl, rfl, rfl⟩ rfl rfl rfl

theorem OutputsOnly.tickClock (ps : List Nat) (s : State) : OutputsOnly ps s s.tickClock :=
  .of_units ⟨rfl, rfl, rfl, rfl, rfl, rfl, rfl, rfl, rfl⟩ rfl rfl rfl

/-- The period of a group is one of its settings. -/
theorem top_of_settings {s t : State} {g : Nat}
    (h : (t.group? g).map groupSettings = (s.group? g).map groupSettings) : t.top g = s.top g := by
  rw [top_eq, top_eq]
  cases ht : t.group? g <;> cases hs : s.group? g <;> simp_all [groupSettings]

/-! ### Single writes -/

theorem outputsOnly_modPin {ps : List Nat} {p : Nat} (hp : p ∈ ps) (f : Pin → Pin) (hm : ∀ x, (f x).mode = x.mode)
    (s : State) : OutputsOnly ps s (s.modPin p f) where
  inputs := ⟨rfl, rfl, rfl, rfl, rfl, rfl, rfl, rfl, rfl⟩
  enc := rfl
  grp := .of_grp rfl
  pin := by
    refine ⟨by simp, fun q hq => ?_, fun q => ?_⟩
    · rw [pin?_modPin, if_neg (fun (h : p = q) => hq (h ▸ hp))]
    · rw [pin?_modPin]
      split
      · cases s.pin? q <;> simp [hm]
      · rfl

theorem outputsOnly_modChannel {ps : List Nat} {p g c : Nat} {s : State} (hp : p ∈ ps)
    (ht : s.cfg.timerOf p = some (g, c)) (f : Channel → Channel) : OutputsOnly ps s (s.modChannel g c f) where
  inputs := ⟨rfl, rfl, rfl, rfl, rfl, rfl, rfl, rfl, rfl⟩
  enc := rfl
  pin := .of_pin rfl
  grp := by
    refine ⟨by simp [State.modChannel], fun g' => ?_, fun g' => ?_, fun g' c' h => ?_⟩
    · rw [group?_modChannel]; split
      · cases s.group? g' <;> simp [groupSettings]
      · rfl
    · rw [group?_modChannel]; split
      · cases s.group? g' <;> simp
      · rfl
    · rw [channel?_modChannel, if_neg]
      rintro ⟨rfl, rfl⟩
      exact h p hp ht

/-- What the pin writes leave alone beside the frame: motors, answer, clock. -/
structure UnitsKept (s t : State) : Prop where
  mot : t.mot = s.mot
  resp : t.resp = s.resp
  clock : t.clock = s.clock

theorem UnitsKept.refl (s : State) : UnitsKept s s := ⟨rfl, rfl, rfl⟩

theorem UnitsKept.trans {s t u : State} (h : UnitsKept s t) (k : UnitsKept t u) : UnitsKept s u :=
  ⟨k.mot.trans h.mot, k.resp.trans h.resp, k.clock.trans h.clock⟩

/-! ### Pin lookup -/

theorem timerOf_lt {c : Config} {p g ch : Nat} (h : c.timerOf p = some (g, ch)) : p < c.nPins := by
  unfold Config.timerOf at h
  by_contra hn
  have hn : c.pinMap.length ≤ p := by simpa [Config.nPins] using hn
  rw [List.getD_eq_default _ _ hn] at h
  exact absurd h (by simp)

theorem timerOf_getElem? {c : Config} {p g ch : Nat} :
    c.timerOf p = some (g, ch) ↔ c.pinMap[p]? = some (some (g, ch)) := by
  unfold Config.timerOf
  rw [List.getD_eq_getElem?_getD]
  cases c.pinMap[p]? <;> simp

/-- The pin of a channel is mapped to it. -/
theorem timerOf_of_pinOf {c : Config} {p g ch : Nat} (h : c.pinOf g ch = some p) : c.timerOf p = some (g, ch) := by
  rw [timerOf_getElem?]
  obtain ⟨hl, hx, -⟩ := List.findIdx?_eq_some_iff_getElem.mp h
  rw [List.getElem?_eq_getElem hl]
  simpa using hx

theorem pinMap_injective {c : Config} (hc : c.pinMapInjective = true) {p q g ch : Nat}
    (hp : c.timerOf p = some (g, ch)) (hq : c.timerOf q = some (g, ch)) : p = q := by
  have h := List.all_eq_true.mp (List.all_eq_true.mp hc p (by simpa using timerOf_lt hp)) q
    (by simpa using timerOf_lt hq)
  simpa [hp, hq] using h

/-- `PIN_OF` is the inverse of `PIN_MAP` (41_pwm.md R140). -/
theorem pinOf_of_timerOf {c : Config} (hc : c.pinMapInjective = true) {p g ch : Nat}
    (h : c.timerOf p = some (g, ch)) : c.pinOf g ch = some p := by
  cases ho : c.pinOf g ch with
  | none =>
    have hl := timerOf_lt h
    rw [timerOf_getElem?] at h
    have hn := List.findIdx?_eq_none_iff.mp ho (some (g, ch)) (List.mem_of_getElem? h)
    simp at hn
  | some q => rw [pinMap_injective hc (timerOf_of_pinOf ho) h]

/-! ### Force write (41_pwm.md R150) -/

theorem disconnect_frame (p : Nat) (s : State) : OutputsOnly [p] s (disconnect p s) := by
  unfold disconnect
  cases ht : s.cfg.timerOf p with
  | none => exact .refl _ s
  | some gc => exact outputsOnly_modChannel (List.mem_singleton.mpr rfl) ht _

theorem disconnect_pin (p : Nat) (s : State) : (disconnect p s).pin = s.pin := by
  unfold disconnect
  cases s.cfg.timerOf p <;> rfl

theorem disconnect_kept (p : Nat) (s : State) : UnitsKept s (disconnect p s) := by
  unfold disconnect
  cases s.cfg.timerOf p <;> exact ⟨rfl, rfl, rfl⟩

theorem disconnect_channel? (p g c : Nat) (s : State) :
    (disconnect p s).channel? g c =
      if s.cfg.timerOf p = some (g, c) then (s.channel? g c).map (fun x => { x with oen := false })
      else s.channel? g c := by
  unfold disconnect
  cases ht : s.cfg.timerOf p with
  | none => simp
  | some gc =>
    obtain ⟨g0, c0⟩ := gc
    show (s.modChannel g0 c0 _).channel? g c = _
    rw [channel?_modChannel]
    simp

theorem forceLevel_frame (p : Nat) (l : Level) (s : State) : OutputsOnly [p] s (forceLevel p l s) :=
  ((disconnect_frame p s).trans (outputsOnly_modPin (by simp) _ (by simp) _)).trans
    (outputsOnly_modPin (by simp) _ (by simp) _)

theorem forceLevel_kept (p : Nat) (l : Level) (s : State) : UnitsKept s (forceLevel p l s) :=
  (disconnect_kept p s).trans ⟨rfl, rfl, rfl⟩

theorem forceLevel_pin? (p q : Nat) (l : Level) (s : State) :
    (forceLevel p l s).pin? q =
      if p = q then (s.pin? q).map (fun x => { x with latch := l, drive := .latch }) else s.pin? q := by
  unfold forceLevel writePin setDrive
  rw [pin?_modPin, pin?_modPin, pin?_congr (disconnect_pin p s)]
  split
  · cases s.pin? q <;> rfl
  · rfl

theorem forceLevel_channel? (p g c : Nat) (l : Level) (s : State) :
    (forceLevel p l s).channel? g c =
      if s.cfg.timerOf p = some (g, c) then (s.channel? g c).map (fun x => { x with oen := false })
      else s.channel? g c :=
  disconnect_channel? p g c s

/-! ### Duty and generic writes (41_pwm.md R146, R148, R152) -/

theorem dutyCore_kept (g c d : Nat) (s : State) : UnitsKept s (dutyCore g c d s) := by
  unfold dutyCore
  cases s.cfg.pinOf g c <;> exact ⟨rfl, rfl, rfl⟩

theorem dutyCore_frame {p g c : Nat} (d : Nat) {s : State} (hc : s.cfg.pinMapInjective = true)
    (ht : s.cfg.timerOf p = some (g, c)) : OutputsOnly [p] s (dutyCore g c d s) := by
  unfold dutyCore setOen setDrive
  rw [pinOf_of_timerOf hc ht]
  exact ((outputsOnly_modChannel (List.mem_singleton.mpr rfl) ht _).trans
    (outputsOnly_modChannel (s := s.modChannel g c _) (List.mem_singleton.mpr rfl) ht _)).trans
    (outputsOnly_modPin (by simp) _ (by simp) _)

theorem dutyCore_channel? (g c d g' c' : Nat) (s : State) :
    (dutyCore g c d s).channel? g' c' =
      if g = g' ∧ c = c' then (s.channel? g' c').map (fun _ => ⟨BitVec.ofNat 8 d, scale (s.top g) d, true⟩)
      else s.channel? g' c' := by
  have h : (dutyCore g c d s).channel? g' c' =
      ((s.modChannel g c (fun x => { x with duty := BitVec.ofNat 8 d, cmp := scale (s.top g) d })).modChannel g c
        (fun x => { x with oen := true })).channel? g' c' := by
    unfold dutyCore
    cases s.cfg.pinOf g c <;> rfl
  rw [h, channel?_modChannel, channel?_modChannel]
  split
  · cases s.channel? g' c' <;> rfl
  · rfl

theorem dutyCore_group? (g c d g' : Nat) (s : State) :
    ((dutyCore g c d s).group? g').map groupSettings = (s.group? g').map groupSettings ∧
    ((dutyCore g c d s).group? g').map (fun x => x.chans.length) = (s.group? g').map (fun x => x.chans.length) := by
  have h : (dutyCore g c d s).group? g' =
      ((s.modChannel g c (fun x => { x with duty := BitVec.ofNat 8 d, cmp := scale (s.top g) d })).modChannel g c
        (fun x => { x with oen := true })).group? g' := by
    unfold dutyCore
    cases s.cfg.pinOf g c <;> rfl
  rw [h, group?_modChannel, group?_modChannel]
  constructor <;> split <;> cases s.group? g' <;> simp [groupSettings]

theorem dutyCore_pin? (g c d q : Nat) (s : State) :
    (dutyCore g c d s).pin? q =
      if s.cfg.pinOf g c = some q then (s.pin? q).map (fun x => { x with drive := .timer }) else s.pin? q := by
  unfold dutyCore
  cases h : s.cfg.pinOf g c with
  | none => simp; rfl
  | some p =>
    show (setDrive p .timer _).pin? q = _
    unfold setDrive
    rw [pin?_modPin]
    simp only [Option.some.injEq]
    rfl

theorem genericDuty_frame (p v : Nat) (s : State) : OutputsOnly [p] s (genericDuty p v s) :=
  outputsOnly_modPin (by simp) _ (by simp) s

/-- The body of PWM.AWRITE touches its pin and the channel behind it. -/
theorem aWriteCore_frame (p v : Nat) {s : State} (hc : s.cfg.pinMapInjective = true) :
    OutputsOnly [p] s (aWriteCore p v s) := by
  unfold aWriteCore
  split
  · exact .refl _ _
  split
  · exact forceLevel_frame p .low s
  split
  · exact forceLevel_frame p .high s
  cases ht : s.cfg.timerOf p with
  | none => exact genericDuty_frame p v s
  | some gc => exact dutyCore_frame v hc ht

theorem aWriteCore_kept (p v : Nat) (s : State) : UnitsKept s (aWriteCore p v s) := by
  unfold aWriteCore
  split
  · exact .refl s
  split
  · exact forceLevel_kept p .low s
  split
  · exact forceLevel_kept p .high s
  cases s.cfg.timerOf p with
  | none => exact ⟨rfl, rfl, rfl⟩
  | some gc => exact dutyCore_kept gc.1 gc.2 v s

/-! ### Motor outputs (42_motor.md R182, R184, R185) -/

theorem assertDirection_frame (w : Wiring) (fwd : Bool) (s : State) :
    OutputsOnly w.pins s (assertDirection w fwd s) := by
  cases w with
  | dual a b =>
    cases fwd
    · exact ((forceLevel_frame b .high s).mono (by simp [Wiring.pins])).trans
        ((forceLevel_frame a .low _).mono (by simp [Wiring.pins]))
    · exact ((forceLevel_frame a .high s).mono (by simp [Wiring.pins])).trans
        ((forceLevel_frame b .low _).mono (by simp [Wiring.pins]))
  | dirPwm d p en =>
    cases en with
    | none => exact (forceLevel_frame d _ s).mono (by simp [Wiring.pins])
    | some e =>
      exact ((forceLevel_frame d _ s).mono (by simp [Wiring.pins])).trans
        ((forceLevel_frame e .low _).mono (by simp [Wiring.pins]))

theorem assertDirection_kept (w : Wiring) (fwd : Bool) (s : State) : UnitsKept s (assertDirection w fwd s) := by
  cases w with
  | dual a b =>
    cases fwd
    · exact (forceLevel_kept b .high s).trans (forceLevel_kept a .low _)
    · exact (forceLevel_kept a .high s).trans (forceLevel_kept b .low _)
  | dirPwm d p en =>
    cases en with
    | none => exact forceLevel_kept d _ s
    | some e => exact (forceLevel_kept d _ s).trans (forceLevel_kept e .low _)

theorem deEnergize_frame (w : Wiring) (s : State) : OutputsOnly w.pins s (deEnergize w s) := by
  cases w with
  | dual a b =>
    exact ((forceLevel_frame a .low s).mono (by simp [Wiring.pins])).trans
      ((forceLevel_frame b .low _).mono (by simp [Wiring.pins]))
  | dirPwm d p en =>
    cases en with
    | none => exact (forceLevel_frame p .low s).mono (by simp [Wiring.pins])
    | some e =>
      exact ((forceLevel_frame e .high s).mono (by simp [Wiring.pins])).trans
        ((forceLevel_frame p .low _).mono (by simp [Wiring.pins]))

theorem deEnergize_kept (w : Wiring) (s : State) : UnitsKept s (deEnergize w s) := by
  cases w with
  | dual a b => exact (forceLevel_kept a .low s).trans (forceLevel_kept b .low _)
  | dirPwm d p en =>
    cases en with
    | none => exact forceLevel_kept p .low s
    | some e => exact (forceLevel_kept e .high s).trans (forceLevel_kept p .low _)

/-- The PWM pin is a pin of the wiring (42_motor.md R183). -/
theorem powerPin_mem {w : Wiring} {dir : Direction} {q : Nat} {inv : Bool} (h : powerPin w dir = some (q, inv)) :
    q ∈ w.pins := by
  cases w with
  | dual a b => cases dir <;> simp_all [powerPin, Wiring.pins]
  | dirPwm d p en => cases en <;> simp_all [powerPin, Wiring.pins]

theorem setPowerCore_frame (m : Nat) (w : Wiring) (pw : Int) {s : State} (hc : s.cfg.pinMapInjective = true) :
    OutputsOnly w.pins s (setPowerCore m w pw s) := by
  have h1 := OutputsOnly.modMotor w.pins s m (fun x => { x with power := BitVec.ofNat 8 (clampPower pw) })
  simp only [setPowerCore]
  split
  · exact h1.trans (deEnergize_frame w _)
  split
  · exact h1
  · rename_i q inv hq
    exact h1.trans ((aWriteCore_frame q _ (s := s.modMotor m _) hc).mono (fun x hx => List.mem_singleton.mp hx ▸ powerPin_mem hq))

/-- The power setter changes one field of one motor (42_motor.md R185). -/
theorem setPowerCore_mot (m : Nat) (w : Wiring) (pw : Int) (s : State) :
    (setPowerCore m w pw s).mot = s.mot.modify m (fun x => { x with power := BitVec.ofNat 8 (clampPower pw) }) ∧
    (setPowerCore m w pw s).resp = s.resp ∧ (setPowerCore m w pw s).clock = s.clock := by
  simp only [setPowerCore]
  split
  · have h := deEnergize_kept w (s.modMotor m (fun x => { x with power := BitVec.ofNat 8 (clampPower pw) }))
    exact ⟨h.mot, h.resp, h.clock⟩
  split
  · exact ⟨rfl, rfl, rfl⟩
  · rename_i q inv hq
    have h := aWriteCore_kept q (if inv then 255 - clampPower pw else clampPower pw)
      (s.modMotor m (fun x => { x with power := BitVec.ofNat 8 (clampPower pw) }))
    exact ⟨h.mot, h.resp, h.clock⟩

theorem stopMotor_frame (m : Nat) (w : Wiring) (s : State) : OutputsOnly w.pins s (stopMotor m w s) :=
  (OutputsOnly.modMotor _ _ _ _).trans (deEnergize_frame w _)

theorem stopMotor_mot (m : Nat) (w : Wiring) (s : State) :
    (stopMotor m w s).mot = s.mot.modify m (fun x => { x with regulated := false, power := 0, dir := .stopped }) ∧
    (stopMotor m w s).resp = s.resp ∧ (stopMotor m w s).clock = s.clock := by
  have h := deEnergize_kept w (s.modMotor m (fun x => { x with regulated := false, power := 0, dir := .stopped }))
  exact ⟨h.mot, h.resp, h.clock⟩

theorem goMotor_frame (m : Nat) (w : Wiring) (fwd : Bool) (pw : Int) {s : State}
    (hc : s.cfg.pinMapInjective = true) : OutputsOnly w.pins s (goMotor m w fwd pw s) := by
  have h := (OutputsOnly.modMotor w.pins s m (fun x =>
    { x with regulated := false, dir := if fwd then .forward else .backward })).trans (assertDirection_frame w fwd _)
  exact h.trans (setPowerCore_frame m w pw (by rw [h.inputs.cfg]; exact hc))

theorem goMotor_mot (m : Nat) (w : Wiring) (fwd : Bool) (pw : Int) (s : State) :
    (goMotor m w fwd pw s).mot = s.mot.modify m (fun x =>
      { x with regulated := false, dir := if fwd then .forward else .backward,
               power := BitVec.ofNat 8 (clampPower pw) }) ∧
    (goMotor m w fwd pw s).resp = s.resp ∧ (goMotor m w fwd pw s).clock = s.clock := by
  have h := assertDirection_kept w fwd (s.modMotor m (fun x =>
    { x with regulated := false, dir := if fwd then .forward else .backward }))
  have k := setPowerCore_mot m w pw (assertDirection w fwd (s.modMotor m (fun x =>
    { x with regulated := false, dir := if fwd then .forward else .backward })))
  refine ⟨?_, k.2.1.trans h.resp, k.2.2.trans h.clock⟩
  show (setPowerCore m w pw _).mot = _
  rw [k.1, h.mot, modMotor_mot, List.modify_modify_eq]
  rfl

theorem startRegulation_frame (m : Nat) (w : Wiring) (rate g p : Int) {s : State}
    (hc : s.cfg.pinMapInjective = true) : OutputsOnly w.pins s (startRegulation m w rate g p s) :=
  (((OutputsOnly.tickClock w.pins s).trans (OutputsOnly.modMotor w.pins _ m _)).trans
    (goMotor_frame m w _ _ (by simpa using hc))).trans (OutputsOnly.modMotor w.pins _ m _)

theorem startRegulation_mot (m : Nat) (w : Wiring) (rate g p : Int) (s : State) :
    (startRegulation m w rate g p s).mot = s.mot.modify m (fun _ =>
      { dir := if p < g then .forward else .backward, power := BitVec.ofNat 8 (clampPower s.cfg.seedPower),
        regulated := true, goal := g, tps := BitVec.ofInt 32 rate, lastT := s.nowMillis, lastPos := p }) ∧
    (startRegulation m w rate g p s).resp = s.resp ∧
    (startRegulation m w rate g p s).clock = some s.nowMillis := by
  have k := goMotor_mot m w (decide (p < g)) s.cfg.seedPower (s.tickClock.modMotor m
    (fun x => { x with goal := g, tps := BitVec.ofInt 32 rate, lastT := s.nowMillis, lastPos := p }))
  refine ⟨?_, k.2.1, k.2.2⟩
  show ((goMotor m w (decide (p < g)) s.cfg.seedPower _).modMotor m _).mot = _
  rw [modMotor_mot, k.1, modMotor_mot, List.modify_modify_eq, List.modify_modify_eq]
  congr 1
  funext x
  simp [Function.comp]

/-! ### What no output or motor operation writes, in any state -/

theorem dutyCore_inputs (g c d : Nat) (s : State) : SameInputs s (dutyCore g c d s) := by
  unfold dutyCore
  cases s.cfg.pinOf g c <;> exact ⟨rfl, rfl, rfl, rfl, rfl, rfl, rfl, rfl, rfl⟩

theorem aWriteCore_inputs (p v : Nat) (s : State) : SameInputs s (aWriteCore p v s) := by
  unfold aWriteCore
  split
  · exact .refl s
  split
  · exact (forceLevel_frame p .low s).inputs
  split
  · exact (forceLevel_frame p .high s).inputs
  split
  · exact dutyCore_inputs _ _ v s
  · exact (genericDuty_frame p v s).inputs

theorem aWriteCore_enc (p v : Nat) (s : State) : (aWriteCore p v s).enc = s.enc := by
  unfold aWriteCore
  split
  · rfl
  split
  · exact (forceLevel_frame p .low s).enc
  split
  · exact (forceLevel_frame p .high s).enc
  split
  · unfold dutyCore; split <;> rfl
  · rfl

theorem setPowerCore_inputs (m : Nat) (w : Wiring) (pw : Int) (s : State) : SameInputs s (setPowerCore m w pw s) := by
  have h := (OutputsOnly.modMotor [] s m (fun x => { x with power := BitVec.ofNat 8 (clampPower pw) })).inputs
  simp only [setPowerCore]
  split
  · exact h.trans (deEnergize_frame w _).inputs
  split
  · exact h
  · exact h.trans (aWriteCore_inputs _ _ _)

theorem setPowerCore_enc (m : Nat) (w : Wiring) (pw : Int) (s : State) : (setPowerCore m w pw s).enc = s.enc := by
  simp only [setPowerCore]
  split
  · exact (deEnergize_frame w _).enc
  split
  · rfl
  · exact aWriteCore_enc _ _ _

theorem goMotor_inputs (m : Nat) (w : Wiring) (fwd : Bool) (pw : Int) (s : State) :
    SameInputs s (goMotor m w fwd pw s) :=
  ((OutputsOnly.modMotor w.pins s m _).inputs.trans (assertDirection_frame w fwd _).inputs).trans
    (setPowerCore_inputs m w pw _)

theorem goMotor_enc (m : Nat) (w : Wiring) (fwd : Bool) (pw : Int) (s : State) : (goMotor m w fwd pw s).enc = s.enc :=
  (setPowerCore_enc m w pw _).trans (assertDirection_frame w fwd _).enc

theorem startRegulation_inputs (m : Nat) (w : Wiring) (rate g p : Int) (s : State) :
    SameInputs s (startRegulation m w rate g p s) :=
  (((OutputsOnly.tickClock w.pins s).inputs.trans (OutputsOnly.modMotor w.pins _ m _).inputs).trans
    (goMotor_inputs m w _ _ _)).trans (OutputsOnly.modMotor w.pins _ m _).inputs

theorem startRegulation_enc (m : Nat) (w : Wiring) (rate g p : Int) (s : State) :
    (startRegulation m w rate g p s).enc = s.enc := goMotor_enc m w _ _ _

theorem checkMotor_inputs (m : Nat) (mc : MotorConfig) (now : Nat) (s : State) :
    SameInputs s (checkMotor m mc now s) := by
  simp only [checkMotor]
  split
  · split
    · exact (stopMotor_frame m mc.wiring s).inputs
    split
    · exact .refl s
    · exact (setPowerCore_inputs m _ _ s).trans (OutputsOnly.modMotor mc.wiring.pins _ m _).inputs
  · exact .refl s

theorem checkMotor_enc (m : Nat) (mc : MotorConfig) (now : Nat) (s : State) : (checkMotor m mc now s).enc = s.enc := by
  simp only [checkMotor]
  split
  · split
    · exact (stopMotor_frame m mc.wiring s).enc
    split
    · rfl
    · exact setPowerCore_enc m _ _ s
  · rfl

end Sys2Proof.Machine
end

