-- ==== Sys2Proof/Laws/Effects.lean ====
section
/-! SUPPORT. What the pin-writing operations leave on their pin: a forced level (41_pwm.md R150) or a carried duty (R148), and that
later writes to other pins keep it. -/

namespace Sys2Proof.Machine

open Sys2Proof

/-- The shape a pin write needs: every pin is there, `PIN_MAP` is injective, and every mapped channel is there. -/
structure Wired (s : State) : Prop where
  injective : s.cfg.pinMapInjective = true
  pins : s.pin.length = s.cfg.nPins
  channels : ∀ p g c, s.cfg.timerOf p = some (g, c) → ∃ ch, s.channel? g c = some ch

theorem Wired.pin {s : State} (h : Wired s) {p : Nat} (hp : p < s.cfg.nPins) : ∃ x, s.pin? p = some x := by
  rw [← h.pins] at hp
  exact ⟨_, List.getElem?_eq_getElem hp⟩

theorem channel?_isSome_iff (s : State) (g c : Nat) :
    (∃ ch, s.channel? g c = some ch) ↔ ∃ n, (s.group? g).map (fun x => x.chans.length) = some n ∧ c < n := by
  rw [channel?_eq]
  cases s.group? g with
  | none => simp
  | some x =>
    constructor
    · rintro ⟨ch, h⟩
      exact ⟨x.chans.length, rfl, (List.getElem?_eq_some_iff.mp h).1⟩
    · rintro ⟨n, h, hc⟩
      simp only [Option.map_some, Option.some.injEq] at h
      subst h
      exact ⟨x.chans[c], List.getElem?_eq_getElem hc⟩

/-- Channels do not come or go. -/
theorem GroupsOnly.channel_iff {ps : List Nat} {s t : State} (h : GroupsOnly ps s t) (g c : Nat) :
    (∃ ch, t.channel? g c = some ch) ↔ ∃ ch, s.channel? g c = some ch := by
  rw [channel?_isSome_iff, channel?_isSome_iff, h.chanCount]

theorem OutputsOnly.wired {ps : List Nat} {s t : State} (h : OutputsOnly ps s t) (w : Wired s) : Wired t where
  injective := by rw [h.inputs.cfg]; exact w.injective
  pins := by rw [h.pin.count, h.inputs.cfg]; exact w.pins
  channels p g c ht := (h.grp.channel_iff g c).mpr (w.channels p g c (by rw [← h.inputs.cfg]; exact ht))

theorem State.Inv.wired {s : State} (h : s.Inv) : Wired s where
  injective := by
    have hc := h.cfg
    simp only [Config.wf, Bool.and_eq_true] at hc
    tauto
  pins := h.pinLength
  channels p g c ht := by
    have hc := h.cfg
    simp only [Config.wf, Bool.and_eq_true] at hc
    have hx : s.cfg.pinTargetsExist = true := by tauto
    have hm := List.all_eq_true.mp hx _ (List.mem_of_getElem? (timerOf_getElem?.mp ht))
    simp only [channelExists] at hm
    rw [channel?_isSome_iff]
    cases hg : s.cfg.groups[g]? with
    | none => simp [hg] at hm
    | some gc =>
      simp only [hg, decide_eq_true_eq] at hm
      have hl : g < s.grp.length := by
        rw [h.grpLength]; exact (List.getElem?_eq_some_iff.mp hg).1
      have hs : s.grp[g]? = some s.grp[g] := List.getElem?_eq_getElem hl
      refine ⟨_, ?_, hm⟩
      show (s.grp[g]?).map _ = _
      rw [hs]
      simp [(h.groups g gc _ hg hs).1]

/-! ### Effects on the pin itself -/

theorem forceLevel_forced {p : Nat} (l : Level) {s : State} (w : Wired s) (hp : p < s.cfg.nPins) :
    (forceLevel p l s).forced p l := by
  obtain ⟨x, hx⟩ := w.pin hp
  refine ⟨⟨_, by rw [forceLevel_pin?, if_pos rfl, hx]; rfl, rfl, rfl⟩, fun g c ht => ?_⟩
  have ht : s.cfg.timerOf p = some (g, c) := by rw [← (forceLevel_frame p l s).inputs.cfg]; exact ht
  obtain ⟨ch, hch⟩ := w.channels p g c ht
  exact ⟨_, by rw [forceLevel_channel?, if_pos ht, hch]; rfl, rfl⟩

/-- PWM.AWRITE leaves its pin carrying its value (41_pwm.md R148). -/
theorem aWriteCore_carries {p v : Nat} {s : State} (w : Wired s) (hp : p < s.cfg.nPins) :
    (aWriteCore p v s).carries p v := by
  obtain ⟨x, hx⟩ := w.pin hp
  by_cases h0 : v = 0
  · have h : aWriteCore p v s = forceLevel p .low s := by simp [aWriteCore, h0, hp]
    rw [h, State.carries, if_pos h0]
    exact forceLevel_forced .low w hp
  by_cases h1 : v = 255
  · have h : aWriteCore p v s = forceLevel p .high s := by simp [aWriteCore, h1, hp]
    rw [h, State.carries, if_neg h0, if_pos h1]
    exact forceLevel_forced .high w hp
  cases ht : s.cfg.timerOf p with
  | none =>
    have h : aWriteCore p v s = genericDuty p v s := by simp [aWriteCore, h0, h1, hp, ht]
    have hc : (genericDuty p v s).cfg.timerOf p = none := ht
    rw [h, State.carries, if_neg h0, if_neg h1, hc]
    exact ⟨{ x with drive := .generic (BitVec.ofNat 8 v) },
      by unfold genericDuty setDrive; rw [pin?_modPin, if_pos rfl, hx]; rfl, rfl⟩
  | some gc =>
    obtain ⟨g, c⟩ := gc
    have h : aWriteCore p v s = dutyCore g c v s := by simp [aWriteCore, h0, h1, hp, ht]
    have hf := dutyCore_frame v w.injective ht
    have hc : (dutyCore g c v s).cfg.timerOf p = some (g, c) := by rw [hf.inputs.cfg]; exact ht
    obtain ⟨ch, hch⟩ := w.channels p g c ht
    rw [h, State.carries, if_neg h0, if_neg h1, hc]
    refine ⟨⟨{ x with drive := .timer }, ?_, rfl⟩, ?_⟩
    · rw [dutyCore_pin?, if_pos (pinOf_of_timerOf w.injective ht), hx]; rfl
    · rw [dutyCore_channel?, if_pos ⟨rfl, rfl⟩, hch, top_of_settings (hf.grp.settings g)]; rfl

/-! ### Effects that last -/

theorem OutputsOnly.channel_of_other {ps : List Nat} {s t : State} (h : OutputsOnly ps s t)
    (hi : s.cfg.pinMapInjective = true) {p g c : Nat} (hp : p ∉ ps) (ht : s.cfg.timerOf p = some (g, c)) :
    t.channel? g c = s.channel? g c :=
  h.grp.channels g c (fun q hq hqt => hp (by rw [pinMap_injective hi ht hqt]; exact hq))

theorem forced_of_outputsOnly {ps : List Nat} {s t : State} (h : OutputsOnly ps s t)
    (hi : s.cfg.pinMapInjective = true) {p : Nat} {l : Level} (hp : p ∉ ps) (hf : s.forced p l) : t.forced p l := by
  refine ⟨by rw [h.pin.others p hp]; exact hf.1, fun g c ht => ?_⟩
  rw [h.inputs.cfg] at ht
  rw [h.channel_of_other hi hp ht]
  exact hf.2 g c ht

theorem carries_of_outputsOnly {ps : List Nat} {s t : State} (h : OutputsOnly ps s t)
    (hi : s.cfg.pinMapInjective = true) {p v : Nat} (hp : p ∉ ps) (hf : s.carries p v) : t.carries p v := by
  unfold State.carries at hf ⊢
  split at hf
  · rename_i h0; rw [if_pos h0]; exact forced_of_outputsOnly h hi hp hf
  split at hf
  · rename_i h0 h1; rw [if_neg h0, if_pos h1]; exact forced_of_outputsOnly h hi hp hf
  · rename_i h0 h1
    rw [if_neg h0, if_neg h1, h.inputs.cfg]
    cases ht : s.cfg.timerOf p with
    | none => simp only [ht] at hf; rw [h.pin.others p hp]; exact hf
    | some gc =>
      obtain ⟨g, c⟩ := gc
      simp only [ht] at hf
      simp only [h.channel_of_other hi hp ht, h.pin.others p hp, top_of_settings (h.grp.settings g)]
      exact hf

/-! ### Motor outputs -/

theorem Wiring.pins_lt {n : Nat} {w : Wiring} (h : w.wf n = true) {p : Nat} (hp : p ∈ w.pins) : p < n := by
  simp only [Wiring.wf, Bool.and_eq_true] at h
  simpa using List.all_eq_true.mp h.1 p hp

theorem Wiring.pins_nodup {n : Nat} {w : Wiring} (h : w.wf n = true) : w.pins.Nodup := by
  simp only [Wiring.wf, Bool.and_eq_true] at h
  simpa using h.2

/-- The two direction pins after DeEnergize (42_motor.md R184). -/
theorem deEnergize_dual {a b : Nat} {s : State} (w : Wired s) (h : (Wiring.dual a b).wf s.cfg.nPins = true) :
    (deEnergize (.dual a b) s).forced a .low ∧ (deEnergize (.dual a b) s).forced b .low := by
  have hn := Wiring.pins_nodup h
  have ha := Wiring.pins_lt h (p := a) (by simp [Wiring.pins])
  have hb := Wiring.pins_lt h (p := b) (by simp [Wiring.pins])
  have hf := forceLevel_frame a .low s
  have hab : a ≠ b := by simpa [Wiring.pins] using hn
  exact ⟨forced_of_outputsOnly (forceLevel_frame b .low _) (hf.wired w).injective (by simpa using hab)
      (forceLevel_forced .low w ha),
    forceLevel_forced .low (hf.wired w) (by rw [hf.inputs.cfg]; exact hb)⟩

/-- The PWM pin after DeEnergize, and the enable (42_motor.md R184). -/
theorem deEnergize_dirPwm {d p : Nat} {en : Option Nat} {s : State} (w : Wired s)
    (h : (Wiring.dirPwm d p en).wf s.cfg.nPins = true) :
    (deEnergize (.dirPwm d p en) s).forced p .low ∧
      ∀ e, en = some e → (deEnergize (.dirPwm d p en) s).forced e .high := by
  have hn := Wiring.pins_nodup h
  cases en with
  | none =>
    exact ⟨forceLevel_forced .low w (Wiring.pins_lt h (by simp [Wiring.pins])), by simp⟩
  | some e =>
    have he := Wiring.pins_lt h (p := e) (by simp [Wiring.pins])
    have hp := Wiring.pins_lt h (p := p) (by simp [Wiring.pins])
    have hf := forceLevel_frame e .high s
    have hpe : e ≠ p := by
      simp only [Wiring.pins, List.nodup_cons] at hn
      simp at hn
      exact fun h => hn.2 h.symm
    refine ⟨forceLevel_forced .low (hf.wired w) (by rw [hf.inputs.cfg]; exact hp), ?_⟩
    rintro e' he'
    obtain rfl := Option.some.inj he'
    exact forced_of_outputsOnly (forceLevel_frame p .low _) (hf.wired w).injective (by simpa using hpe)
      (forceLevel_forced .high w he)

/-- DeEnergize leaves the direction pin of a DIRPWM wiring as it is (42_motor.md R184). -/
theorem deEnergize_dirPwm_frame (d p : Nat) (en : Option Nat) (s : State) :
    OutputsOnly (p :: en.toList) s (deEnergize (.dirPwm d p en) s) := by
  cases en with
  | none => exact forceLevel_frame p .low s
  | some e =>
    exact ((forceLevel_frame e .high s).mono (by simp)).trans ((forceLevel_frame p .low _).mono (by simp))

/-- The direction pins after AssertDirection (42_motor.md R182). -/
theorem assertDirection_dual {a b : Nat} (fwd : Bool) {s : State} (w : Wired s)
    (h : (Wiring.dual a b).wf s.cfg.nPins = true) :
    (assertDirection (.dual a b) fwd s).forced (if fwd then a else b) .high ∧
      (assertDirection (.dual a b) fwd s).forced (if fwd then b else a) .low := by
  have hn := Wiring.pins_nodup h
  have ha := Wiring.pins_lt h (p := a) (by simp [Wiring.pins])
  have hb := Wiring.pins_lt h (p := b) (by simp [Wiring.pins])
  have hab : a ≠ b := by simpa [Wiring.pins] using hn
  cases fwd
  · have hf := forceLevel_frame b .high s
    exact ⟨forced_of_outputsOnly (forceLevel_frame a .low _) (hf.wired w).injective (by simpa using hab.symm)
        (forceLevel_forced .high w hb),
      forceLevel_forced .low (hf.wired w) (by rw [hf.inputs.cfg]; exact ha)⟩
  · have hf := forceLevel_frame a .high s
    exact ⟨forced_of_outputsOnly (forceLevel_frame b .low _) (hf.wired w).injective (by simpa using hab)
        (forceLevel_forced .high w ha),
      forceLevel_forced .low (hf.wired w) (by rw [hf.inputs.cfg]; exact hb)⟩

/-- The direction pin and the enable after AssertDirection (42_motor.md R182). -/
theorem assertDirection_dirPwm {d p : Nat} {en : Option Nat} (fwd : Bool) {s : State} (w : Wired s)
    (h : (Wiring.dirPwm d p en).wf s.cfg.nPins = true) :
    (assertDirection (.dirPwm d p en) fwd s).forced d (if fwd then .high else .low) ∧
      ∀ e, en = some e → (assertDirection (.dirPwm d p en) fwd s).forced e .low := by
  have hn := Wiring.pins_nodup h
  cases en with
  | none => exact ⟨forceLevel_forced _ w (Wiring.pins_lt h (by simp [Wiring.pins])), by simp⟩
  | some e =>
    have he := Wiring.pins_lt h (p := e) (by simp [Wiring.pins])
    have hd := Wiring.pins_lt h (p := d) (by simp [Wiring.pins])
    have hf := forceLevel_frame d (if fwd then .high else .low) s
    have hde : d ≠ e := by
      simp only [Wiring.pins, List.nodup_cons] at hn
      simp at hn
      exact hn.1.2
    refine ⟨forced_of_outputsOnly (forceLevel_frame e .low _) (hf.wired w).injective (by simpa using hde)
      (forceLevel_forced _ w hd), ?_⟩
    rintro e' he'
    obtain rfl := Option.some.inj he'
    exact forceLevel_forced .low (hf.wired w) (by rw [hf.inputs.cfg]; exact he)

end Sys2Proof.Machine
end

