-- ==== Sys2Proof/Laws/Wrap.lean ====
section
/-! SUPPORT. Wrapping to a width, and racing reads (00_scope.md R10, 20_memory.md R67). -/

namespace Sys2Proof.Machine

open Sys2Proof

theorem fits_zero (w : Nat) : fitsWidth w 0 := by
  unfold fitsWidth; constructor
  · have : (0:Int) ≤ 2^(w-1) := by positivity
    omega
  · positivity

/-- A number of the width is its own wrap. -/
theorem wrap_fits {w : Nat} {v : Int} (hw : 2 ≤ w) (h : fitsWidth w v) : wrapTo w v = v := by
  unfold wrapTo fitsWidth at *
  obtain ⟨n, rfl⟩ : ∃ n, w = n + 1 := ⟨w - 1, by omega⟩
  simp only [Nat.add_sub_cancel] at h
  apply Int.bmod_eq_of_le <;> (rw [Nat.pow_succ]; push_cast; omega)

/-- A wrap is a number of the width. -/
theorem fits_wrap {w : Nat} (v : Int) (hw : 2 ≤ w) : fitsWidth w (wrapTo w v) := by
  unfold wrapTo fitsWidth
  obtain ⟨n, rfl⟩ : ∃ n, w = n + 1 := ⟨w - 1, by omega⟩
  have h1 := Int.le_bmod (x := v) (m := 2^(n+1)) (by positivity)
  have h2 := Int.bmod_lt (x := v) (m := 2^(n+1)) (by positivity)
  rw [Nat.pow_succ] at *
  simp only [Nat.add_sub_cancel]
  push_cast at *
  omega

theorem wrap_wrap_add (w : Nat) (v d : Int) : wrapTo w (wrapTo w v + d) = wrapTo w (v + d) := by
  simp [wrapTo]

theorem wrap_idem (w : Nat) (v : Int) : wrapTo w (wrapTo w v) = wrapTo w v := by
  simpa using wrap_wrap_add w v 0

theorem uwrap_wrap (w : Nat) (v : Int) : uwrapTo w (wrapTo w v) = uwrapTo w v := by
  simp only [uwrapTo, wrapTo]; push_cast
  rw [show ((2:Int)^w) = ((2^w : Nat) : Int) by push_cast; rfl, Int.bmod_emod]

theorem uwrap_lt (w : Nat) (v : Int) : uwrapTo w v < 2^w := by
  have := Int.emod_lt_of_pos v (b := ((2^w : Nat) : Int)) (by positivity)
  have h2 := Int.emod_nonneg v (b := ((2^w : Nat) : Int)) (by positivity)
  unfold uwrapTo; omega

theorem uwrap_nat (w n : Nat) (h : n < 2^w) : uwrapTo w (n : Int) = n := by
  unfold uwrapTo
  rw [← Int.natCast_mod, Int.toNat_natCast, Nat.mod_eq_of_lt h]

theorem wrap_uwrap (w : Nat) (v : Int) : wrapTo w (uwrapTo w v : Nat) = wrapTo w v := by
  have h2 := Int.emod_nonneg v (b := ((2^w : Nat) : Int)) (by positivity)
  unfold uwrapTo wrapTo
  rw [Int.toNat_of_nonneg h2]
  simp [Int.bmod_def, Int.emod_emod_of_dvd]

/-- A byte of a mixture is that byte of one of the two. -/
theorem mix_byte (n mask u0 u1 k : Nat) (hk : k < n) : byteAt k (mixBytes n mask u0 u1) = if (mask / 2^k) % 2 = 1 then byteAt k u1 else byteAt k u0 := by
  induction n generalizing mask u0 u1 k with
  | zero => omega
  | succ n ih =>
    cases k with
    | zero => simp [mixBytes, byteAt]; split <;> omega
    | succ k =>
      have e : byteAt (k+1) (mixBytes (n+1) mask u0 u1) = byteAt k (mixBytes n (mask/2) (u0/256) (u1/256)) := by
        simp only [byteAt, mixBytes, Nat.pow_succ']
        rw [← Nat.div_div_eq_div_mul]
        congr 2
        split <;> omega
      rw [e, ih _ _ _ _ (by omega)]
      simp only [byteAt, Nat.pow_succ', Nat.div_div_eq_div_mul]

theorem mix_lt (n mask u0 u1 : Nat) : mixBytes n mask u0 u1 < 256^n := by
  induction n generalizing mask u0 u1 with
  | zero => simp [mixBytes]
  | succ n ih =>
    have := ih (mask/2) (u0/256) (u1/256)
    simp only [mixBytes, Nat.pow_succ]
    split <;> omega

theorem mix_lt2 (n w mask u0 u1 : Nat) (h0 : u0 < 2^w) (h1 : u1 < 2^w) : mixBytes n mask u0 u1 < 2^w := by
  induction n generalizing w mask u0 u1 with
  | zero => simp [mixBytes]
  | succ n ih =>
    simp only [mixBytes]
    by_cases hw : 8 ≤ w
    · obtain ⟨v, rfl⟩ : ∃ v, w = v + 8 := ⟨w - 8, by omega⟩
      rw [Nat.pow_add] at *
      have := ih v (mask/2) (u0/256) (u1/256) (by omega) (by omega)
      split <;> omega
    · have hle : 2^w ≤ 2^8 := Nat.pow_le_pow_right (by norm_num) (by omega)
      have := ih 0 (mask/2) (u0/256) (u1/256) (by omega) (by omega)
      split <;> omega

/-- Numbers are equal when their bytes are. -/
theorem bytes_ext (n a b : Nat) (ha : a < 256^n) (hb : b < 256^n) (h : ∀ k < n, byteAt k a = byteAt k b) : a = b := by
  induction n generalizing a b with
  | zero => simp at ha hb; omega
  | succ n ih =>
    have h0 := h 0 (by omega)
    simp [byteAt] at h0
    have : a / 256 = b / 256 := by
      apply ih
      · rw [Nat.pow_succ] at ha; omega
      · rw [Nat.pow_succ] at hb; omega
      · intro k hk
        have := h (k+1) (by omega)
        simpa [byteAt, Nat.pow_succ', Nat.div_div_eq_div_mul] using this
    omega

/-- There is a mask for every choice of bytes. -/
theorem mask_exists (n : Nat) (P : Nat → Prop) : ∃ mask, ∀ k < n, ((mask / 2^k) % 2 = 1 ↔ P k) := by
  classical
  induction n generalizing P with
  | zero => exact ⟨0, by simp⟩
  | succ n ih =>
    obtain ⟨m, hm⟩ := ih (fun k => P (k+1))
    refine ⟨2 * m + if P 0 then 1 else 0, fun k hk => ?_⟩
    cases k with
    | zero => by_cases h : P 0 <;> simp [h]
    | succ k =>
      rw [Nat.pow_succ', ← Nat.div_div_eq_div_mul, ← hm k (by omega)]
      have : (2 * m + if P 0 then 1 else 0) / 2 = m := by split <;> omega
      rw [this]

/-- A racing read of positions of the width is one. -/
theorem fits_torn {md : TornRead} {w m : Nat} {v0 v1 : Int} (hw : 2 ≤ w) (h0 : fitsWidth w v0) (h1 : fitsWidth w v1) : fitsWidth w (tornValue md w m v0 v1) := by
  unfold tornValue
  split
  · split <;> assumption
  · exact fits_wrap _ hw

end Sys2Proof.Machine
end

