-- ==== Sys2Proof/Laws/Encoders.lean ====
section
/-! SUPPORT. Encoders after one is rewritten, and the phase decoder (40_encoder.md R100, R103). -/

namespace Sys2Proof.Machine

open Sys2Proof

theorem encoder_modEncoder (s : State) (e : Nat) (f : Encoder → Encoder) (e' : Nat) :
   (s.modEncoder e f).encoder e' = if e' = e ∧ e < s.enc.length then f (s.encoder e') else s.encoder e' := by
  by_cases h : e' = e
  · subst h
    by_cases hl : e' < s.enc.length
    · simp [hl, encoder_modEncoder_self s f hl]
    · simp [hl, State.encoder]
  · simp [h, encoder_modEncoder_ne s f h]

theorem delta_same (p : BitVec 2) : delta p p = 0 := by revert p; decide

theorem delta_cases : ∀ p n : BitVec 2, delta p n = (if isForward (p,n) then 1 else 0) - (if isBackward (p,n) then 1 else 0) := by decide

/-- A second evaluation changes nothing (40_encoder.md R107). -/
theorem tick_tick (w : Nat) (x : Encoder) : tickEncoder w (tickEncoder w x) = tickEncoder w x := by
  have : (tickEncoder w x).phase = x.phase := rfl
  simp only [tickEncoder] at this ⊢
  simp [Encoder.phase, delta_same, wrap_idem]

/-- An encoder command leaves everything but its encoder. -/
theorem encoderOnly_modEncoder (s : State) (e : Nat) (f : Encoder → Encoder) (r : Word) : EncoderOnly e s ((s.modEncoder e f).respond r) where
  inputs := ⟨rfl,rfl,rfl,rfl,rfl,rfl,rfl,rfl,rfl⟩
  count := by simp
  others e' h := by rw [encoder_congr (respond_enc _ r)]; exact encoder_modEncoder_ne s f h
  grp := rfl
  pin := rfl
  mot := rfl
  clock := rfl

end Sys2Proof.Machine
end

