-- ==== Sys2Proof/Laws/Invariants.lean ====
section
/-! SUPPORT. The invariant of Safety.lean through each shared operation. -/

namespace Sys2Proof.Machine

open Sys2Proof

/-- The parts of well-formed parameters that proofs use. -/
theorem Config.wf_parts {c : Config} (h : c.wf = true) : 2 ≤ c.posWidth ∧ c.pinTargetsExist = true ∧ c.pinMapInjective = true ∧
   (∀ mc ∈ c.motors, mc.wiring.wf c.nPins = true ∧ mc.encOf < c.nEnc) ∧ 1 ≤ c.nEnc ∧ (∀ g ∈ c.groups, g.wf = true) ∧ 1 ≤ c.seedPower ∧ c.seedPower ≤ 255 := by
  simp only [Config.wf, Bool.and_eq_true, decide_eq_true_eq, List.all_eq_true] at h
  refine ⟨by tauto, by tauto, by tauto, h.1.1.1.1.1.2, by tauto, by tauto, by tauto, by tauto⟩

/-- The invariant reads only these fields. -/
theorem inv_congr {s t : State} (h : s.Inv) (hc : t.cfg = s.cfg) (he : t.enc = s.enc) (hg : t.grp = s.grp) (hp : t.pin = s.pin) (hm : t.mot = s.mot)
   (hl : ∀ r, t.lastEdge = some r → fitsWidth s.cfg.posWidth r.before) (hr : ∀ r, t.race = some r → fitsWidth s.cfg.posWidth r.before) : t.Inv := by
  refine ⟨hc ▸ h.cfg, by rw [he, hc]; exact h.encLength, by rw [hg, hc]; exact h.grpLength, by rw [hp, hc]; exact h.pinLength, by rw [hm, hc]; exact h.motLength, by rw [he, hc]; exact h.positions, by rw [hg, hc]; exact h.groups, ?_, by rw [hm, hc]; exact h.motors, by rw [hc]; exact hl, by rw [hc]; exact hr⟩
  intro p x hx
  have := h.pins p x (hp ▸ hx)
  unfold pinInv at *
  rw [hc]
  simp only [channel?_congr hg]
  exact this

theorem inv_modEncoder {s : State} (h : s.Inv) (e : Nat) (f : Encoder → Encoder) (hf : ∀ x, fitsWidth s.cfg.posWidth x.pos → fitsWidth s.cfg.posWidth (f x).pos) : (s.modEncoder e f).Inv := by
  refine ⟨h.cfg, by simpa using h.encLength, h.grpLength, h.pinLength, h.motLength, ?_, h.groups, h.pins, h.motors, h.record, h.race⟩
  intro x hx
  obtain ⟨i, hi⟩ := List.getElem?_of_mem hx
  simp only [modEncoder_enc, List.getElem?_modify] at hi
  cases hy : s.enc[i]? with
  | none => simp [hy] at hi
  | some y =>
    have := h.positions y (List.mem_of_getElem? hy)
    simp [hy] at hi
    split at hi
    · rw [← hi]; exact hf y this
    · rw [← hi]; exact this

theorem inv_modMotor {s : State} (h : s.Inv) (m : Nat) (f : Motor → Motor) (hf : ∀ x, Motor.Inv s.cfg.posWidth x → Motor.Inv s.cfg.posWidth (f x)) : (s.modMotor m f).Inv := by
  refine ⟨h.cfg, h.encLength, h.grpLength, h.pinLength, by simpa using h.motLength, h.positions, h.groups, h.pins, ?_, h.record, h.race⟩
  intro x hx
  obtain ⟨i, hi⟩ := List.getElem?_of_mem hx
  simp only [modMotor_mot, List.getElem?_modify] at hi
  cases hy : s.mot[i]? with
  | none => simp [hy] at hi
  | some y =>
    have := h.motors y (List.mem_of_getElem? hy)
    simp [hy] at hi
    split at hi
    · rw [← hi]; exact hf y this
    · rw [← hi]; exact this

/-- A change of outputs that keeps channels and pins as they must be. -/
theorem inv_units {s t : State} (h : s.Inv) (hin : SameInputs s t) (henc : t.enc = s.enc) (hgl : t.grp.length = s.grp.length) (hset : ∀ g, (t.group? g).map groupSettings = (s.group? g).map groupSettings)
  (hcc : ∀ g, (t.group? g).map (fun x => x.chans.length) = (s.group? g).map (fun x => x.chans.length)) (hpl : t.pin.length = s.pin.length) (hm : t.mot = s.mot)
   (hch : ∀ g c ch, t.channel? g c = some ch → Channel.Inv (s.top g) ch)
   (hp : ∀ p x, t.pin[p]? = some x → pinInv t p x) : t.Inv := by
  refine ⟨hin.cfg ▸ h.cfg, by rw [henc, hin.cfg]; exact h.encLength, by rw [hgl, hin.cfg]; exact h.grpLength, by rw [hpl, hin.cfg]; exact h.pinLength, by rw [hm, hin.cfg]; exact h.motLength, by rw [henc, hin.cfg]; exact h.positions, ?_, hp, by rw [hm, hin.cfg]; exact h.motors, by rw [hin.lastEdge, hin.cfg]; exact h.record, by rw [hin.race, hin.cfg]; exact h.race⟩
  intro g gc x hgc hx
  rw [hin.cfg] at hgc
  have hset := hset g
  have hcnt := hcc g
  have hx' : t.group? g = some x := hx
  cases hy : s.group? g with
  | none => simp [hx', hy] at hset
  | some y =>
    have hI := h.groups g gc y hgc hy
    simp [hx', hy, groupSettings] at hset hcnt
    obtain ⟨e1, e2, e3, e4⟩ := hset
    refine ⟨by rw [hcnt]; exact hI.1, by rw [e2]; exact hI.2.1, ?_, by rw [e1, e2, e3, e4]; exact hI.2.2.2⟩
    intro ch hc
    obtain ⟨i, hi⟩ := List.getElem?_of_mem hc
    have : t.channel? g i = some ch := by rw [channel?_eq, hx']; simpa using hi
    have := hch g i ch this
    rw [e2]
    simpa [top_eq, hy] using this

theorem inv_outputs {s t : State} {ps : List Nat} (h : s.Inv) (ho : OutputsOnly ps s t) (hm : t.mot = s.mot)
   (hch : ∀ g c ch, t.channel? g c = some ch → Channel.Inv (s.top g) ch)
   (hp : ∀ p x, t.pin[p]? = some x → pinInv t p x) : t.Inv :=
  inv_units h ho.inputs ho.enc ho.grp.count ho.grp.settings ho.grp.chanCount ho.pin.count hm hch hp

theorem channel_inv {s : State} (h : s.Inv) {g c : Nat} {ch : Channel} (hc : s.channel? g c = some ch) : Channel.Inv (s.top g) ch := by
  rw [channel?_eq] at hc
  cases hg : s.group? g with
  | none => simp [hg] at hc
  | some x =>
    simp [hg] at hc
    have hlt : g < s.cfg.groups.length := by rw [← h.grpLength]; exact (List.getElem?_eq_some_iff.mp hg).1
    have := (h.groups g _ x (List.getElem?_eq_getElem hlt) hg).2.2.1 ch (List.mem_of_getElem? hc)
    simpa [top_eq, hg] using this

theorem inv_forceLevel {s : State} (h : s.Inv) (p : Nat) (l : Level) : (forceLevel p l s).Inv := by
  have ho := forceLevel_frame p l s
  refine inv_outputs h ho (forceLevel_kept p l s).mot ?_ ?_
  · intro g c ch hc
    rw [forceLevel_channel?] at hc
    split at hc
    · cases hy : s.channel? g c with
      | none => simp [hy] at hc
      | some y => simp [hy] at hc; subst hc; exact (channel_inv h hy : Channel.Inv _ y)
    · exact channel_inv h hc
  · intro q x hx
    have hx' : (forceLevel p l s).pin? q = some x := hx
    rw [forceLevel_pin?] at hx'
    by_cases hpq : p = q
    · subst hpq
      simp only [if_true] at hx'
      have hd : x.drive = .latch := by
        cases hy : s.pin? p with
        | none => simp [hy] at hx'
        | some y => simp [hy] at hx'; rw [← hx']
      refine ⟨fun g c ch ht hc => ?_, fun _ => by simp [hd], fun v hv => by simp [hd] at hv⟩
      rw [ho.inputs.cfg] at ht
      rw [forceLevel_channel?, if_pos ht] at hc
      cases hy : s.channel? g c with
      | none => simp [hy] at hc
      | some y => simp [hy] at hc; subst hc; simp [hd]
    · rw [if_neg hpq] at hx'
      have := h.pins q x hx'
      unfold pinInv at *
      rw [ho.inputs.cfg]
      refine ⟨fun g c ch ht hc => ?_, this.2⟩
      have hne : s.cfg.timerOf p ≠ some (g, c) := fun hh => hpq (pinMap_injective (Config.wf_parts h.cfg).2.2.1 hh ht)
      rw [forceLevel_channel?, if_neg hne] at hc
      exact this.1 g c ch ht hc

theorem inv_dutyCore {s : State} (h : s.Inv) (g c : Nat) {d : Nat} (hd : d < 256) : (dutyCore g c d s).Inv := by
  have hi := (Config.wf_parts h.cfg).2.2.1
  have hcfg : (dutyCore g c d s).cfg = s.cfg := (dutyCore_inputs ..).cfg
  refine inv_units h (dutyCore_inputs ..) ?_ ?_ (fun g' => (dutyCore_group? g c d g' s).1) (fun g' => (dutyCore_group? g c d g' s).2) ?_ (dutyCore_kept ..).mot ?_ ?_
  · unfold dutyCore; split <;> rfl
  · unfold dutyCore; split <;> simp [State.modChannel, setOen, setDrive]
  · unfold dutyCore; split <;> simp [State.modChannel, setOen, setDrive]
  · intro g' c' ch hc
    rw [dutyCore_channel?] at hc
    split at hc
    · next e =>
      cases hy : s.channel? g' c' with
      | none => simp [hy] at hc
      | some y =>
        simp [hy] at hc; subst hc
        simp [Channel.Inv, e.1, Nat.mod_eq_of_lt hd]
    · exact channel_inv h hc
  · intro q x hx
    have hx' : (dutyCore g c d s).pin? q = some x := hx
    rw [dutyCore_pin?] at hx'
    by_cases hq : s.cfg.pinOf g c = some q
    · have htq := timerOf_of_pinOf hq
      rw [if_pos hq] at hx'
      have hdr : x.drive = .timer := by
        cases hy : s.pin? q with
        | none => simp [hy] at hx'
        | some y => simp [hy] at hx'; rw [← hx']
      unfold pinInv
      rw [hcfg]
      refine ⟨fun g' c' ch ht hc => ?_, ?_, ?_⟩
      rotate_left
      · intro hn; rw [htq] at hn; cases hn
      · intro v hv; rw [hdr] at hv; cases hv
      rw [htq] at ht; cases ht
      rw [dutyCore_channel?, if_pos ⟨rfl, rfl⟩] at hc
      cases hy : s.channel? g c with
      | none => simp [hy] at hc
      | some y => simp [hy] at hc; subst hc; simp [hdr]
    · rw [if_neg hq] at hx'
      have := h.pins q x hx'
      unfold pinInv at *
      rw [hcfg]
      refine ⟨fun g' c' ch ht hc => ?_, this.2⟩
      have hne : ¬ (g = g' ∧ c = c') := by
        rintro ⟨rfl, rfl⟩
        exact hq (pinOf_of_timerOf hi ht)
      rw [dutyCore_channel?, if_neg hne] at hc
      exact this.1 g' c' ch ht hc

theorem inv_genericDuty {s : State} (h : s.Inv) (p : Nat) {v : Nat} (ht : s.cfg.timerOf p = none) (h0 : v ≠ 0) (h1 : v < 255) : (genericDuty p v s).Inv := by
  refine inv_outputs h (genericDuty_frame p v s) rfl ?_ ?_
  · intro g c ch hc
    exact channel_inv h (by rw [← hc]; exact (channel?_congr rfl g c).symm)
  · intro q x hx
    have hx' : (genericDuty p v s).pin? q = some x := hx
    rw [genericDuty, setDrive, pin?_modPin] at hx'
    have hchan : ∀ g c, (genericDuty p v s).channel? g c = s.channel? g c := fun g c => channel?_congr rfl g c
    unfold pinInv
    simp only [hchan]
    show (∀ g c ch, s.cfg.timerOf q = _ → _) ∧ (s.cfg.timerOf q = none → _) ∧ ∀ v, _ → s.cfg.timerOf q = none ∧ _
    by_cases hpq : p = q
    · subst hpq
      simp only [if_true] at hx'
      have hdr : x.drive = .generic (BitVec.ofNat 8 v) := by
        cases hy : s.pin? p with
        | none => simp [hy] at hx'
        | some y => simp [hy] at hx'; rw [← hx']
      refine ⟨?_, ?_, fun w hw => ⟨ht, ?_⟩⟩
      · intro g c ch hh; rw [ht] at hh; cases hh
      · intro _; simp [hdr]
      rw [hdr] at hw; cases hw
      constructor <;> intro e <;> have := congrArg BitVec.toNat e <;> simp at this <;> omega
    · rw [if_neg hpq] at hx'
      exact h.pins q x hx'

theorem inv_aWriteCore {s : State} (h : s.Inv) (p : Nat) {v : Nat} (hv : v < 256) : (aWriteCore p v s).Inv := by
  unfold aWriteCore
  split
  · exact h
  split
  · exact inv_forceLevel h p .low
  split
  · exact inv_forceLevel h p .high
  · next h0 h1 =>
    cases ht : s.cfg.timerOf p with
    | none => exact inv_genericDuty h p ht h0 (by omega)
    | some gc => exact inv_dutyCore h gc.1 gc.2 hv

theorem inv_assertDirection {s : State} (h : s.Inv) (w : Wiring) (f : Bool) : (assertDirection w f s).Inv := by
  cases w with
  | dual a b => cases f <;> exact inv_forceLevel (inv_forceLevel h _ _) _ _
  | dirPwm d p en => cases en <;> first | exact inv_forceLevel (inv_forceLevel h _ _) _ _ | exact inv_forceLevel h _ _

theorem inv_deEnergize {s : State} (h : s.Inv) (w : Wiring) : (deEnergize w s).Inv := by
  cases w with
  | dual a b => exact inv_forceLevel (inv_forceLevel h _ _) _ _
  | dirPwm d p en => cases en <;> first | exact inv_forceLevel (inv_forceLevel h _ _) _ _ | exact inv_forceLevel h _ _

theorem clampPower_le (v : Int) : clampPower v ≤ 255 := by unfold clampPower clamp; omega

theorem inv_setPowerCore {s : State} (h : s.Inv) (m : Nat) (w : Wiring) (pw : Int) : (setPowerCore m w pw s).Inv := by
  have h1 := inv_modMotor h m (fun x => { x with power := BitVec.ofNat 8 (clampPower pw) }) (fun x hx => hx)
  simp only [setPowerCore]
  split
  · exact inv_deEnergize h1 w
  split
  · exact h1
  · have := clampPower_le pw
    exact inv_aWriteCore h1 _ (by split <;> omega)

theorem inv_stopMotor {s : State} (h : s.Inv) (m : Nat) (w : Wiring) : (stopMotor m w s).Inv :=
  inv_deEnergize (inv_modMotor h m (fun x => { x with regulated := false, power := 0, dir := .stopped }) (fun x hx => ⟨hx.1, hx.2.1, by simp⟩)) w

theorem inv_goMotor {s : State} (h : s.Inv) (m : Nat) (w : Wiring) (f : Bool) (pw : Int) : (goMotor m w f pw s).Inv :=
  inv_setPowerCore (inv_assertDirection (inv_modMotor h m (fun x => { x with regulated := false, dir := if f then .forward else .backward }) (fun x hx => ⟨hx.1, hx.2.1, by simp⟩)) w f) m w pw

theorem inv_tickClock {s : State} (h : s.Inv) : s.tickClock.Inv := inv_congr h rfl rfl rfl rfl rfl h.record h.race

theorem inv_respond {s : State} (h : s.Inv) (r : Word) : (s.respond r).Inv := inv_congr h rfl rfl rfl rfl rfl h.record h.race

theorem encoder_pos_fits {s : State} (h : s.Inv) (e : Nat) : fitsWidth s.cfg.posWidth (s.encoder e).pos := by
  rw [State.encoder, List.getD_eq_getElem?_getD]
  cases he : s.enc[e]? with
  | none => exact fits_zero _
  | some x => exact h.positions x (List.mem_of_getElem? he)

theorem readPos_fits {s : State} (h : s.Inv) (e : Nat) : fitsWidth s.cfg.posWidth (s.readPos e) := by
  unfold State.readPos
  split
  · exact encoder_pos_fits h e
  · next r hr =>
    split
    · exact fits_torn (Config.wf_parts h.cfg).1 (h.race r hr) (encoder_pos_fits h e)
    · exact encoder_pos_fits h e

theorem inv_startRegulation {s : State} (h : s.Inv) (m : Nat) (w : Wiring) (rate g p : Int) (hg : fitsWidth s.cfg.posWidth g) (hp : fitsWidth s.cfg.posWidth p) : (startRegulation m w rate g p s).Inv := by
  have h1 : (s.tickClock.modMotor m (fun x => { x with goal := g, tps := BitVec.ofInt 32 rate, lastT := s.nowMillis, lastPos := p })).Inv :=
    inv_modMotor (inv_tickClock h) m _ (fun x hx => ⟨hg, hp, hx.2.2⟩)
  have h2 := inv_goMotor h1 m w (decide (p < g)) s.cfg.seedPower
  -- setRegulated true needs a direction
  have hmot := (startRegulation_mot m w rate g p s).1
  have hcfg := (startRegulation_inputs m w rate g p s).cfg
  refine ⟨by rw [hcfg]; exact h.cfg, h2.encLength, h2.grpLength, h2.pinLength, by rw [hmot, hcfg]; simpa using h.motLength, h2.positions, h2.groups, h2.pins, ?_, h2.record, h2.race⟩
  rw [hmot, hcfg]
  have := (inv_modMotor h m (fun _ => { dir := if p < g then .forward else .backward, power := BitVec.ofNat 8 (clampPower s.cfg.seedPower), regulated := true, goal := g, tps := BitVec.ofInt 32 rate, lastT := s.nowMillis, lastPos := p }) (fun x hx => ⟨hg, hp, by intro _; show (if _ then _ else _) ≠ _; split <;> simp⟩)).motors
  simpa using this

theorem inv_checkMotor {s : State} (h : s.Inv) (m : Nat) (mc : MotorConfig) (now : Nat) : (checkMotor m mc now s).Inv := by
  simp only [checkMotor]
  split
  · split
    · exact inv_stopMotor h m _
    split
    · exact h
    · refine inv_modMotor (inv_setPowerCore h m _ _) m _ (fun x hx => ⟨hx.1, ?_, hx.2.2⟩)
      rw [(setPowerCore_inputs ..).cfg]; exact readPos_fits h _
  · exact h

theorem inv_setPinOutput {s : State} (h : s.Inv) (p : Nat) : (setPinOutput p s).Inv := by
  refine ⟨h.cfg, h.encLength, h.grpLength, by simpa [setPinOutput] using h.pinLength, h.motLength, h.positions, h.groups, ?_, h.motors, h.record, h.race⟩
  intro q x hx
  have hx' : (setPinOutput p s).pin? q = some x := hx
  rw [setPinOutput, pin?_modPin] at hx'
  split at hx'
  · cases hy : s.pin? q with
    | none => simp [hy] at hx'
    | some y => simp [hy] at hx'; subst hx'; exact (h.pins q y hy : _)
  · exact h.pins q x hx'

theorem inv_programGroup {s : State} (h : s.Inv) (g ps t f : Nat) {gc : GroupConfig} (hgc : s.cfg.groups[g]? = some gc)
    (hps : ps ∈ gc.prescalers) (h3 : topMin < t) (h4 : t ≤ gc.width.topMax) (hf : BitVec.ofNat 32 f ≠ 0) :
    (programGroup g ps t f s).Inv := by
  have hgrp : (programGroup g ps t f s) = s.modGroup g (fun x => ⟨BitVec.ofNat 32 f, t, .prescaler ps, .pwm,
      x.chans.map (fun ch => { ch with cmp := scale t ch.duty.toNat })⟩) := by
    simp [programGroup, startClock, writeModeFreq, restoreDuties, writeTop, stopClock, State.modGroup, List.modify_modify_eq,
      Function.comp_def]
  rw [hgrp]
  refine ⟨h.cfg, h.encLength, by simpa using h.grpLength, h.pinLength, h.motLength, h.positions, ?_, ?_, h.motors, h.record,
    h.race⟩
  · intro g' gc' x hg' hx
    have hx' : (s.modGroup g (fun x => (⟨BitVec.ofNat 32 f, t, .prescaler ps, .pwm,
        x.chans.map (fun ch => { ch with cmp := scale t ch.duty.toNat })⟩ : Group))).group? g' = some x := hx
    rw [group?_modGroup] at hx'
    by_cases e : g = g'
    · subst e
      rw [if_pos rfl] at hx'
      have hg' : s.cfg.groups[g]? = some gc' := hg'
      rw [hgc] at hg'; cases hg'
      cases hy : s.group? g with
      | none => simp [hy] at hx'
      | some y =>
        simp [hy] at hx'; subst hx'
        refine ⟨by simpa using (h.groups g gc y hgc hy).1, h4, ?_, .inr ⟨hf, h3, ⟨ps, hps, rfl⟩, rfl⟩⟩
        intro ch hch; simp at hch; obtain ⟨a, -, rfl⟩ := hch; rfl
    · rw [if_neg e] at hx'
      exact h.groups g' gc' x hg' hx'
  · intro p x hx
    have := h.pins p x hx
    unfold pinInv at *
    refine ⟨fun g' c' ch ht hc => ?_, this.2⟩
    rw [channel?_eq, group?_modGroup] at hc
    by_cases e : g = g'
    · subst e
      rw [if_pos rfl] at hc
      cases hy : s.group? g with
      | none => simp [hy] at hc
      | some y =>
        simp [hy] at hc
        obtain ⟨a, ha, rfl⟩ := hc
        exact this.1 g c' a ht (by rw [channel?_eq, hy]; simpa using ha)
    · rw [if_neg e] at hc; exact this.1 g' c' ch ht hc

end Sys2Proof.Machine
end

