-- ==== Sys2Proof/Laws/Motors.lean ====
section
/-! SUPPORT. The motor operations: what they leave on the pins (42_motor.md R182 to R189, R193), and the pin modes of boot. -/

namespace Sys2Proof.Machine

open Sys2Proof

theorem modify_eq_self {α} {l : List α} {n : Nat} {f : α → α} (h : ∀ x, l[n]? = some x → f x = x) : l.modify n f = l := by
  apply List.ext_getElem?
  intro i
  rw [List.getElem?_modify]
  by_cases hn : n = i
  · subst hn; cases hi : l[n]? with
    | none => simp
    | some x => simp [h x hi]
  · simp [hn]

/-- Forcing a pin that is forced already changes nothing. -/
theorem forceLevel_of_forced {s : State} {p : Nat} {l : Level} (h : s.forced p l) : forceLevel p l s = s := by
  obtain ⟨⟨x, hx, hd, hl⟩, hc⟩ := h
  have hdis : disconnect p s = s := by
    unfold disconnect
    cases ht : s.cfg.timerOf p with
    | none => rfl
    | some gc =>
      obtain ⟨g, c⟩ := gc
      obtain ⟨ch, hch, ho⟩ := hc g c ht
      simp only [setOen, State.modChannel, State.modGroup]
      rw [modify_eq_self]
      intro y hy
      rw [modify_eq_self]
      intro z hz
      have : s.channel? g c = some z := by rw [State.channel?, hy]; simpa using hz
      rw [this] at hch; cases hch
      cases ch; simp_all
  unfold forceLevel
  rw [hdis]
  have e1 : setDrive p .latch s = s := by
    simp only [setDrive, State.modPin]
    rw [modify_eq_self]
    intro y hy
    have : s.pin? p = some y := hy
    rw [this] at hx; cases hx
    cases x; simp_all
  rw [e1]
  simp only [writePin, State.modPin]
  rw [modify_eq_self]
  intro y hy
  have : s.pin? p = some y := hy
  rw [this] at hx; cases hx
  cases x; simp_all

theorem deEnergize_of_deEnergized {s : State} {w : Wiring} (h : s.deEnergized w) : deEnergize w s = s := by
  cases w with
  | dual a b => simp only [deEnergize]; rw [forceLevel_of_forced h.1, forceLevel_of_forced h.2]
  | dirPwm d p en =>
    cases en with
    | none => exact forceLevel_of_forced h.1
    | some e => simp only [deEnergize]; rw [forceLevel_of_forced (h.2 e rfl), forceLevel_of_forced h.1]

theorem motor_index_lt {s : State} (h : s.Inv) {m : Nat} {mc : MotorConfig} (hm : s.cfg.motors[m]? = some mc) : m < s.mot.length := by
  rw [h.motLength]; exact (List.getElem?_eq_some_iff.mp hm).1

theorem motor_of_mot {s t : State} {m : Nat} {f : Motor → Motor} (h : t.mot = s.mot.modify m f) (hl : m < s.mot.length) : t.motor m = f (s.motor m) := by
  have := motor_modMotor_self s f hl
  rw [← this]; simp [State.motor, h]

theorem motor_of_mot_ne {s t : State} {m m' : Nat} {f : Motor → Motor} (h : t.mot = s.mot.modify m' f) (hne : m ≠ m') : t.motor m = s.motor m := by
  rw [← motor_modMotor_ne s f hne]; simp [State.motor, h]

theorem motorOnly_of_mot {s t : State} {m : Nat} {w : Wiring} {f : Motor → Motor} (ho : OutputsOnly w.pins s t) (h : t.mot = s.mot.modify m f) : MotorOnly m w s t := by
  refine ⟨ho, by rw [h]; simp, fun m' hne => ?_⟩
  rw [← motor_modMotor_ne s f hne]; simp [State.motor, h]

theorem wiring_wf {s : State} (h : s.Inv) {m : Nat} {mc : MotorConfig} (hm : s.cfg.motors[m]? = some mc) : mc.wiring.wf s.cfg.nPins = true :=
  ((Config.wf_parts h.cfg).2.2.2.1 mc (List.mem_of_getElem? hm)).1

theorem deEnergize_deEnergized {s : State} (w : Wired s) {wi : Wiring} (h : wi.wf s.cfg.nPins = true) : (deEnergize wi s).deEnergized wi := by
  cases wi with
  | dual a b => exact deEnergize_dual w h
  | dirPwm d p en => exact deEnergize_dirPwm w h

theorem stopMotor_deEnergized {m : Nat} {w : Wiring} {s : State} (hw : Wired s) (h : w.wf s.cfg.nPins = true) : (stopMotor m w s).deEnergized w := by
  have hw' : Wired (s.modMotor m (fun x => { x with regulated := false, power := 0, dir := .stopped })) := (OutputsOnly.modMotor [] s m _).wired hw
  cases w with
  | dual a b => exact deEnergize_dual hw' h
  | dirPwm d p en => exact deEnergize_dirPwm hw' h

theorem deEnergized_of_outputsOnly {ps : List Nat} {w : Wiring} {s t : State} (h : OutputsOnly ps s t) (hi : s.cfg.pinMapInjective = true)
   (hp : ∀ p ∈ ps, p ∉ w.pins) (hd : s.deEnergized w) : t.deEnergized w := by
  have F : ∀ p ∈ w.pins, ∀ l, s.forced p l → t.forced p l := fun p hp' l hf => forced_of_outputsOnly h hi (fun hm => hp p hm hp') hf
  cases w with
  | dual a b => exact ⟨F a (by simp [Wiring.pins]) _ hd.1, F b (by simp [Wiring.pins]) _ hd.2⟩
  | dirPwm d p en =>
    cases en with
    | none => exact ⟨F p (by simp [Wiring.pins]) _ hd.1, by simp⟩
    | some e => exact ⟨F p (by simp [Wiring.pins]) _ hd.1, fun e' he => by cases he; exact F e (by simp [Wiring.pins]) _ (hd.2 e rfl)⟩

theorem ofNat_clampPower (pw : Int) : BitVec.ofNat 8 (clampPower pw) = BitVec.ofInt 8 (min (max pw 0) 255) := by
  have : ((clampPower pw : Nat) : Int) = min (max pw 0) 255 := by unfold clampPower clamp; omega
  rw [← this]; rfl

/-- SetPowerCore above 0 with a PWM pin (42_motor.md R185). -/
theorem setPowerCore_pin {s : State} (w : Wired s) {m : Nat} {wi : Wiring} (hwf : wi.wf s.cfg.nPins = true) {pw : Int} (hpc : clampPower pw ≠ 0) {q : Nat} {inv : Bool}
   (hq : powerPin wi (s.motor m).dir = some (q, inv)) :
   OutputsOnly [q] s (setPowerCore m wi pw s) ∧ (setPowerCore m wi pw s).carries q (if inv then 255 - clampPower pw else clampPower pw) := by
  have h1 := OutputsOnly.modMotor [q] s m (fun x => { x with power := BitVec.ofNat 8 (clampPower pw) })
  have w1 := h1.wired w
  have hdir : ((s.modMotor m (fun x => { x with power := BitVec.ofNat 8 (clampPower pw) })).motor m).dir = (s.motor m).dir := by
    by_cases hl : m < s.mot.length
    · rw [motor_modMotor_self s _ hl]
    · simp [State.motor, hl]
  have hlt : q < s.cfg.nPins := Wiring.pins_lt hwf (powerPin_mem hq)
  simp only [setPowerCore, hpc, if_false, hdir, hq]
  exact ⟨h1.trans (aWriteCore_frame q _ w1.injective), aWriteCore_carries w1 hlt⟩

/-- SetPowerCore at 0. -/
theorem setPowerCore_zero {s : State} {m : Nat} {wi : Wiring} {pw : Int} (hpc : clampPower pw = 0) :
   setPowerCore m wi pw s = deEnergize wi (s.modMotor m (fun x => { x with power := BitVec.ofNat 8 (clampPower pw) })) := by
  simp [setPowerCore, hpc]

/-- SetPowerCore above 0 with no PWM pin. -/
theorem setPowerCore_none {s : State} {m : Nat} {wi : Wiring} {pw : Int} (hpc : clampPower pw ≠ 0) (hq : powerPin wi (s.motor m).dir = none) :
   setPowerCore m wi pw s = s.modMotor m (fun x => { x with power := BitVec.ofNat 8 (clampPower pw) }) := by
  have hdir : ((s.modMotor m (fun x => { x with power := BitVec.ofNat 8 (clampPower pw) })).motor m).dir = (s.motor m).dir := by
    by_cases hl : m < s.mot.length
    · rw [motor_modMotor_self s _ hl]
    · simp [State.motor, hl]
  simp only [setPowerCore, hpc, if_false, hdir, hq]

/-- The pins as Go leaves them (42_motor.md R187). -/
theorem goMotor_driven {s : State} (hs : Wired s) {m : Nat} {wi : Wiring} (hwf : wi.wf s.cfg.nPins = true) (hl : m < s.mot.length) (f : Bool) (pw : Int) :
   (goMotor m wi f pw s).driven f (clampPower pw) wi := by
  have h1 := (OutputsOnly.modMotor [] s m (fun x => { x with regulated := false, dir := if f then .forward else .backward }))
  have w1 := h1.wired hs
  set s1 := s.modMotor m (fun x => { x with regulated := false, dir := if f then .forward else .backward }) with hs1
  have hd1 : (s1.motor m).dir = if f then .forward else .backward := by rw [hs1, motor_modMotor_self s _ hl]
  have ha := assertDirection_frame wi f s1
  have w2 := ha.wired w1
  have hwf2 : wi.wf (assertDirection wi f s1).cfg.nPins = true := by rw [ha.inputs.cfg]; exact hwf
  have hd2 : ((assertDirection wi f s1).motor m).dir = if f then .forward else .backward := by rw [motor_congr (assertDirection_kept wi f s1).mot, hd1]
  show (setPowerCore m wi pw (assertDirection wi f s1)).driven f (clampPower pw) wi
  have hm0 := (OutputsOnly.modMotor [] (assertDirection wi f s1) m (fun x => { x with power := BitVec.ofNat 8 (clampPower pw) }))
  cases wi with
  | dual a b =>
    have had := assertDirection_dual f w1 (a := a) (b := b) hwf
    have hnd : a ≠ b := by simpa [Wiring.pins] using Wiring.pins_nodup hwf
    simp only [State.driven]
    split
    · next hz =>
      rw [setPowerCore_zero hz]
      exact deEnergize_dual (hm0.wired w2) hwf2
    · next hz =>
      have hp := setPowerCore_pin w2 hwf2 (pw := pw) (m := m) hz (q := if f then b else a) (inv := true) (by rw [hd2]; cases f <;> rfl)
      refine ⟨forced_of_outputsOnly hp.1 w2.injective ?_ had.1, hp.2⟩
      cases f
      · simpa using Ne.symm hnd
      · simpa using hnd
  | dirPwm d p en =>
    have had := assertDirection_dirPwm f w1 (d := d) (p := p) (en := en) hwf
    have hnd := Wiring.pins_nodup hwf
    simp only [State.driven]
    by_cases hz : clampPower pw = 0
    · rw [setPowerCore_zero hz]
      refine ⟨?_, ?_⟩
      · refine forced_of_outputsOnly (deEnergize_dirPwm_frame d p en _) (hm0.wired w2).injective ?_ ?_
        · cases en <;> simp [Wiring.pins] at hnd ⊢ <;> tauto
        · exact forced_of_outputsOnly hm0 w2.injective (by simp) had.1
      · rw [if_pos hz]; exact deEnergize_dirPwm (hm0.wired w2) hwf2
    · have hp := setPowerCore_pin w2 hwf2 (pw := pw) (m := m) hz (q := p) (inv := false) rfl
      rw [if_neg hz]
      refine ⟨forced_of_outputsOnly hp.1 w2.injective ?_ had.1, hp.2, fun e he => forced_of_outputsOnly hp.1 w2.injective ?_ (had.2 e he)⟩
      · cases en <;> simp [Wiring.pins] at hnd ⊢ <;> tauto
      · subst he; simp [Wiring.pins] at hnd ⊢; tauto

theorem goalReached_iff (x : Motor) (p : Int) : goalReached x p = true ↔ atGoal x p := by
  unfold goalReached atGoal
  cases x.dir <;> simp

theorem elapsed_eq_uwrapTo (x : Motor) (now : Nat) : elapsed x now = uwrapTo 32 ((now : Int) - x.lastT.toNat) := by
  have := x.lastT.isLt
  simp only [elapsed, uwrapTo, BitVec.toNat_sub, BitVec.toNat_ofNat]
  omega

theorem setOutputs_spec (l : List Nat) (s : State) :
   (setOutputs l s).cfg = s.cfg ∧ (setOutputs l s).enc = s.enc ∧ (setOutputs l s).grp = s.grp ∧ (setOutputs l s).mot = s.mot ∧ (setOutputs l s).race = s.race ∧
   (setOutputs l s).lastEdge = s.lastEdge ∧ (setOutputs l s).bootPort = s.bootPort ∧
   ∀ p, (setOutputs l s).pin? p = if p ∈ l then (s.pin? p).map (fun x => { x with mode := .output }) else s.pin? p := by
  induction l generalizing s with
  | nil => exact ⟨rfl, rfl, rfl, rfl, rfl, rfl, rfl, fun p => by simp [setOutputs]⟩
  | cons a l ih =>
    obtain ⟨h1, h2, h3, h4, h5, h6, h7, h8⟩ := ih (setPinOutput a s)
    simp only [setOutputs]
    refine ⟨h1, h2, h3, h4, h5, h6, h7, fun p => ?_⟩
    rw [h8, setPinOutput, pin?_modPin]
    by_cases hp : p ∈ l
    · by_cases ha : a = p
      · subst ha; simp [hp, Function.comp_def]
      · simp [hp, ha]
    · by_cases ha : a = p
      · subst ha; simp [hp]
      · simp [hp, ha, Ne.symm ha]

end Sys2Proof.Machine
end

