-- ==== Sys2Proof/Laws/Duties.lean ====
section
/-! SUPPORT. Which stored duties and compare values the pin writes and the motor operations keep: a force write keeps all of them
(41_pwm.md R150), so a motor operation changes at most those behind the pin it modulates at 1 to 254 (R148). -/

namespace Sys2Proof.Machine

open Sys2Proof

/-! ### The frame -/

theorem DutiesKept.refl (ps : List Nat) (s : State) : DutiesKept ps s s := fun _ _ _ => rfl

theorem DutiesKept.of_grp {ps : List Nat} {s t : State} (h : t.grp = s.grp) : DutiesKept ps s t :=
  fun g c _ => by rw [channel?_congr h]

theorem DutiesKept.trans {ps : List Nat} {s t u : State} (hc : t.cfg = s.cfg) (h : DutiesKept ps s t) (k : DutiesKept ps t u) :
    DutiesKept ps s u :=
  fun g c hp => (k g c (by rw [hc]; exact hp)).trans (h g c hp)

/-- Where every duty is kept, those behind other pins are. -/
theorem DutiesKept.of_nil {ps : List Nat} {s t : State} (h : DutiesKept [] s t) : DutiesKept ps s t :=
  fun g c _ => h g c (by simp)

theorem DutiesKept.of_outputsOnly {ps : List Nat} {s t : State} (h : OutputsOnly ps s t) : DutiesKept ps s t :=
  fun g c hp => by rw [h.grp.channels g c hp]

/-! ### Pin writes -/

/-- A force write keeps every stored duty and compare value (41_pwm.md R150). -/
theorem forceLevel_duties (p : Nat) (l : Level) (s : State) : DutiesKept [] s (forceLevel p l s) := by
  intro g c _
  rw [forceLevel_channel?]
  split
  · cases s.channel? g c <;> rfl
  · rfl

/-- PWM.AWRITE changes the duty and the compare value of its pin's channel only, and only at 1 to 254 (41_pwm.md R148). -/
theorem aWriteCore_duties (p v : Nat) {s : State} (hc : s.cfg.pinMapInjective = true) :
    DutiesKept (if v = 0 ∨ v = 255 then [] else [p]) s (aWriteCore p v s) := by
  split
  · next h =>
    unfold aWriteCore
    by_cases hp : s.cfg.nPins ≤ p
    · rw [if_pos hp]; exact .refl _ s
    · rw [if_neg hp]
      by_cases h0 : v = 0
      · rw [if_pos h0]; exact forceLevel_duties p .low s
      · rw [if_neg h0, if_pos (h.resolve_left h0)]; exact forceLevel_duties p .high s
  · exact .of_outputsOnly (aWriteCore_frame p v hc)

/-! ### Motor operations -/

theorem deEnergize_duties (w : Wiring) (s : State) : DutiesKept [] s (deEnergize w s) := by
  match w with
  | .dual a b => exact (forceLevel_duties a .low s).trans (forceLevel_frame ..).inputs.cfg (forceLevel_duties b .low _)
  | .dirPwm _ p none => exact forceLevel_duties p .low s
  | .dirPwm _ p (some e) => exact (forceLevel_duties e .high s).trans (forceLevel_frame ..).inputs.cfg (forceLevel_duties p .low _)

theorem assertDirection_duties (w : Wiring) (fwd : Bool) (s : State) : DutiesKept [] s (assertDirection w fwd s) := by
  match w, fwd with
  | .dual a b, true => exact (forceLevel_duties a .high s).trans (forceLevel_frame ..).inputs.cfg (forceLevel_duties b .low _)
  | .dual a b, false => exact (forceLevel_duties b .high s).trans (forceLevel_frame ..).inputs.cfg (forceLevel_duties a .low _)
  | .dirPwm d _ none, f => exact forceLevel_duties d _ s
  | .dirPwm d _ (some e), f => exact (forceLevel_duties d _ s).trans (forceLevel_frame ..).inputs.cfg (forceLevel_duties e .low _)

/-- Above power 0 the power setter writes its PWM pin and nothing else (42_motor.md R185). -/
theorem setPowerCore_pos {m : Nat} {w : Wiring} {pw : Int} {s : State} {q : Nat} {inv : Bool} (hz : clampPower pw ≠ 0)
    (hq : powerPin w (s.motor m).dir = some (q, inv)) :
    setPowerCore m w pw s = aWriteCore q (if inv then 255 - clampPower pw else clampPower pw)
      (s.modMotor m (fun x => { x with power := BitVec.ofNat 8 (clampPower pw) })) := by
  have hdir : ((s.modMotor m (fun x => { x with power := BitVec.ofNat 8 (clampPower pw) })).motor m).dir = (s.motor m).dir := by
    by_cases hl : m < s.mot.length
    · rw [motor_modMotor_self s _ hl]
    · simp [State.motor, hl]
  simp only [setPowerCore, if_neg hz, hdir, hq]

/-- The power setter changes the duty and the compare value of the pin it modulates only (42_motor.md R185). -/
theorem setPowerCore_duties {m : Nat} {w : Wiring} {fwd : Bool} (pw : Int) {s : State} (hc : s.cfg.pinMapInjective = true)
    (hd : (s.motor m).dir = if fwd then .forward else .backward) :
    DutiesKept (modulated w fwd (clampPower pw)) s (setPowerCore m w pw s) := by
  by_cases hz : clampPower pw = 0
  · rw [setPowerCore_zero hz]
    exact .of_nil (deEnergize_duties w (s.modMotor m _))
  · have hle : clampPower pw ≤ 255 := by unfold clampPower clamp; omega
    cases w with
    | dual a b =>
      have hq : powerPin (.dual a b) (s.motor m).dir = some (if fwd then b else a, true) := by rw [hd]; cases fwd <;> rfl
      have h := aWriteCore_duties (if fwd then b else a) (255 - clampPower pw)
        (s := s.modMotor m (fun x => { x with power := BitVec.ofNat 8 (clampPower pw) })) hc
      have he : (255 - clampPower pw = 0 ∨ 255 - clampPower pw = 255) ↔ (clampPower pw = 0 ∨ clampPower pw = 255) := by omega
      simp only [he] at h
      rw [setPowerCore_pos hz hq]
      exact h
    | dirPwm d p en =>
      rw [setPowerCore_pos hz (q := p) (inv := false) rfl]
      exact aWriteCore_duties p (clampPower pw) (s := s.modMotor m _) hc

/-- At powers 0 and 255 the power setter makes force writes only (42_motor.md R185, 41_pwm.md R148). -/
theorem setPowerCore_duties_extreme {m : Nat} {w : Wiring} {pw : Int} {s : State} (hc : s.cfg.pinMapInjective = true)
    (hp : clampPower pw = 0 ∨ clampPower pw = 255) : DutiesKept [] s (setPowerCore m w pw s) := by
  rcases hp with hz | hz
  · rw [setPowerCore_zero hz]
    exact deEnergize_duties w (s.modMotor m _)
  · cases hq : powerPin w (s.motor m).dir with
    | none => rw [setPowerCore_none (by omega) hq]; exact .of_grp rfl
    | some x =>
      obtain ⟨q, inv⟩ := x
      have h := aWriteCore_duties q (if inv then 255 - clampPower pw else clampPower pw)
        (s := s.modMotor m (fun x => { x with power := BitVec.ofNat 8 (clampPower pw) })) hc
      rw [if_pos (by rw [hz]; cases inv <;> simp)] at h
      rw [setPowerCore_pos (by omega) hq]
      exact h

theorem stopMotor_duties (m : Nat) (w : Wiring) (s : State) : DutiesKept [] s (stopMotor m w s) :=
  deEnergize_duties w (s.modMotor m _)

theorem goMotor_duties {m : Nat} {w : Wiring} (fwd : Bool) (pw : Int) {s : State} (hc : s.cfg.pinMapInjective = true)
    (hl : m < s.mot.length) : DutiesKept (modulated w fwd (clampPower pw)) s (goMotor m w fwd pw s) := by
  let s1 := s.modMotor m (fun x => { x with regulated := false, dir := if fwd then .forward else .backward })
  have ha := assertDirection_frame w fwd s1
  have hd : ((assertDirection w fwd s1).motor m).dir = if fwd then .forward else .backward := by
    rw [motor_congr (assertDirection_kept w fwd s1).mot, motor_modMotor_self s _ hl]
  exact (DutiesKept.of_nil (assertDirection_duties w fwd s1)).trans ha.inputs.cfg
    (setPowerCore_duties pw (by rw [ha.inputs.cfg]; exact hc) hd)

theorem startRegulation_duties {m : Nat} {w : Wiring} (rate g p : Int) {s : State} (hc : s.cfg.pinMapInjective = true)
    (hl : m < s.mot.length) :
    DutiesKept (modulated w (decide (p < g)) (clampPower s.cfg.seedPower)) s (startRegulation m w rate g p s) :=
  goMotor_duties (s := s.tickClock.modMotor m _) (decide (p < g)) s.cfg.seedPower hc (by simpa using hl)

end Sys2Proof.Machine
end

