-- ==== Sys2Proof/Laws/Words.lean ====
section
/-! SUPPORT. The fields of a header, the opcode map, and operand words (30_encoding.md R81, R82, R88, R98). -/

namespace Sys2Proof

theorem opcField_eq (h : Word) : opcField h = h.toNat / 16777216 := by
  have := h.isLt
  simp only [opcField, BitVec.extractLsb'_toNat, Nat.shiftRight_eq_div_pow]
  omega

theorem idxField_eq (h : Word) : idxField h = h.toNat / 65536 % 256 := by
  simp [idxField, BitVec.extractLsb'_toNat, Nat.shiftRight_eq_div_pow]

theorem subField_eq (h : Word) : subField h = h.toNat / 256 % 256 := by
  simp [subField, BitVec.extractLsb'_toNat, Nat.shiftRight_eq_div_pow]

theorem imm8Field_eq (h : Word) : imm8Field h = h.toNat % 256 := by
  simp [imm8Field, BitVec.extractLsb'_toNat]

/-- A header is its four fields. -/
theorem toNat_eq_fields (h : Word) :
    h.toNat = opcField h * 16777216 + idxField h * 65536 + subField h * 256 + imm8Field h := by
  rw [opcField_eq, idxField_eq, subField_eq, imm8Field_eq]
  omega

theorem idxField_lt (h : Word) : idxField h < 256 := by rw [idxField_eq]; omega
theorem subField_lt (h : Word) : subField h < 256 := by rw [subField_eq]; omega
theorem imm8Field_lt (h : Word) : imm8Field h < 256 := by rw [imm8Field_eq]; omega

theorem code_lt (o : Opcode) : o.code < 256 := by cases o <;> decide

/-- The number of an opcode selects it (R88). -/
theorem ofCode_code (o : Opcode) : Opcode.ofCode o.code = some o := by cases o <;> rfl

theorem code_of_ofCode {n : Nat} {o : Opcode} (h : Opcode.ofCode n = some o) : o.code = n := by
  simpa using List.find?_some h

/-- Decoding a frame whose opcode is in the map, whose reserved bits are clear and whose operand words are there. -/
theorem decodeFrame_cons {h : Word} {o : Opcode} (ho : Opcode.ofCode (opcField h) = some o) (ws : List Word)
    (hr : o.format.reservedZero h = true) (hl : o.format.operandWords ≤ ws.length) :
    decodeFrame (h :: ws) =
      .ok (o.instr h (ws.getD 0 0) (ws.getD 1 0), ws.drop o.format.operandWords) := by
  simp only [decodeFrame, ho, hr, if_true]
  rw [if_neg (by omega)]

theorem header_eq (o : Opcode) (idx sub imm8 : Nat) :
    header o idx sub imm8 = BitVec.ofNat 32 (o.code * 16777216 + idx * 65536 + sub * 256 + imm8) := rfl

theorem fields_mod {k i s m : Nat} (hk : k < 256) (hi : i < 256) (hs : s < 256) (hm : m < 256) :
    (k * 16777216 + i * 65536 + s * 256 + m) % 2 ^ 32 = k * 16777216 + i * 65536 + s * 256 + m :=
  Nat.mod_eq_of_lt (by omega)

section header
variable {o : Opcode} {idx sub imm8 : Nat} (hi : idx < 256) (hs : sub < 256) (hm : imm8 < 256)
include hi hs hm

theorem header_toNat : (header o idx sub imm8).toNat = o.code * 16777216 + idx * 65536 + sub * 256 + imm8 := by
  rw [header_eq, BitVec.toNat_ofNat, fields_mod (code_lt o) hi hs hm]

theorem opcField_header : opcField (header o idx sub imm8) = o.code := by
  rw [opcField_eq, header_toNat hi hs hm]; omega

theorem idxField_header : idxField (header o idx sub imm8) = idx := by
  rw [idxField_eq, header_toNat hi hs hm]; omega

theorem subField_header : subField (header o idx sub imm8) = sub := by
  rw [subField_eq, header_toNat hi hs hm]; omega

theorem imm8Field_header : imm8Field (header o idx sub imm8) = imm8 := by
  rw [imm8Field_eq, header_toNat hi hs hm]; omega

/-- Decoding a frame whose header has the reserved bits of its format clear and whose operand words are there. -/
theorem decodeFrame_header (ws : List Word) (hr : o.format.reservedZero (header o idx sub imm8) = true)
    (hl : o.format.operandWords ≤ ws.length) :
    decodeFrame (header o idx sub imm8 :: ws) =
      .ok (o.instr (header o idx sub imm8) (ws.getD 0 0) (ws.getD 1 0), ws.drop o.format.operandWords) :=
  decodeFrame_cons (by rw [opcField_header hi hs hm, ofCode_code]) ws hr hl

end header

/-- A header is the header of its fields. -/
theorem header_fields {h : Word} {o : Opcode} (ho : Opcode.ofCode (opcField h) = some o) :
    header o (idxField h) (subField h) (imm8Field h) = h := by
  apply BitVec.eq_of_toNat_eq
  rw [header_toNat (idxField_lt h) (subField_lt h) (imm8Field_lt h), code_of_ofCode ho, ← toNat_eq_fields]

theorem toInt_ofInt_of_fits {v : Int} (h : fitsSigned v = true) : (BitVec.ofInt 32 v).toInt = v := by
  simp only [fitsSigned, Bool.and_eq_true, decide_eq_true_eq] at h
  rw [BitVec.toInt_ofInt, Int.bmod_eq_of_le] <;> omega

theorem toNat_ofNat_of_fits {n : Nat} (h : fitsUnsigned n = true) : (BitVec.ofNat 32 n).toNat = n := by
  simp only [fitsUnsigned, decide_eq_true_eq] at h
  simp only [BitVec.toNat_ofNat]
  omega

theorem fitsSigned_toInt (w : Word) : fitsSigned w.toInt = true := by
  have h1 := BitVec.toInt_lt (x := w)
  have h2 := BitVec.le_toInt (x := w)
  simp only [fitsSigned, Bool.and_eq_true, decide_eq_true_eq]
  omega

theorem fitsUnsigned_toNat (w : Word) : fitsUnsigned w.toNat = true := by
  have := w.isLt
  simpa [fitsUnsigned] using this

theorem flagField_of_sub {h : Word} {b : Bool} (hs : subField h = flagBit b) : flagField h = b := by
  cases b <;> simp [flagField, hs, flagBit]

theorem levelField_of_imm8 {h : Word} {l : Level} (hm : imm8Field h = l.bit) : levelField h = l := by
  cases l <;> simp [levelField, hm, Level.bit]

theorem bit_lt (l : Level) : l.bit < 2 := by cases l <;> decide

theorem flagBit_lt (b : Bool) : flagBit b < 2 := by cases b <;> decide

end Sys2Proof
end

