-- ==== Sys2Proof/Laws/PerInstr.lean ====
section
/-! SUPPORT. Statements made of every command, one lemma per constructor: a well-formed command's words decode to it, whatever words
follow (30_encoding.md R85, R88). -/

namespace Sys2Proof.Laws.RoundTrip

open Sys2Proof

set_option linter.unusedSimpArgs false

/-- A well-formed command is what its words decode to. -/
def Statement (i : Instr) : Prop := i.wf = true → ∀ rest, decodeFrame (encode i ++ rest) = .ok (i, rest)

theorem encSetA (e : Nat) (level : Level) : Statement (.encSetA e level) := by
  intro h rest
  simp only [Instr.wf, Bool.and_eq_true, fitsByte, decide_eq_true_eq] at h
  have hs : 0 < 256 := by omega
  have hm : level.bit < 256 := by have := bit_lt level; omega
  have hx := idxField_header (o := .encSetA) h hs hm
  have hy := subField_header (o := .encSetA) h hs hm
  have hz := imm8Field_header (o := .encSetA) h hs hm
  refine (decodeFrame_header h hs hm (rest) ?_ ?_).trans ?_
  · simp [Format.reservedZero, Opcode.format, hy, hz, bit_lt level]
  · simp [Format.operandWords, Opcode.format]
  · simp [Opcode.instr, Format.operandWords, Opcode.format, hx, levelField_of_imm8 hz]

theorem encSetB (e : Nat) (level : Level) : Statement (.encSetB e level) := by
  intro h rest
  simp only [Instr.wf, Bool.and_eq_true, fitsByte, decide_eq_true_eq] at h
  have hs : 0 < 256 := by omega
  have hm : level.bit < 256 := by have := bit_lt level; omega
  have hx := idxField_header (o := .encSetB) h hs hm
  have hy := subField_header (o := .encSetB) h hs hm
  have hz := imm8Field_header (o := .encSetB) h hs hm
  refine (decodeFrame_header h hs hm (rest) ?_ ?_).trans ?_
  · simp [Format.reservedZero, Opcode.format, hy, hz, bit_lt level]
  · simp [Format.operandWords, Opcode.format]
  · simp [Opcode.instr, Format.operandWords, Opcode.format, hx, levelField_of_imm8 hz]

theorem encTick (e : Nat) : Statement (.encTick e) := by
  intro h rest
  simp only [Instr.wf, Bool.and_eq_true, fitsByte, decide_eq_true_eq] at h
  have hs : 0 < 256 := by omega
  have hm : 0 < 256 := by omega
  have hx := idxField_header (o := .encTick) h hs hm
  have hy := subField_header (o := .encTick) h hs hm
  have hz := imm8Field_header (o := .encTick) h hs hm
  refine (decodeFrame_header h hs hm (rest) ?_ ?_).trans ?_
  · simp [Format.reservedZero, Opcode.format, hy, hz]
  · simp [Format.operandWords, Opcode.format]
  · simp [Opcode.instr, Format.operandWords, Opcode.format, hx]

theorem encEdgeA (e : Nat) (level : Level) : Statement (.encEdgeA e level) := by
  intro h rest
  simp only [Instr.wf, Bool.and_eq_true, fitsByte, decide_eq_true_eq] at h
  have hs : 0 < 256 := by omega
  have hm : level.bit < 256 := by have := bit_lt level; omega
  have hx := idxField_header (o := .encEdgeA) h hs hm
  have hy := subField_header (o := .encEdgeA) h hs hm
  have hz := imm8Field_header (o := .encEdgeA) h hs hm
  refine (decodeFrame_header h hs hm (rest) ?_ ?_).trans ?_
  · simp [Format.reservedZero, Opcode.format, hy, hz, bit_lt level]
  · simp [Format.operandWords, Opcode.format]
  · simp [Opcode.instr, Format.operandWords, Opcode.format, hx, levelField_of_imm8 hz]

theorem encEdgeB (e : Nat) (level : Level) : Statement (.encEdgeB e level) := by
  intro h rest
  simp only [Instr.wf, Bool.and_eq_true, fitsByte, decide_eq_true_eq] at h
  have hs : 0 < 256 := by omega
  have hm : level.bit < 256 := by have := bit_lt level; omega
  have hx := idxField_header (o := .encEdgeB) h hs hm
  have hy := subField_header (o := .encEdgeB) h hs hm
  have hz := imm8Field_header (o := .encEdgeB) h hs hm
  refine (decodeFrame_header h hs hm (rest) ?_ ?_).trans ?_
  · simp [Format.reservedZero, Opcode.format, hy, hz, bit_lt level]
  · simp [Format.operandWords, Opcode.format]
  · simp [Opcode.instr, Format.operandWords, Opcode.format, hx, levelField_of_imm8 hz]

theorem encZero (e : Nat) (offset : Int) : Statement (.encZero e offset) := by
  intro h rest
  simp only [Instr.wf, Bool.and_eq_true, fitsByte, decide_eq_true_eq] at h
  obtain ⟨hi, h1⟩ := h
  have hs : 0 < 256 := by omega
  have hm : 0 < 256 := by omega
  have hx := idxField_header (o := .encZero) hi hs hm
  have hy := subField_header (o := .encZero) hi hs hm
  have hz := imm8Field_header (o := .encZero) hi hs hm
  refine (decodeFrame_header hi hs hm (BitVec.ofInt 32 offset :: rest) ?_ ?_).trans ?_
  · simp [Format.reservedZero, Opcode.format, hy, hz]
  · simp [Format.operandWords, Opcode.format]
  · simp [Opcode.instr, Format.operandWords, Opcode.format, hx, toInt_ofInt_of_fits h1]

theorem encPos (e : Nat) : Statement (.encPos e) := by
  intro h rest
  simp only [Instr.wf, Bool.and_eq_true, fitsByte, decide_eq_true_eq] at h
  have hs : 0 < 256 := by omega
  have hm : 0 < 256 := by omega
  have hx := idxField_header (o := .encPos) h hs hm
  have hy := subField_header (o := .encPos) h hs hm
  have hz := imm8Field_header (o := .encPos) h hs hm
  refine (decodeFrame_header h hs hm (rest) ?_ ?_).trans ?_
  · simp [Format.reservedZero, Opcode.format, hy, hz]
  · simp [Format.operandWords, Opcode.format]
  · simp [Opcode.instr, Format.operandWords, Opcode.format, hx]

theorem pwmSetFreq (p frequency : Nat) : Statement (.pwmSetFreq p frequency) := by
  intro h rest
  simp only [Instr.wf, Bool.and_eq_true, fitsByte, decide_eq_true_eq] at h
  obtain ⟨hi, h1⟩ := h
  have hs : 0 < 256 := by omega
  have hm : 0 < 256 := by omega
  have hx := idxField_header (o := .pwmSetFreq) hi hs hm
  have hy := subField_header (o := .pwmSetFreq) hi hs hm
  have hz := imm8Field_header (o := .pwmSetFreq) hi hs hm
  refine (decodeFrame_header hi hs hm (BitVec.ofNat 32 frequency :: rest) ?_ ?_).trans ?_
  · simp [Format.reservedZero, Opcode.format, hy, hz]
  · simp [Format.operandWords, Opcode.format]
  · simp [Opcode.instr, Format.operandWords, Opcode.format, hx, toNat_ofNat_of_fits h1]

theorem pwmSetDuty (g c duty : Nat) : Statement (.pwmSetDuty g c duty) := by
  intro h rest
  simp only [Instr.wf, Bool.and_eq_true, fitsByte, decide_eq_true_eq] at h
  obtain ⟨⟨hi, h1⟩, h2⟩ := h
  have hs : c < 256 := h1
  have hm : duty < 256 := h2
  have hx := idxField_header (o := .pwmSetDuty) hi hs hm
  have hy := subField_header (o := .pwmSetDuty) hi hs hm
  have hz := imm8Field_header (o := .pwmSetDuty) hi hs hm
  refine (decodeFrame_header hi hs hm (rest) ?_ ?_).trans ?_
  · simp [Format.reservedZero, Opcode.format, hy, hz]
  · simp [Format.operandWords, Opcode.format]
  · simp [Opcode.instr, Format.operandWords, Opcode.format, hx, hy, hz]

theorem pwmAWrite (p value : Nat) : Statement (.pwmAWrite p value) := by
  intro h rest
  simp only [Instr.wf, Bool.and_eq_true, fitsByte, decide_eq_true_eq] at h
  obtain ⟨hi, h1⟩ := h
  have hs : 0 < 256 := by omega
  have hm : value < 256 := h1
  have hx := idxField_header (o := .pwmAWrite) hi hs hm
  have hy := subField_header (o := .pwmAWrite) hi hs hm
  have hz := imm8Field_header (o := .pwmAWrite) hi hs hm
  refine (decodeFrame_header hi hs hm (rest) ?_ ?_).trans ?_
  · simp [Format.reservedZero, Opcode.format, hy, hz]
  · simp [Format.operandWords, Opcode.format]
  · simp [Opcode.instr, Format.operandWords, Opcode.format, hx, hz]

theorem motStop (m : Nat) : Statement (.motStop m) := by
  intro h rest
  simp only [Instr.wf, Bool.and_eq_true, fitsByte, decide_eq_true_eq] at h
  have hs : 0 < 256 := by omega
  have hm : 0 < 256 := by omega
  have hx := idxField_header (o := .motStop) h hs hm
  have hy := subField_header (o := .motStop) h hs hm
  have hz := imm8Field_header (o := .motStop) h hs hm
  refine (decodeFrame_header h hs hm (rest) ?_ ?_).trans ?_
  · simp [Format.reservedZero, Opcode.format, hy, hz]
  · simp [Format.operandWords, Opcode.format]
  · simp [Opcode.instr, Format.operandWords, Opcode.format, hx]

theorem motGo (m : Nat) (forward : Bool) (power : Int) : Statement (.motGo m forward power) := by
  intro h rest
  simp only [Instr.wf, Bool.and_eq_true, fitsByte, decide_eq_true_eq] at h
  obtain ⟨hi, h1⟩ := h
  have hs : flagBit forward < 256 := by have := flagBit_lt forward; omega
  have hm : 0 < 256 := by omega
  have hx := idxField_header (o := .motGo) hi hs hm
  have hy := subField_header (o := .motGo) hi hs hm
  have hz := imm8Field_header (o := .motGo) hi hs hm
  refine (decodeFrame_header hi hs hm (BitVec.ofInt 32 power :: rest) ?_ ?_).trans ?_
  · simp [Format.reservedZero, Opcode.format, hy, hz, flagBit_lt forward]
  · simp [Format.operandWords, Opcode.format]
  · simp [Opcode.instr, Format.operandWords, Opcode.format, hx, toInt_ofInt_of_fits h1, flagField_of_sub hy]

theorem motSetPower (m : Nat) (power : Int) : Statement (.motSetPower m power) := by
  intro h rest
  simp only [Instr.wf, Bool.and_eq_true, fitsByte, decide_eq_true_eq] at h
  obtain ⟨hi, h1⟩ := h
  have hs : 0 < 256 := by omega
  have hm : 0 < 256 := by omega
  have hx := idxField_header (o := .motSetPower) hi hs hm
  have hy := subField_header (o := .motSetPower) hi hs hm
  have hz := imm8Field_header (o := .motSetPower) hi hs hm
  refine (decodeFrame_header hi hs hm (BitVec.ofInt 32 power :: rest) ?_ ?_).trans ?_
  · simp [Format.reservedZero, Opcode.format, hy, hz]
  · simp [Format.operandWords, Opcode.format]
  · simp [Opcode.instr, Format.operandWords, Opcode.format, hx, toInt_ofInt_of_fits h1]

theorem motGoFor (m : Nat) (rate ticks : Int) : Statement (.motGoFor m rate ticks) := by
  intro h rest
  simp only [Instr.wf, Bool.and_eq_true, fitsByte, decide_eq_true_eq] at h
  obtain ⟨⟨hi, h1⟩, h2⟩ := h
  have hs : 0 < 256 := by omega
  have hm : 0 < 256 := by omega
  have hx := idxField_header (o := .motGoFor) hi hs hm
  have hy := subField_header (o := .motGoFor) hi hs hm
  have hz := imm8Field_header (o := .motGoFor) hi hs hm
  refine (decodeFrame_header hi hs hm (BitVec.ofInt 32 rate :: BitVec.ofInt 32 ticks :: rest) ?_ ?_).trans ?_
  · simp [Format.reservedZero, Opcode.format, hy, hz]
  · simp [Format.operandWords, Opcode.format]
  · simp [Opcode.instr, Format.operandWords, Opcode.format, hx, toInt_ofInt_of_fits h1, toInt_ofInt_of_fits h2]

theorem motGoTo (m : Nat) (rate goal : Int) : Statement (.motGoTo m rate goal) := by
  intro h rest
  simp only [Instr.wf, Bool.and_eq_true, fitsByte, decide_eq_true_eq] at h
  obtain ⟨⟨hi, h1⟩, h2⟩ := h
  have hs : 0 < 256 := by omega
  have hm : 0 < 256 := by omega
  have hx := idxField_header (o := .motGoTo) hi hs hm
  have hy := subField_header (o := .motGoTo) hi hs hm
  have hz := imm8Field_header (o := .motGoTo) hi hs hm
  refine (decodeFrame_header hi hs hm (BitVec.ofInt 32 rate :: BitVec.ofInt 32 goal :: rest) ?_ ?_).trans ?_
  · simp [Format.reservedZero, Opcode.format, hy, hz]
  · simp [Format.operandWords, Opcode.format]
  · simp [Opcode.instr, Format.operandWords, Opcode.format, hx, toInt_ofInt_of_fits h1, toInt_ofInt_of_fits h2]

theorem motCheck (m now : Nat) : Statement (.motCheck m now) := by
  intro h rest
  simp only [Instr.wf, Bool.and_eq_true, fitsByte, decide_eq_true_eq] at h
  obtain ⟨hi, h1⟩ := h
  have hs : 0 < 256 := by omega
  have hm : 0 < 256 := by omega
  have hx := idxField_header (o := .motCheck) hi hs hm
  have hy := subField_header (o := .motCheck) hi hs hm
  have hz := imm8Field_header (o := .motCheck) hi hs hm
  refine (decodeFrame_header hi hs hm (BitVec.ofNat 32 now :: rest) ?_ ?_).trans ?_
  · simp [Format.reservedZero, Opcode.format, hy, hz]
  · simp [Format.operandWords, Opcode.format]
  · simp [Opcode.instr, Format.operandWords, Opcode.format, hx, toNat_ofNat_of_fits h1]

theorem motMoving (m : Nat) : Statement (.motMoving m) := by
  intro h rest
  simp only [Instr.wf, Bool.and_eq_true, fitsByte, decide_eq_true_eq] at h
  have hs : 0 < 256 := by omega
  have hm : 0 < 256 := by omega
  have hx := idxField_header (o := .motMoving) h hs hm
  have hy := subField_header (o := .motMoving) h hs hm
  have hz := imm8Field_header (o := .motMoving) h hs hm
  refine (decodeFrame_header h hs hm (rest) ?_ ?_).trans ?_
  · simp [Format.reservedZero, Opcode.format, hy, hz]
  · simp [Format.operandWords, Opcode.format]
  · simp [Opcode.instr, Format.operandWords, Opcode.format, hx]

theorem motEncPos (m : Nat) : Statement (.motEncPos m) := by
  intro h rest
  simp only [Instr.wf, Bool.and_eq_true, fitsByte, decide_eq_true_eq] at h
  have hs : 0 < 256 := by omega
  have hm : 0 < 256 := by omega
  have hx := idxField_header (o := .motEncPos) h hs hm
  have hy := subField_header (o := .motEncPos) h hs hm
  have hz := imm8Field_header (o := .motEncPos) h hs hm
  refine (decodeFrame_header h hs hm (rest) ?_ ?_).trans ?_
  · simp [Format.reservedZero, Opcode.format, hy, hz]
  · simp [Format.operandWords, Opcode.format]
  · simp [Opcode.instr, Format.operandWords, Opcode.format, hx]

end Sys2Proof.Laws.RoundTrip
end

