-- ==== Sys2Proof/Laws/Registers.lean ====
section
/-! SUPPORT. The register surface (20_memory.md R63): bit positions, the codes of a field, and what an assignment to a field can do. -/

namespace Sys2Proof.Machine

open Sys2Proof

/-! ### Bit positions -/

theorem getField_lt (lo n x : Nat) : getField lo n x < 2 ^ n := Nat.mod_lt _ (Nat.two_pow_pos n)

theorem getField_zero {n x : Nat} (h : x < 2 ^ n) : getField 0 n x = x := by
  simp [getField, Nat.mod_eq_of_lt h]

theorem testBit_getField (lo n x i : Nat) : (getField lo n x).testBit i = (decide (i < n) && x.testBit (lo + i)) := by
  rw [getField, Nat.testBit_mod_two_pow, Nat.testBit_div_two_pow, Nat.add_comm]

theorem testBit_setField (lo n v x k : Nat) :
    (setField lo n v x).testBit k = if lo ≤ k ∧ k < lo + n then v.testBit (k - lo) else x.testBit k := by
  have h : setField lo n v x = 2 ^ lo * (2 ^ n * (x / 2 ^ (lo + n)) + v % 2 ^ n) + x % 2 ^ lo := by
    rw [setField, Nat.pow_add]; ring
  rw [h, Nat.testBit_two_pow_mul_add _ (Nat.mod_lt _ (Nat.two_pow_pos lo)),
    Nat.testBit_two_pow_mul_add _ (Nat.mod_lt _ (Nat.two_pow_pos n)), Nat.testBit_mod_two_pow, Nat.testBit_mod_two_pow,
    Nat.testBit_div_two_pow]
  by_cases h1 : k < lo
  · rw [if_pos h1, if_neg (by omega)]; simp [h1]
  · by_cases h2 : k < lo + n
    · rw [if_neg h1, if_pos (by omega), if_pos (by omega)]; simp; omega
    · rw [if_neg h1, if_neg (by omega), if_neg (by omega)]; congr 1; omega

theorem setField_lt {lo n v x b : Nat} (h : lo + n ≤ b) (hx : x < 2 ^ b) : setField lo n v x < 2 ^ b := by
  refine Nat.lt_pow_two_of_testBit _ fun i hi => ?_
  rw [testBit_setField, if_neg (by omega)]
  exact Nat.testBit_lt_two_pow (hx.trans_le (Nat.pow_le_pow_right (by omega) hi))

/-! ### Codes -/

section Codes
variable {α : Type} [DecidableEq α] {bits : Nat} {values : List α} {codes : Codes α}

theorem Codes.decode_mem (h : codesWf bits values codes = true) (x : Nat) : Codes.decode codes x ∈ values := by
  simp only [codesWf, Bool.and_eq_true, decide_eq_true_eq, List.all_eq_true] at h
  unfold Codes.decode
  cases hf : codes.listed.find? (fun e => e.1 == x) with
  | none => exact h.2
  | some e => exact (h.1.1.2 e (List.mem_of_find?_eq_some hf)).2

/-- A value of the field has a code, in the field's bits, that gives it back. -/
theorem Codes.encode_spec (h : codesWf bits values codes = true) {a : α} (ha : a ∈ values) :
    ∃ x, Codes.encode codes a = some x ∧ x < 2 ^ bits ∧ Codes.decode codes x = a := by
  simp only [codesWf, Bool.and_eq_true, decide_eq_true_eq, List.all_eq_true] at h
  obtain ⟨e, he, hea⟩ := List.mem_map.mp (h.1.2 a ha)
  unfold Codes.encode Codes.decode
  cases hf : codes.listed.find? (fun e => decide (e.2 = a)) with
  | none => exact absurd hea (by simpa using List.find?_eq_none.mp hf e he)
  | some e' =>
    have hm := List.mem_of_find?_eq_some hf
    refine ⟨e'.1, rfl, (h.1.1.2 e' hm).1, ?_⟩
    cases hg : codes.listed.find? (fun e => e.1 == e'.1) with
    | none => exact absurd (List.find?_eq_none.mp hg e' hm) (by simp)
    | some e'' =>
      have hk : e''.1 = e'.1 := by simpa using List.find?_some hg
      have : e'' = e' := List.inj_on_of_nodup_map h.1.1.1 (List.mem_of_find?_eq_some hg) hm hk
      simpa [this] using List.find?_some hf

end Codes

/-! ### Frames of register writes -/

theorem RegistersOnly.refl (s : State) : RegistersOnly s s := ⟨.refl s, rfl, rfl, rfl, rfl, fun _ => rfl, fun _ _ => rfl⟩

theorem RegistersOnly.trans {s t u : State} (h : RegistersOnly s t) (k : RegistersOnly t u) : RegistersOnly s u where
  inputs := h.inputs.trans k.inputs
  enc := k.enc.trans h.enc
  mot := k.mot.trans h.mot
  resp := k.resp.trans h.resp
  clock := k.clock.trans h.clock
  latches p := (k.latches p).trans (h.latches p)
  others p hp := (k.others p (by rw [h.inputs.cfg]; exact hp)).trans (h.others p hp)

theorem RegistersOnly.modGroup (s : State) (g : Nat) (f : Group → Group) : RegistersOnly s (s.modGroup g f) :=
  ⟨⟨rfl, rfl, rfl, rfl, rfl, rfl, rfl, rfl, rfl⟩, rfl, rfl, rfl, rfl, fun _ => rfl, fun _ _ => rfl⟩

theorem RegistersOnly.modChannel (s : State) (g c : Nat) (f : Channel → Channel) : RegistersOnly s (s.modChannel g c f) :=
  RegistersOnly.modGroup s g _

theorem switchOutput_channel? (g c : Nat) (b : Bool) (s : State) (g' c' : Nat) :
    (switchOutput g c b s).channel? g' c' =
      if g = g' ∧ c = c' then (s.channel? g' c').map (fun x => { x with oen := b }) else s.channel? g' c' := by
  unfold switchOutput
  cases s.cfg.pinOf g c <;> exact channel?_modChannel ..

theorem switchOutput_pin? (g c : Nat) (b : Bool) (s : State) (p : Nat) :
    (switchOutput g c b s).pin? p =
      if s.cfg.pinOf g c = some p then (s.pin? p).map (fun x => { x with drive := if b then .timer else .latch })
      else s.pin? p := by
  unfold switchOutput
  cases h : s.cfg.pinOf g c with
  | none => rfl
  | some q =>
    show ((setOen g c b s).modPin q _).pin? p = _
    rw [pin?_modPin]
    simp only [Option.some.injEq]
    rfl

theorem switchOutput_group? (g c : Nat) (b : Bool) (s : State) (g' : Nat) :
    (switchOutput g c b s).group? g' =
      if g = g' then (s.group? g').map (fun x => { x with chans := x.chans.modify c (fun y => { y with oen := b }) })
      else s.group? g' := by
  unfold switchOutput
  cases s.cfg.pinOf g c <;> exact group?_modChannel ..

theorem switchOutput_frame (g c : Nat) (b : Bool) (s : State) : RegistersOnly s (switchOutput g c b s) := by
  refine ⟨?_, ?_, ?_, ?_, ?_, fun p => ?_, fun p hp => ?_⟩
  · unfold switchOutput; cases s.cfg.pinOf g c <;> exact ⟨rfl, rfl, rfl, rfl, rfl, rfl, rfl, rfl, rfl⟩
  · unfold switchOutput; cases s.cfg.pinOf g c <;> rfl
  · unfold switchOutput; cases s.cfg.pinOf g c <;> rfl
  · unfold switchOutput; cases s.cfg.pinOf g c <;> rfl
  · unfold switchOutput; cases s.cfg.pinOf g c <;> rfl
  · rw [switchOutput_pin?]; split
    · cases s.pin? p <;> rfl
    · rfl
  · rw [switchOutput_pin?, if_neg]
    intro h
    rw [timerOf_of_pinOf h] at hp
    exact absurd hp (by simp)

theorem writeField_frame (f : TimerField) (x : Nat) (s : State) : RegistersOnly s (writeField f x s) := by
  cases f with
  | freq g => exact .modGroup ..
  | top g => exact .modGroup ..
  | cs g codes => exact .modGroup ..
  | wgm g codes => exact .modGroup ..
  | duty g c => exact .modChannel ..
  | cmp g c => exact .modChannel ..
  | oen g c => exact switchOutput_frame ..

theorem writeFields_frame (ps : List Placement) (v : Nat) (s : State) : RegistersOnly s (writeFields ps v s) := by
  induction ps generalizing s with
  | nil => exact .refl s
  | cons p ps ih => exact (writeField_frame ..).trans (ih _)

/-! ### Fields -/

theorem fieldKept.refl (f : TimerField) (s : State) : fieldKept f s s := by cases f <;> simp [fieldKept]

theorem fieldKept.trans {f : TimerField} {s t u : State} (hc : t.cfg = s.cfg) (h : fieldKept f s t) (k : fieldKept f t u) :
    fieldKept f s u := by
  cases f <;> simp only [fieldKept, hc] at h k ⊢
  case oen => exact ⟨k.1.trans h.1, fun p hp => (k.2 p hp).trans (h.2 p hp)⟩
  all_goals exact k.trans h

/-- A field keeps its value where it is kept. -/
theorem fieldHolds.of_kept {f : TimerField} {x : Nat} {s t : State} (hc : t.cfg = s.cfg) (h : fieldHolds f x s)
    (k : fieldKept f s t) : fieldHolds f x t := by
  cases f <;> simp only [fieldHolds, fieldKept, hc] at h k ⊢
  case oen => exact ⟨k.1.trans h.1, fun p y hp hy => h.2 p y hp (by rw [← k.2 p hp]; exact hy)⟩
  all_goals exact k.trans h

theorem group_of_exists {s : State} (hs : s.shaped) {g : Nat} (h : g < s.cfg.groups.length) :
    ∃ gc x, s.cfg.groups[g]? = some gc ∧ s.group? g = some x ∧ x.chans.length = gc.channels.count ∧ x.cs ∈ clockValues s.cfg g :=
  have h1 := List.getElem?_eq_getElem h
  have h2 := List.getElem?_eq_getElem (hs.1 ▸ h : g < s.grp.length)
  ⟨_, _, h1, h2, hs.2 g _ _ h1 h2⟩

/-- Every state of the invariant has the shape. -/
theorem State.Inv.shaped {s : State} (h : s.Inv) : s.shaped := by
  refine ⟨h.grpLength, fun g gc x hg hx => ?_⟩
  obtain ⟨h1, -, -, h2⟩ := h.groups g gc x hg hx
  refine ⟨h1, ?_⟩
  rcases h2 with ⟨-, -, hc, -⟩ | ⟨-, -, ⟨ps, hm, hc⟩, -⟩ <;> simp [clockValues, hg, hc]
  exact hm

theorem channel_of_exists {s : State} (hs : s.shaped) {g c : Nat} (h : channelExists s.cfg g c = true) :
    ∃ ch, s.channel? g c = some ch := by
  unfold channelExists at h
  cases hg : s.cfg.groups[g]? with
  | none => simp [hg] at h
  | some gc =>
    simp only [hg, decide_eq_true_eq] at h
    obtain ⟨gc', x, h1, h2, h3, -⟩ := group_of_exists hs (List.getElem?_eq_some_iff.mp hg).1
    rw [hg] at h1
    cases h1
    exact ⟨x.chans[c]'(by omega), by rw [channel?_eq, h2]; exact List.getElem?_eq_getElem _⟩

/-- An assignment gives its field the value. -/
theorem writeField_holds {f : TimerField} (x : Nat) {s : State} (hi : s.cfg.pinMapInjective = true) (hs : s.shaped)
    (hf : fieldExists s.cfg f = true) : fieldHolds f x (writeField f x s) := by
  cases f <;> simp only [fieldExists, decide_eq_true_eq] at hf
  case oen g c =>
    obtain ⟨ch, h⟩ := channel_of_exists hs hf
    refine ⟨?_, fun p y hp hy => ?_⟩
    · simp [writeField, switchOutput_channel?, h]
    · rw [(writeField_frame (.oen g c) x s).inputs.cfg] at hp
      simp only [writeField] at hy
      rw [switchOutput_pin?, if_pos (pinOf_of_timerOf hi hp)] at hy
      obtain ⟨z, -, rfl⟩ := Option.map_eq_some_iff.mp hy
      simp
  case duty g c => obtain ⟨ch, h⟩ := channel_of_exists hs hf; simp [fieldHolds, writeField, channel?_modChannel, h]
  case cmp g c => obtain ⟨ch, h⟩ := channel_of_exists hs hf; simp [fieldHolds, writeField, channel?_modChannel, h]
  all_goals
    obtain ⟨_, y, -, h, -⟩ := group_of_exists hs hf
    simp [fieldHolds, writeField, writeTop, group?_modGroup, h]

/-- A write of a group keeps what its function keeps. -/
theorem group?_modGroup_map {β : Type} (s : State) (g g' : Nat) (f : Group → Group) (k : Group → β)
    (h : g = g' → ∀ x, k (f x) = k x) : ((s.modGroup g f).group? g').map k = (s.group? g').map k := by
  rw [group?_modGroup]
  split
  · next hg => cases s.group? g' <;> simp [h hg]
  · rfl

theorem channel?_modGroup {s : State} {g : Nat} {f : Group → Group} (h : ∀ x, (f x).chans = x.chans) (g' c : Nat) :
    (s.modGroup g f).channel? g' c = s.channel? g' c := by
  rw [channel?_eq, channel?_eq, group?_modGroup]
  split
  · cases s.group? g' <;> simp [h]
  · rfl

/-- A write of a channel keeps what its function keeps. -/
theorem channel?_modChannel_map {β : Type} (s : State) (g c g' c' : Nat) (f : Channel → Channel) (k : Channel → β)
    (h : g = g' ∧ c = c' → ∀ x, k (f x) = k x) : ((s.modChannel g c f).channel? g' c').map k = (s.channel? g' c').map k := by
  rw [channel?_modChannel]
  split
  · next hg => cases s.channel? g' c' <;> simp [h hg]
  · rfl

/-- An assignment to a setting of a group keeps every other field. -/
theorem modGroup_kept {s : State} {g : Nat} {f : Group → Group} (hc : ∀ x, (f x).chans = x.chans) {f' : TimerField}
    (hf : ∀ g', (f' = .freq g' → g = g' → ∀ x, (f x).freq = x.freq) ∧ (f' = .top g' → g = g' → ∀ x, (f x).top = x.top) ∧
      (∀ codes, f' = .cs g' codes → g = g' → ∀ x, (f x).cs = x.cs) ∧
      (∀ codes, f' = .wgm g' codes → g = g' → ∀ x, (f x).wgm = x.wgm)) :
    fieldKept f' s (s.modGroup g f) := by
  cases f' <;> simp only [fieldKept, channel?_modGroup hc]
  case freq g' => exact group?_modGroup_map s g g' f _ ((hf g').1 rfl)
  case top g' => exact group?_modGroup_map s g g' f _ ((hf g').2.1 rfl)
  case cs g' codes => exact group?_modGroup_map s g g' f _ ((hf g').2.2.1 codes rfl)
  case wgm g' codes => exact group?_modGroup_map s g g' f _ ((hf g').2.2.2 codes rfl)
  case oen => exact ⟨trivial, fun _ _ => rfl⟩

/-- A write of a pin keeps every field but the output enable of its channel. -/
theorem modPin_kept {s : State} {p : Nat} {f : Pin → Pin} {f' : TimerField}
    (hf : ∀ g c, f' = .oen g c → s.cfg.timerOf p ≠ some (g, c)) : fieldKept f' s (s.modPin p f) := by
  cases f' with
  | oen g c =>
    refine ⟨rfl, fun q hq => ?_⟩
    rw [pin?_modPin, if_neg]
    rintro rfl
    exact hf g c rfl hq
  | _ => rfl

/-- An assignment to a field of a channel keeps every other field, with the outputs. -/
theorem modChannel_kept {s : State} {g c : Nat} {f : Channel → Channel} {f' : TimerField}
    (hf : ∀ g' c', g = g' ∧ c = c' → (f' = .duty g' c' → ∀ x, (f x).duty = x.duty) ∧ (f' = .cmp g' c' → ∀ x, (f x).cmp = x.cmp) ∧
      (f' = .oen g' c' → ∀ x, (f x).oen = x.oen)) :
    fieldKept f' s (s.modChannel g c f) := by
  have hg : ∀ {β : Type} (k : Group → β), (∀ x (l : List Channel), k { x with chans := l } = k x) → ∀ g',
      ((s.modChannel g c f).group? g').map k = (s.group? g').map k :=
    fun k hk g' => group?_modGroup_map s g g' _ k (fun _ x => hk x _)
  cases f' <;> simp only [fieldKept]
  case duty g' c' => exact channel?_modChannel_map s g c g' c' f _ (fun h => (hf g' c' h).1 rfl)
  case cmp g' c' => exact channel?_modChannel_map s g c g' c' f _ (fun h => (hf g' c' h).2.1 rfl)
  case oen g' c' => exact ⟨channel?_modChannel_map s g c g' c' f _ (fun h => (hf g' c' h).2.2 rfl), fun _ _ => rfl⟩
  all_goals exact hg _ (fun _ _ => rfl) _

/-- An assignment keeps every other field. -/
theorem writeField_kept {f f' : TimerField} (x : Nat) (s : State) (hk : fieldKey f ≠ fieldKey f') :
    fieldKept f' s (writeField f x s) := by
  have hne : ∀ {k}, f' = k → fieldKey f = fieldKey k → False := fun h e => hk (h ▸ e)
  cases f with
  | freq g =>
    refine modGroup_kept (s := s) (g := g) (f := fun y => _) ?_ ?_
    · exact fun _ => rfl
    · exact fun g' => ⟨fun e h => (hne e (by rw [h])).elim, fun _ _ _ => rfl, fun _ _ _ _ => rfl, fun _ _ _ _ => rfl⟩
  | top g =>
    refine modGroup_kept (s := s) (g := g) (f := fun y => _) ?_ ?_
    · exact fun _ => rfl
    · exact fun g' => ⟨fun _ _ _ => rfl, fun e h => (hne e (by rw [h])).elim, fun _ _ _ _ => rfl, fun _ _ _ _ => rfl⟩
  | cs g codes =>
    refine modGroup_kept (s := s) (g := g) (f := fun y => _) ?_ ?_
    · exact fun _ => rfl
    · exact fun g' => ⟨fun _ _ _ => rfl, fun _ _ _ => rfl, fun _ e h => (hne e (by rw [h]; rfl)).elim, fun _ _ _ _ => rfl⟩
  | wgm g codes =>
    refine modGroup_kept (s := s) (g := g) (f := fun y => _) ?_ ?_
    · exact fun _ => rfl
    · exact fun g' => ⟨fun _ _ _ => rfl, fun _ _ _ => rfl, fun _ _ _ _ => rfl, fun _ e h => (hne e (by rw [h]; rfl)).elim⟩
  | duty g c =>
    exact modChannel_kept (f' := f') fun g' c' h =>
      ⟨fun e => (hne e (by rw [h.1, h.2])).elim, fun _ _ => rfl, fun _ _ => rfl⟩
  | cmp g c =>
    exact modChannel_kept (f' := f') fun g' c' h =>
      ⟨fun _ _ => rfl, fun e => (hne e (by rw [h.1, h.2])).elim, fun _ _ => rfl⟩
  | oen g c =>
    have hm : fieldKept f' s (setOen g c (decide (x = 1)) s) := modChannel_kept (f' := f') fun g' c' h =>
      ⟨fun _ _ => rfl, fun _ _ => rfl, fun e => (hne e (by rw [h.1, h.2])).elim⟩
    show fieldKept f' s (switchOutput g c (decide (x = 1)) s)
    unfold switchOutput
    cases hp : s.cfg.pinOf g c with
    | none => exact hm
    | some p =>
      refine fieldKept.trans (t := setOen g c (decide (x = 1)) s) rfl hm (modPin_kept (p := p) fun g' c' e ht => hne e ?_)
      cases (timerOf_of_pinOf hp).symm.trans ht
      rfl

/-- A write of a group that keeps its channel count and gives a clock select of the group keeps the shape. -/
theorem modGroup_shaped {s : State} (hs : s.shaped) (g : Nat) (f : Group → Group)
    (hf : ∀ x, (f x).chans.length = x.chans.length ∧ (x.cs ∈ clockValues s.cfg g → (f x).cs ∈ clockValues s.cfg g)) :
    (s.modGroup g f).shaped := by
  refine ⟨by simp [hs.1], fun g' gc x hg hx => ?_⟩
  have hx : (s.modGroup g f).group? g' = some x := hx
  rw [group?_modGroup] at hx
  split at hx
  · next he =>
    subst he
    obtain ⟨y, hy, rfl⟩ := Option.map_eq_some_iff.mp hx
    have := hs.2 g gc y hg hy
    exact ⟨(hf y).1.trans this.1, (hf y).2 this.2⟩
  · exact hs.2 g' gc x hg hx

theorem writeField_shaped {f : TimerField} (x : Nat) {s : State} (hf : fieldWf s.cfg f = true) (hs : s.shaped) :
    (writeField f x s).shaped := by
  cases f with
  | freq g => exact modGroup_shaped hs g _ (fun _ => ⟨rfl, id⟩)
  | top g => exact modGroup_shaped hs g _ (fun _ => ⟨rfl, id⟩)
  | cs g codes =>
    simp only [fieldWf, Bool.and_eq_true] at hf
    exact modGroup_shaped hs g _ (fun _ => ⟨rfl, fun _ => Codes.decode_mem hf.2 x⟩)
  | wgm g codes => exact modGroup_shaped hs g _ (fun _ => ⟨rfl, id⟩)
  | duty g c => exact modGroup_shaped hs g _ (fun _ => ⟨by simp, id⟩)
  | cmp g c => exact modGroup_shaped hs g _ (fun _ => ⟨by simp, id⟩)
  | oen g c =>
    have h : (setOen g c (decide (x = 1)) s).shaped := modGroup_shaped hs g _ (fun _ => ⟨by simp, id⟩)
    show (switchOutput g c _ s).shaped
    unfold switchOutput
    cases s.cfg.pinOf g c <;> exact h

/-- A field of a shaped state reads as a number. -/
theorem fieldValue_isSome {f : TimerField} {s : State} (hf : fieldWf s.cfg f = true) (hs : s.shaped) :
    ∃ x, fieldValue f s = some x := by
  simp only [fieldWf, Bool.and_eq_true] at hf
  cases f <;> simp only [fieldExists, decide_eq_true_eq] at hf
  case duty g c => obtain ⟨ch, h⟩ := channel_of_exists hs hf.1; simp [fieldValue, h]
  case cmp g c => obtain ⟨ch, h⟩ := channel_of_exists hs hf.1; simp [fieldValue, h]
  case oen g c => obtain ⟨ch, h⟩ := channel_of_exists hs hf.1; simp [fieldValue, h]
  case cs g codes =>
    obtain ⟨_, y, -, h, -, hc⟩ := group_of_exists hs hf.1
    obtain ⟨x, hx, -⟩ := Codes.encode_spec hf.2 hc
    exact ⟨x, by simp [fieldValue, h, hx]⟩
  case wgm g codes =>
    obtain ⟨_, y, -, h, -⟩ := group_of_exists hs hf.1
    obtain ⟨x, hx, -⟩ := Codes.encode_spec hf.2 (a := y.wgm) (by cases y.wgm <;> simp)
    exact ⟨x, by simp [fieldValue, h, hx]⟩
  all_goals
    obtain ⟨_, y, -, h, -⟩ := group_of_exists hs hf.1
    simp [fieldValue, h]

theorem width_le (w : CounterWidth) : w.bits ≤ 16 := by cases w <;> decide

/-- A field that was assigned `x` reads as `x`, or as another code of the same value. -/
theorem sameReading_of_holds {f : TimerField} {x : Nat} {s : State} (hf : fieldWf s.cfg f = true) (hx : x < 2 ^ fieldBits s.cfg f)
    (hh : fieldHolds f x s) {v : Nat} (hv : fieldValue f s = some v) : sameReading f (v % 2 ^ fieldBits s.cfg f) x := by
  simp only [fieldWf, Bool.and_eq_true] at hf
  cases f <;> simp only [fieldHolds] at hh
  case freq g =>
    obtain ⟨y, hy, hxy⟩ := Option.map_eq_some_iff.mp hh
    have hw : fieldBits s.cfg (.freq g) ≤ 32 := by
      simp only [fieldBits]
      cases s.cfg.groups[g]? with
      | none => simp
      | some gc => exact (width_le gc.width).trans (by decide)
    simp only [fieldValue, hy, Option.map_some, Option.some.injEq, hxy] at hv
    subst hv
    rw [BitVec.toNat_ofNat, Nat.mod_eq_of_lt (hx.trans_le (Nat.pow_le_pow_right (by decide) hw))]
    exact Nat.mod_eq_of_lt hx
  case top g =>
    obtain ⟨y, hy, hxy⟩ := Option.map_eq_some_iff.mp hh
    simp only [fieldValue, hy, Option.map_some, Option.some.injEq, hxy] at hv
    subst hv
    exact Nat.mod_eq_of_lt hx
  case cs g codes =>
    obtain ⟨y, hy, hxy⟩ := Option.map_eq_some_iff.mp hh
    simp only [fieldValue, hy, Option.bind_some, hxy] at hv
    obtain ⟨z, hz, hl, hd⟩ := Codes.encode_spec hf.2 (Codes.decode_mem hf.2 x)
    cases hz.symm.trans hv
    simp only [sameReading]
    rw [Nat.mod_eq_of_lt hl, hd]
  case wgm g codes =>
    obtain ⟨y, hy, hxy⟩ := Option.map_eq_some_iff.mp hh
    simp only [fieldValue, hy, Option.bind_some, hxy] at hv
    obtain ⟨z, hz, hl, hd⟩ := Codes.encode_spec hf.2 (Codes.decode_mem hf.2 x)
    cases hz.symm.trans hv
    simp only [sameReading]
    rw [Nat.mod_eq_of_lt hl, hd]
  case duty g c =>
    obtain ⟨y, hy, hxy⟩ := Option.map_eq_some_iff.mp hh
    simp only [fieldValue, hy, Option.map_some, Option.some.injEq, hxy] at hv
    subst hv
    simp only [fieldBits] at hx ⊢
    simp only [sameReading, BitVec.toNat_ofNat]
    omega
  case cmp g c =>
    obtain ⟨y, hy, hxy⟩ := Option.map_eq_some_iff.mp hh
    simp only [fieldValue, hy, Option.map_some, Option.some.injEq, hxy] at hv
    subst hv
    exact Nat.mod_eq_of_lt hx
  case oen g c =>
    obtain ⟨y, hy, hxy⟩ := Option.map_eq_some_iff.mp hh.1
    simp only [fieldValue, hy, Option.map_some, Option.some.injEq, hxy] at hv
    subst hv
    simp only [fieldBits, pow_one] at hx ⊢
    have : x = 0 ∨ x = 1 := by omega
    rcases this with rfl | rfl <;> rfl

/-! ### Whole registers -/

/-- Two placements of one register: other fields, other bits. -/
def Placement.Apart (c : Config) (p q : Placement) : Prop :=
  fieldKey p.field ≠ fieldKey q.field ∧ (p.lo + fieldBits c p.field ≤ q.lo ∨ q.lo + fieldBits c q.field ≤ p.lo)

theorem placed_wf {c : Config} (h : regMapWf c = true) (addr : Nat) :
    (∀ p ∈ placed c addr, fieldWf c p.field = true) ∧ (placed c addr).Pairwise (Placement.Apart c) := by
  simp only [regMapWf, Bool.and_eq_true, decide_eq_true_eq, List.all_eq_true] at h
  refine ⟨fun p hp => h.1 p (List.mem_of_mem_filter hp), ?_⟩
  refine (h.2.filter _).imp_of_mem ?_
  intro p q hp hq hpq
  have ha : p.addr = addr := by simpa using List.of_mem_filter hp
  have hb : q.addr = addr := by simpa using List.of_mem_filter hq
  exact ⟨hpq.1, hpq.2 (ha.trans hb.symm)⟩

theorem le_registerBits {c : Config} {ps : List Placement} {p : Placement} (hp : p ∈ ps) :
    p.lo + fieldBits c p.field ≤ registerBits c ps := by
  unfold registerBits
  induction ps with
  | nil => simp at hp
  | cons q ps ih =>
    rcases List.mem_cons.mp hp with rfl | hp
    · simp
    · exact (ih hp).trans (by simp)

/-- A register reads as its fields over the bits it is read over. -/
theorem overlay_spec {s : State} (hs : s.shaped) {ps : List Placement} (hf : ∀ p ∈ ps, fieldWf s.cfg p.field = true)
    (hd : ps.Pairwise (Placement.Apart s.cfg)) (x : Nat) :
    ∃ r, overlay ps s x = some r ∧ (∀ b, x < 2 ^ b → (∀ p ∈ ps, p.lo + fieldBits s.cfg p.field ≤ b) → r < 2 ^ b) ∧
      (∀ p ∈ ps, ∃ v, fieldValue p.field s = some v ∧
        getField p.lo (fieldBits s.cfg p.field) r = v % 2 ^ fieldBits s.cfg p.field) ∧
      (∀ k, (∀ p ∈ ps, k < p.lo ∨ p.lo + fieldBits s.cfg p.field ≤ k) → r.testBit k = x.testBit k) := by
  induction ps generalizing x with
  | nil => exact ⟨x, rfl, fun _ h _ => h, by simp, fun _ _ => rfl⟩
  | cons p ps ih =>
    obtain ⟨hp, hd⟩ := List.pairwise_cons.mp hd
    obtain ⟨v, hv⟩ := fieldValue_isSome (hf p (by simp)) hs
    obtain ⟨r, h1, h2, h3, h4⟩ := ih (fun q hq => hf q (by simp [hq])) hd (setField p.lo (fieldBits s.cfg p.field) v x)
    refine ⟨r, by simp [overlay, hv, h1], fun b hx hb => ?_, ?_, fun k hk => ?_⟩
    · exact h2 b (setField_lt (hb p (by simp)) hx) (fun q hq => hb q (by simp [hq]))
    · intro q hq
      rcases List.mem_cons.mp hq with rfl | hq
      · refine ⟨v, hv, Nat.eq_of_testBit_eq fun i => ?_⟩
        rw [testBit_getField, Nat.testBit_mod_two_pow]
        by_cases hi : i < fieldBits s.cfg q.field
        · rw [h4 (q.lo + i) (fun p hp' => by have := (hp p hp').2; omega), testBit_setField, if_pos (by omega), Nat.add_sub_cancel_left]
        · simp [hi]
      · exact h3 q hq
    · rw [h4 k (fun q hq => hk q (by simp [hq])), testBit_setField, if_neg (by have := hk p (by simp); omega)]

/-- A register write assigns to each field of the register its bits, and keeps every other field. -/
theorem writeFields_spec {s : State} (hi : s.cfg.pinMapInjective = true) (hs : s.shaped) {ps : List Placement}
    (hf : ∀ p ∈ ps, fieldWf s.cfg p.field = true) (hd : ps.Pairwise (Placement.Apart s.cfg)) (v : Nat) :
    (writeFields ps v s).shaped ∧
    (∀ p ∈ ps, fieldHolds p.field (getField p.lo (fieldBits s.cfg p.field) v) (writeFields ps v s)) ∧
    (∀ f, (∀ p ∈ ps, fieldKey p.field ≠ fieldKey f) → fieldKept f s (writeFields ps v s)) := by
  induction ps generalizing s with
  | nil => exact ⟨hs, by simp, fun f _ => .refl f s⟩
  | cons p ps ih =>
    obtain ⟨hp, hd⟩ := List.pairwise_cons.mp hd
    have hc := (writeField_frame p.field (getField p.lo (fieldBits s.cfg p.field) v) s).inputs.cfg
    obtain ⟨h1, h2, h3⟩ := ih (s := writeField p.field (getField p.lo (fieldBits s.cfg p.field) v) s)
      (by rw [hc]; exact hi) (writeField_shaped _ (hf p (by simp)) hs) (by rw [hc]; exact fun q hq => hf q (by simp [hq]))
      (by rw [hc]; exact hd)
    have hcs : (writeFields ps v (writeField p.field (getField p.lo (fieldBits s.cfg p.field) v) s)).cfg =
        (writeField p.field (getField p.lo (fieldBits s.cfg p.field) v) s).cfg := (writeFields_frame ..).inputs.cfg
    have hfe : fieldExists s.cfg p.field = true := by
      have := hf p (by simp)
      simp only [fieldWf, Bool.and_eq_true] at this
      exact this.1
    refine ⟨h1, fun q hq => ?_, fun f hk => ?_⟩
    · rcases List.mem_cons.mp hq with rfl | hq
      · exact (writeField_holds _ hi hs hfe).of_kept hcs (h3 _ (fun r hr => (hp r hr).1.symm))
      · rw [← hc]; exact h2 q hq
    · exact (writeField_kept _ s (hk p (by simp))).trans hc (h3 f (fun q hq => hk q (by simp [hq])))

end Sys2Proof.Machine
end

