-- ==== Sys2Proof/Tests/Slice0.lean ====
section
/-! SUPPORT. Tests, whose expected results are the vectors of 95_test_vectors.md and the examples of the rules named, and for each
statement of Certificates/Slice0/Obligations.lean that has hypotheses a state and operands that meet them. -/

namespace Sys2Proof.Tests

open Sys2Proof Sys2Proof.Machine

/-! ### States -/

/-- `EX` after boot (95_test_vectors.md section 2.2). -/
def booted : State := finishBoot State.reset

/-- `EX` with positions of `w` bits, encoder 0 at `x`. -/
def withEnc (w : Nat) (x : Encoder) : State :=
  { booted with cfg := { Config.ex with posWidth := w }, enc := [x, .atReset] }

/-- `EX` with group `g` running at period `t` and the channels `chans`. -/
def withGroup (g t : Nat) (chans : List Channel) (s : State) : State := s.modGroup g (fun _ => ⟨1, t, .prescaler 1, .pwm, chans⟩)

/-- `EX` with motor `m` at `x`. -/
def withMotor (m : Nat) (x : Motor) (s : State) : State := s.modMotor m (fun _ => x)

/-- `EX` with pin `p` at `x`. -/
def withPin (p : Nat) (x : Pin) (s : State) : State := s.modPin p (fun _ => x)

/-- `EX` with the frames of two agents and a schedule. -/
def withFrames (edge control : List Word) (turns : List Turn) : State :=
  { booted with edgePort := edge, controlPort := control, turns := turns }

/-- The next state, if there is one. -/
def nextOf : Host.Outcome State Fault Refusal → Option State
  | .next s => some s
  | .fault _ => none
  | .refused _ => none

def encAt (o : Host.Outcome State Fault Refusal) : Option Encoder := (nextOf o).map (fun s => s.encoder 0)
def grpAt (g : Nat) (o : Host.Outcome State Fault Refusal) : Option Group := (nextOf o).bind (fun s => s.group? g)
def pinAt (p : Nat) (o : Host.Outcome State Fault Refusal) : Option Pin := (nextOf o).bind (fun s => s.pin? p)
def motAt (m : Nat) (o : Host.Outcome State Fault Refusal) : Option Motor := (nextOf o).map (fun s => s.motor m)
def respAt (o : Host.Outcome State Fault Refusal) : Option Response := (nextOf o).map State.resp

/-! ### Well-formedness: each check refuses an ill-formed term (30_encoding.md R96) -/

theorem test_wf_index : ∀ i ∈ [Instr.encSetA 256 .low, .encSetB 256 .low, .encTick 256, .encEdgeA 256 .low, .encEdgeB 256 .low,
    .encZero 256 0, .encPos 256, .pwmSetFreq 256 0, .pwmSetDuty 256 0 0, .pwmAWrite 256 0, .motStop 256, .motGo 256 true 0,
    .motSetPower 256 0, .motGoFor 256 0 0, .motGoTo 256 0 0, .motCheck 256 0, .motMoving 256, .motEncPos 256],
    i.wf = false := by decide

theorem test_wf_byte : ∀ i ∈ [Instr.pwmSetDuty 0 256 0, .pwmSetDuty 0 0 256, .pwmAWrite 0 256], i.wf = false := by decide

theorem test_wf_unsigned : ∀ i ∈ [Instr.pwmSetFreq 0 4294967296, .motCheck 0 4294967296], i.wf = false := by decide

theorem test_wf_signed : ∀ i ∈ [Instr.encZero 0 2147483648, .encZero 0 (-2147483649), .motGo 0 true 2147483648,
    .motSetPower 0 (-2147483649), .motGoFor 0 2147483648 0, .motGoFor 0 0 2147483648, .motGoTo 0 (-2147483649) 0,
    .motGoTo 0 0 (-2147483649)], i.wf = false := by decide

/-! ### Decoding: one word for every row of R88, written out from the patterns of R89 -/

/-- Encoder commands; the operand word of ENC.ZERO is -5 (R91). -/
theorem test_decode_encoder : ∀ x ∈ [(32, 0b00000001_00000011_00000000_00000001, Instr.encSetA 3 .high),
    (32, 0b00000010_11111111_00000000_00000000, .encSetB 255 .low), (32, 0b00000011_00000001_00000000_00000000, .encTick 1),
    (32, 0b00000100_00000000_00000000_00000001, .encEdgeA 0 .high), (32, 0b00000101_00000010_00000000_00000000, .encEdgeB 2 .low),
    (64, 0xFFFFFFFB * 2 ^ 32 + 0b00000110_00000000_00000000_00000000, .encZero 0 (-5)),
    (32, 0b00000111_00000001_00000000_00000000, .encPos 1)],
    decodeTableWord x.1 x.2.1 = some x.2.2 := by decide

/-- PWM commands (R91); `0x11FFFFFF` is V-DEC's. -/
theorem test_decode_pwm : ∀ x ∈ [(64, 1000 * 2 ^ 32 + 0b00010000_00001001_00000000_00000000, Instr.pwmSetFreq 9 1000),
    (32, 0b00010001_00000001_00000010_10000000, .pwmSetDuty 1 2 128), (32, 0x11FFFFFF, .pwmSetDuty 255 255 255),
    (32, 0b00010010_00001001_00000000_11111111, .pwmAWrite 9 255)],
    decodeTableWord x.1 x.2.1 = some x.2.2 := by decide

/-- Motor commands; the operand words are those of R91 and V-MOT M2, M14. -/
theorem test_decode_motor : ∀ x ∈ [(32, 0b00100000_00000101_00000000_00000000, Instr.motStop 5),
    (64, 200 * 2 ^ 32 + 0b00100001_00000000_00000001_00000000, .motGo 0 true 200),
    (64, 300 * 2 ^ 32 + 0b00100001_00000001_00000000_00000000, .motGo 1 false 300),
    (64, 0xFFFFFFF9 * 2 ^ 32 + 0b00100010_00000001_00000000_00000000, .motSetPower 1 (-7)),
    (96, 0xFFFFFFE2 * 2 ^ 64 + 0x32 * 2 ^ 32 + 0b00100011_00000001_00000000_00000000, .motGoFor 1 50 (-30)),
    (96, 0x1F4 * 2 ^ 64 + 0x64 * 2 ^ 32 + 0b00100100_00000000_00000000_00000000, .motGoTo 0 100 500),
    (64, 0x14D * 2 ^ 32 + 0b00100101_00000000_00000000_00000000, .motCheck 0 333),
    (32, 0b00100110_00000001_00000000_00000000, .motMoving 1), (32, 0b00100111_00000000_00000000_00000000, .motEncPos 0)],
    decodeTableWord x.1 x.2.1 = some x.2.2 := by decide

/-- The ILLEGAL headers of V-DEC and of E19, E20, W19, M22. -/
theorem test_decode_illegal : ∀ h ∈ [0x00000000, 0x08000000, 0x13000000, 0x28000000, 0xFF000000, 0x25000001, 0x26000100,
    0x01000002, 0x03000100, 0x12090100, 0x21000200], decodeTableWord 32 h = none := by decide

/-- A frame whose operand words have not all come is not ILLEGAL; a bad header is, without them (60_exceptions.md R242). -/
theorem test_decode_order : decodeFrame [0x24000000, 0x64] = .error .incomplete ∧
    decodeFrame [0x24000001] = .error (.reservedBits 0x24000001) := ⟨rfl, rfl⟩

/-- The words of ENC.ZERO 0, -5 as bytes (R98). -/
theorem test_bytes : bytesOfWords [0x06000000, 0xFFFFFFFB] = [0, 0, 0, 6, 0xFB, 0xFF, 0xFF, 0xFF] := by decide

/-! ### The assembler (30_encoding.md R96, R97) -/

theorem test_assemble : assembleLine "MOT.GOTO 0, 100, 500 ; goal".toList = .command (.motGoTo 0 100 500) ∧
    assembleLine "ENC.ZERO 0, -5".toList = .command (.encZero 0 (-5)) ∧
    assembleLine "PWM.SETFREQ 0x9,0x3E8".toList = .command (.pwmSetFreq 9 1000) ∧
    assembleLine "MOT.REV 1, 300".toList = .command (.motGo 1 false 300) ∧
    assembleLine "PWM.HIGH 9".toList = .command (.pwmAWrite 9 255) ∧
    assembleLine "ENC.CLEAR 0".toList = .command (.encZero 0 0) := by decide

theorem test_assemble_rejects : assembleLine "PWM.AWRITE 9, 256".toList = .rejected ∧
    assembleLine "ENC.EDGEA 0, 2".toList = .rejected ∧ assembleLine "PWM.SETFREQ 9, -1".toList = .rejected ∧
    assembleLine "; only a comment".toList = .empty := by decide

/-! ### Reset, boot and fetching -/

/-- The boot state of `EX` (95_test_vectors.md section 2.2): pins 4, 5, 9 LOW and pin 8 HIGH. -/
theorem test_boot_pins : booted.pin.drop 4 = [⟨.low, .latch, .output⟩, ⟨.low, .latch, .output⟩, ⟨.low, .latch, .input⟩,
    ⟨.low, .latch, .output⟩, ⟨.high, .latch, .output⟩, ⟨.low, .latch, .output⟩] ++ List.replicate 10 ⟨.low, .latch, .input⟩ := by
  decide

/-- The three boot steps are those that `finishBoot` takes at once. -/
theorem test_boot_steps : (nextOf (step State.reset)).bind (fun s => (nextOf (step s)).bind (fun t => nextOf (step t))) =
    some booted := rfl

/-- The first step after `withFetchWord` runs the frame: `0x04000001` moves encoder 0 to (1, 0, 10, -1) (V-ENC E4). -/
theorem test_fetch_edge : encAt (step (State.reset.withFetchWord 32 0x04000001)) = some ⟨.high, .low, 2, -1⟩ := by decide

/-- `0x24000000` with operand words 0 starts an episode (V-MOT M17, at rate 0). -/
theorem test_fetch_goto : motAt 0 (step (State.reset.withFetchWord 32 0x24000000)) =
    some ⟨.backward, 16, true, 0, 0, 0, 0⟩ := by decide

/-- `0x13000000` is answered ILLEGAL with result 0. -/
theorem test_fetch_illegal : respAt (step (State.reset.withFetchWord 32 0x13000000)) = some ⟨.illegal, 0⟩ := by decide

/-! ### Encoder (V-DELTA, V-ENC) -/

/-- V-DELTA: previous code, next code, count. -/
theorem test_delta : ∀ x ∈ [((0 : BitVec 2), (0 : BitVec 2), (0 : Int)), (0, 1, 1), (0, 2, -1), (0, 3, 0), (1, 0, -1), (1, 1, 0),
    (1, 2, 0), (1, 3, 1), (2, 0, 1), (2, 1, 0), (2, 2, 0), (2, 3, -1), (3, 0, 0), (3, 1, -1), (3, 2, 1), (3, 3, 0)],
    delta x.1 x.2.1 = x.2.2 := by decide

/-- E1. -/
theorem test_setA : encAt (exec (.encSetA 0 .high) (withEnc 32 ⟨.low, .low, 0, 0⟩)) = some ⟨.high, .low, 0, 0⟩ := by decide

/-- R106's example. -/
theorem test_setB : encAt (exec (.encSetB 0 .high) (withEnc 32 ⟨.high, .low, 2, 5⟩)) = some ⟨.high, .high, 2, 5⟩ := by decide

/-- E2. -/
theorem test_tick : encAt (exec (.encTick 0) (withEnc 32 ⟨.high, .low, 0, 0⟩)) = some ⟨.high, .low, 2, -1⟩ := by decide

/-- T2: an impossible transition. -/
theorem test_tick_impossible : encAt (exec (.encTick 0) (withEnc 32 ⟨.high, .high, 0, 7⟩)) = some ⟨.high, .high, 3, 7⟩ := by decide

/-- E15: the wrap at the minimum. -/
theorem test_edgeA_wraps : encAt (exec (.encEdgeA 0 .high) (withEnc 8 ⟨.low, .low, 0, -128⟩)) = some ⟨.high, .low, 2, 127⟩ := by
  decide

/-- E9: two changes, one evaluation. -/
theorem test_edgeA_impossible : encAt (exec (.encEdgeA 0 .high) (withEnc 32 ⟨.low, .high, 0, 0⟩)) = some ⟨.high, .high, 3, 0⟩ := by
  decide

/-- E14: the wrap at the maximum. -/
theorem test_edgeB_wraps : encAt (exec (.encEdgeB 0 .high) (withEnc 8 ⟨.low, .low, 0, 127⟩)) = some ⟨.low, .high, 1, -128⟩ := by
  decide

/-- E10. -/
theorem test_edgeB : encAt (exec (.encEdgeB 0 .low) (withEnc 32 ⟨.high, .high, 3, 7⟩)) = some ⟨.high, .low, 2, 8⟩ := by decide

/-- E16: an offset is wrapped. -/
theorem test_zero_wraps : encAt (exec (.encZero 0 300) (withEnc 8 ⟨.low, .low, 0, 37⟩)) = some ⟨.low, .low, 0, 44⟩ := by decide

/-- E12: the phase is kept. -/
theorem test_zero : encAt (exec (.encZero 0 0) (withEnc 32 ⟨.high, .high, 3, 9⟩)) = some ⟨.high, .high, 3, 0⟩ := by decide

/-- E13. -/
theorem test_pos : respAt (exec (.encPos 0) (withEnc 32 ⟨.low, .low, 0, -4⟩)) = some ⟨.ok, 0xFFFFFFFC⟩ := by decide

/-- V-RACE: `0x000000FF -> 0x00000100` read bytewise is one of four values. -/
theorem test_race : (List.range 16).map (fun mask => tornValue .bytewise 32 mask 0xFF 0x100) =
    [0xFF, 0x00, 0x1FF, 0x100, 0xFF, 0x00, 0x1FF, 0x100, 0xFF, 0x00, 0x1FF, 0x100, 0xFF, 0x00, 0x1FF, 0x100] := by decide

/-! ### PWM Driver (V-SELECT, V-SCALE, V-PWM) -/

/-- V-SELECT, the 16-bit group. -/
theorem test_select16 : ∀ x ∈ [(0, none), (1, some (256, 31250)), (10, some (64, 12500)), (50, some (8, 20000)),
    (100, some (8, 10000)), (121, some (8, 8264)), (122, some (8, 8196)), (1000, some (1, 8000)), (20000, some (1, 400)),
    (2000000, some (1, 4)), (2000001, none), (3000000, none)],
    selectConfig 16000000 ⟨.bits16, .abc, [1, 8, 64, 256, 1024], 0⟩ x.1 = x.2 := by decide

/-- V-SELECT, the 8-bit group. -/
theorem test_select8 : ∀ x ∈ [(0, none), (30, none), (31, some (1024, 252)), (100, some (1024, 78)), (490, some (64, 255)),
    (1000, some (32, 250)), (20000, some (8, 50)), (31250, some (8, 32)), (31372, some (1, 255)), (31373, some (1, 254)),
    (40000, some (1, 200)), (62500, some (1, 128)), (2000000, some (1, 4)), (2000001, none)],
    selectConfig 16000000 ⟨.bits8, .ab, [1, 8, 32, 64, 128, 256, 1024], 0⟩ x.1 = x.2 := by decide

/-- V-SCALE. -/
theorem test_scale : ∀ x ∈ [(8000, 0, 0), (8000, 1, 31), (8000, 128, 4000), (8000, 255, 7968), (12500, 128, 6250), (250, 17, 16),
    (250, 100, 97), (400, 16, 25), (4, 63, 0), (4, 64, 1), (4, 255, 3), (255, 255, 254), (65535, 255, 65279), (0, 200, 0)],
    scale x.1 x.2.1 = x.2.2 := by decide

/-- W3. -/
theorem test_setFreq : grpAt 0 (exec (.pwmSetFreq 9 10)
      (withGroup 0 8000 [⟨128, 4000, true⟩, ⟨0, 0, false⟩, ⟨0, 0, false⟩] booted)) =
    some ⟨10, 12500, .prescaler 64, .pwm, [⟨128, 6250, true⟩, ⟨0, 0, false⟩, ⟨0, 0, false⟩]⟩ := by decide

/-- W5 to W8: too fast, too slow, no timer, no pin. -/
theorem test_setFreq_fails : ∀ x ∈ [(9, 2000001), (11, 30), (12, 1000), (25, 1000)],
    exec (.pwmSetFreq x.1 x.2) booted = .next (booted.respond 0) := by
  simp only [List.forall_mem_cons, List.not_mem_nil, IsEmpty.forall_iff, implies_true, and_true]
  exact ⟨rfl, rfl, rfl, rfl⟩

/-- W18: a channel with no pin. -/
theorem test_setDuty : grpAt 0 (exec (.pwmSetDuty 0 2 255)
      (withGroup 0 8000 [⟨0, 0, false⟩, ⟨0, 0, false⟩, ⟨0, 0, false⟩] booted)) =
    some ⟨1, 8000, .prescaler 1, .pwm, [⟨0, 0, false⟩, ⟨0, 0, false⟩, ⟨255, 7968, true⟩]⟩ := by decide

/-- W1: before any frequency the period is INIT_TOP; the pin goes to the timer. -/
theorem test_setDuty_pin : pinAt 9 (exec (.pwmSetDuty 0 0 128) booted) = some ⟨.low, .timer, .output⟩ := by decide

/-- W11. -/
theorem test_aWrite : grpAt 1 (exec (.pwmAWrite 3 100) (withGroup 1 250 [⟨0, 0, false⟩, ⟨0, 0, false⟩] booted)) =
    some ⟨1, 250, .prescaler 1, .pwm, [⟨0, 0, false⟩, ⟨100, 97, true⟩]⟩ := by decide

/-- W12: the duty and the compare value are kept. -/
theorem test_aWrite_zero : grpAt 1 (exec (.pwmAWrite 3 0) (withGroup 1 250 [⟨0, 0, false⟩, ⟨100, 97, true⟩] booted)) =
    some ⟨1, 250, .prescaler 1, .pwm, [⟨0, 0, false⟩, ⟨100, 97, false⟩]⟩ := by decide

/-- The end of program P2: pin 10, an INPUT pin of the timer, carries 100 Hz, 2500 of 10000 high. -/
theorem test_waveform : State.pinOutput (withPin 10 ⟨.low, .timer, .input⟩ (booted.modGroup 0 (fun _ =>
      ⟨100, 10000, .prescaler 8, .pwm, [⟨128, 5000, false⟩, ⟨64, 2500, true⟩, ⟨0, 0, false⟩]⟩))) 10 =
    .waveform 16000000 160000 2500 10000 := by decide

/-! ### Motor Controller (V-NEXT, V-MOT, program P3) -/

/-- V-NEXT at rates 0, 60, 120, 100 and target 100, before the clamp. -/
theorem test_nextPower : ∀ x ∈ [(0, [16, 0, 0, 0]), (1, [16, 1, 0, 1]), (9, [16, 9, 8, 9]), (10, [16, 11, 9, 10]),
    (15, [16, 16, 13, 15]), (16, [32, 17, 14, 16]), (17, [34, 18, 15, 17]), (100, [200, 110, 90, 100]), (128, [256, 140, 116, 128]),
    (200, [400, 220, 181, 200]), (254, [508, 279, 230, 254]), (255, [510, 280, 231, 255])],
    [0, 60, 120, 100].map (fun rate => nextPower Config.ex x.1 rate 100) = x.2 := by decide

/-- R199: where binary64 division differs, at 33 and 253, and where it agrees, at 34. -/
theorem test_binary64 : [33, 34, 253].map (fun p => powerDownBinary64.getD p 0) = [29, 30, 229] := by decide

/-- M13: the enable high, the PWM pin low, the direction pin as it was. -/
theorem test_stop : (nextOf (exec (.motStop 0) (withPin 7 ⟨.high, .latch, .output⟩ (withPin 9 ⟨.high, .latch, .output⟩ booted)))).map
    (fun s => (s.pin.drop 7).take 3) =
    some [⟨.high, .latch, .output⟩, ⟨.high, .latch, .output⟩, ⟨.low, .latch, .output⟩] := by decide

/-- The end of program P3: the stop of motor 0 keeps duty 30 and compare value 46 behind pin 9, with the output disconnected (R150). -/
theorem test_stop_keeps_duty : grpAt 0 (exec (.motStop 0) (withPin 9 ⟨.low, .timer, .output⟩
      (withGroup 0 400 [⟨30, 46, true⟩, ⟨0, 0, false⟩, ⟨0, 0, false⟩] booted))) =
    some ⟨1, 400, .prescaler 1, .pwm, [⟨30, 46, false⟩, ⟨0, 0, false⟩, ⟨0, 0, false⟩]⟩ := by decide

/-- M1. -/
theorem test_go : (nextOf (exec (.motGo 1 true 200) booted)).map (fun s => (s.pin.drop 4).take 2) =
    some [⟨.high, .latch, .output⟩, ⟨.low, .generic 55, .output⟩] := by decide

/-- M5: power clamped to 255, the complement 0 forces the other pin low. -/
theorem test_go_full : (nextOf (exec (.motGo 1 false 300) booted)).map (fun s => ((s.pin.drop 4).take 2, (s.motor 1).power)) =
    some ([⟨.low, .latch, .output⟩, ⟨.high, .latch, .output⟩], 255) := by decide

/-- M4: power 100 forward writes pin 5 alone. -/
theorem test_setPower : (nextOf (exec (.motSetPower 1 100) (withMotor 1 ⟨.forward, 0, false, 0, 0, 0, 0⟩ booted))).map
    (fun s => (s.pin.drop 4).take 2) = some [⟨.low, .latch, .output⟩, ⟨.low, .generic 155, .output⟩] := by decide

/-- M8: stopped, DUAL wiring: the power is stored and no pin is written. -/
theorem test_setPower_stopped : exec (.motSetPower 1 50) booted =
    .next ((withMotor 1 ⟨.stopped, 50, false, 0, 0, 0, 0⟩ booted).respond 0) := rfl

/-- M14: encoder 1 at 40, clock 1000. -/
theorem test_goFor : motAt 1 (exec (.motGoFor 1 50 (-30)) { booted with enc := [.atReset, ⟨.low, .low, 0, 40⟩], draw := 1000 }) =
    some ⟨.backward, 16, true, 10, 50, 1000, 40⟩ := by decide

/-- R191 case 3 at 8 bits: 100 + 100 wraps to -56, so the motor runs backward. -/
theorem test_goFor_wraps : motAt 0 (exec (.motGoFor 0 50 100) (withEnc 8 ⟨.low, .low, 0, 100⟩)) =
    some ⟨.backward, 16, true, -56, 50, 0, 100⟩ := by decide

/-- R190's example. -/
theorem test_goTo : motAt 0 (exec (.motGoTo 0 100 500) booted) = some ⟨.forward, 16, true, 500, 100, 0, 0⟩ := by decide

/-- P3: at position 20 and 333 ms the rate is 60, below 100. -/
theorem test_check : motAt 0 (exec (.motCheck 0 333)
      (withMotor 0 ⟨.forward, 16, true, 500, 100, 0, 0⟩ (withEnc 32 ⟨.low, .low, 0, 20⟩))) =
    some ⟨.forward, 17, true, 500, 100, 333, 20⟩ := by decide

/-- M19: the clock has wrapped, 396 ms have passed, and the motor stalls. -/
theorem test_check_wraps : motAt 0 (exec (.motCheck 0 100) (withMotor 0 ⟨.forward, 16, true, 500, 100, 4294967000, 0⟩ booted)) =
    some ⟨.forward, 32, true, 500, 100, 100, 0⟩ := by decide

/-- M3. -/
theorem test_moving : respAt (exec (.motMoving 1) (withMotor 1 ⟨.forward, 0, false, 0, 0, 0, 0⟩ booted)) = some ⟨.ok, 1⟩ := by decide

/-- M21. -/
theorem test_encPos : respAt (exec (.motEncPos 0) (withEnc 32 ⟨.low, .low, 0, -4⟩)) = some ⟨.ok, 0xFFFFFFFC⟩ := by decide

/-! ### Witnesses: a state and operands that meet the hypotheses of each statement together -/

set_option maxRecDepth 4000 in
/-- The parameters of `EX` are a block's (BootSequence, ResetMeetsTheInvariant). -/
theorem witness_config : Config.ex.wf = true := by decide

/-- The hypotheses of ResetValues inside `EX`: the last encoder, group, pin and motor, and a pin no motor uses. -/
theorem witness_resetValues : 1 < Config.ex.nEnc ∧ Config.ex.groups[1]? ≠ none ∧ 19 < Config.ex.nPins ∧
    1 < Config.ex.motors.length ∧ ∀ mc ∈ Config.ex.motors, 10 ∉ mc.wiring.pins := by decide

/-- Motor 1 of `EX` is the last, and shares no pin (BootSequence's last clause). -/
theorem witness_bootSequence : ∀ (m' : Nat) (mc' : MotorConfig), 0 < m' → Config.ex.motors[m']? = some mc' →
    ∀ p ∈ mc'.wiring.pins, p ∉ (Wiring.dirPwm 7 9 (some 8)).pins := by
  intro m' mc' h hm
  have hl : m' < 2 := (List.getElem?_eq_some_iff.mp hm).1
  obtain rfl : m' = 1 := by omega
  cases hm
  decide

/-- The booted `EX` meets the invariant, which most statements assume. -/
theorem witness_inv : booted.Inv where
  cfg := witness_config
  encLength := rfl
  grpLength := rfl
  pinLength := rfl
  motLength := rfl
  positions x hx := by
    obtain rfl : x = .atReset := by
      have : booted.enc = [.atReset, .atReset] := rfl
      simpa [this] using hx
    exact fits_zero _
  groups g gc x hg hx := by
    have hgs : booted.cfg.groups = Config.ex.groups := rfl
    have hx' : x = .atReset gc := by
      have : booted.grp = Config.ex.groups.map .atReset := rfl
      rw [this, List.getElem?_map, ← hgs, hg] at hx
      exact (Option.some.inj hx).symm
    subst hx'
    have hmem : gc ∈ Config.ex.groups := List.mem_of_getElem? (hgs ▸ hg)
    have hi : ∀ gc ∈ Config.ex.groups, gc.initTop ≤ gc.width.topMax := by decide
    refine ⟨by simp [Group.atReset], hi gc hmem, fun ch hc => ?_, .inl ⟨rfl, rfl, rfl, rfl⟩⟩
    obtain rfl : ch = .atReset := (List.mem_replicate.mp hc).2
    simp [Channel.Inv, Channel.atReset, scale]
  pins p x hx := by
    have hd : ∀ y ∈ booted.pin, y.drive = .latch := by decide
    have ho : ∀ y ∈ booted.grp, ∀ ch ∈ y.chans, ch.oen = false := by decide
    have hxd := hd x (List.mem_of_getElem? hx)
    refine ⟨fun g c ch _ hc => ?_, by simp [hxd], by simp [hxd]⟩
    rw [channel?_eq] at hc
    cases hg : booted.group? g with
    | none => simp [hg] at hc
    | some y =>
      simp only [hg, Option.bind_some] at hc
      simp [hxd, ho y (List.mem_of_getElem? hg) ch (List.mem_of_getElem? hc)]
  motors x hx := by
    obtain rfl : x = .atReset := by
      have : booted.mot = [.atReset, .atReset] := rfl
      simpa [this] using hx
    exact ⟨fits_zero _, fits_zero _, by simp [Motor.atReset]⟩
  record r h := by cases h
  race r h := by cases h

/-! Frames. -/

/-- EncodedCommandDecodesToItself, SerializedFramesAreLittleEndian: commands at the ends of their operand ranges. -/
theorem witness_encoded : ∀ i ∈ [Instr.motGoTo 255 (-2147483648) 2147483647, .pwmSetDuty 255 255 255, .pwmSetFreq 0 4294967295,
    .encSetA 255 .high], i.wf = true := by decide

/-- DecodedFrameIsTheCommandsEncoding. -/
theorem witness_decoded : decodeFrame [0x24FF0000, 0x80000000, 0x7FFFFFFF, 9] =
    .ok (.motGoTo 255 (-2147483648) 2147483647, [9]) := rfl

/-- HeaderIllegalExactlyWhenNoRowMatches: a header no row matches, and one that a row matches. -/
theorem witness_header : (∀ o : Opcode, (0x28000000 : Word) &&& o.format.fixedMask ≠ BitVec.ofNat 32 (o.code * 16777216)) ∧
    (0x27FF0000 : Word) &&& Opcode.motEncPos.format.fixedMask = BitVec.ofNat 32 (Opcode.motEncPos.code * 16777216) :=
  ⟨fun o => by cases o <;> decide, by decide⟩

/-- IllegalFrameChangesNoUnit: a reserved bit of MOT.GOTO's header, whose two operand words follow. -/
theorem witness_illegalFrame : (withFrames [] [0x24000001, 1, 2] [⟨.control, 0, none⟩]).boot = .running ∧
    (withFrames [] [0x24000001, 1, 2] [⟨.control, 0, none⟩]).port .control = [0x24000001, 1, 2] ∧
    ∀ o : Opcode, (0x24000001 : Word) &&& o.format.fixedMask ≠ BitVec.ofNat 32 (o.code * 16777216) :=
  ⟨rfl, rfl, fun o => by cases o <;> decide⟩

/-- StepRunsTheDecodedCommand: an edge turn, and a control turn whose read overlaps nothing. -/
theorem witness_step : (withFrames [0x04000001] [] [⟨.edge, 0, none⟩]).boot = .running ∧
    decodeFrame ((withFrames [0x04000001] [] [⟨.edge, 0, none⟩]).port .edge) = .ok (.encEdgeA 0 .high, []) ∧
    decodeFrame ((withFrames [] [0x27010000] [⟨.control, 7, none⟩]).port .control) = .ok (.motEncPos 1, []) := ⟨rfl, rfl, rfl⟩

/-- WrongAgentCommandIsRefused: ENC.POS on the edge agent's port. -/
theorem witness_wrongAgent : decodeFrame ((withFrames [0x07000000] [] [⟨.edge, 0, none⟩]).port .edge) = .ok (.encPos 0, []) ∧
    (Instr.encPos 0).agent ≠ .edge := ⟨rfl, by decide⟩

/-- IdleBlockWaits. -/
theorem witness_idle : booted.boot = .running ∧ booted.turns = [] := ⟨rfl, rfl⟩

/-- OutOfRangeIndexIsIgnored: the first index out of range of every command under `EX` (for channels, both groups). -/
theorem witness_outOfRange : ∀ i ∈ [Instr.encSetA 2 .low, .encSetB 2 .low, .encTick 2, .encEdgeA 2 .low, .encEdgeB 2 .low,
    .encZero 2 0, .encPos 2, .pwmSetFreq 20 1, .pwmSetDuty 2 0 0, .pwmSetDuty 0 3 0, .pwmSetDuty 1 2 0, .pwmAWrite 20 0, .motStop 2,
    .motGo 2 true 0, .motSetPower 2 0, .motGoFor 2 0 0, .motGoTo 2 0 0, .motCheck 2 0, .motMoving 2, .motEncPos 2],
    outOfRange Config.ex i = true := by decide

/-- NoPortIsServedBeforeHandlers: each of its four cases. -/
theorem witness_boot : State.reset.boot ≠ .running ∧ (∃ t, step State.reset = .next t) ∧
    decodeFrame ({ State.reset with boot := .handlers, bootPort := [0x06010000, 0] }).bootPort = .ok (.encZero 1 0, []) ∧
    decodeFrame ({ State.reset with boot := .handlers, bootPort := [0x07000000] }).bootPort = .ok (.encPos 0, []) ∧
    ({ State.reset with boot := .handlers }).bootPort = [] := ⟨by decide, ⟨_, rfl⟩, rfl, rfl, rfl⟩

/-- EveryStepKeepsTheInvariant: from the booted state, whose invariant is `witness_inv`. -/
theorem witness_step_inv : ∃ t, step booted = .next t := ⟨_, rfl⟩

/-! Encoders. -/

/-- The hypotheses of the encoder statements, at the last encoder. -/
theorem witness_encoder : 1 < booted.cfg.nEnc ∧ booted.enc.length = booted.cfg.nEnc ∧ booted.race = none ∧
    2 ≤ booted.cfg.posWidth ∧ fitsWidth booted.cfg.posWidth (booted.encoder 1).pos := by
  refine ⟨by decide, rfl, rfl, by decide, fits_zero _⟩

/-- The same at 8 bits with the position at its maximum (CountLaw, EdgeCommandMovesByAtMostOne). -/
theorem witness_countLaw : 0 < (withEnc 8 ⟨.low, .low, 0, 127⟩).cfg.nEnc ∧ fitsWidth 8 127 ∧
    ∃ t, exec (.encEdgeB 0 .high) (withEnc 8 ⟨.low, .low, 0, 127⟩) = .next t := by
  refine ⟨by decide, by simp [fitsWidth], ⟨_, rfl⟩⟩

/-- PositionReadsAnswerThePosition: a read that overlaps an edge of encoder 1, of encoder 0 and of encoder 1. -/
theorem witness_race : ({ booted with race := some ⟨1, 7, 0⟩ } : State).race = some ⟨1, 7, 0⟩ ∧ (⟨1, 7, 0⟩ : Race).enc ≠ 0 ∧
    ({ booted with race := some ⟨1, 7, 0⟩ } : State).readPos 0 = 0 ∧ ({ booted with race := some ⟨1, 7, 0⟩ } : State).readPos 1 = 7 := by
  decide

/-- ImpossibleTransitionIsDropped: each of its three cases, from phase 00. -/
theorem witness_impossible : (withEnc 32 ⟨.high, .high, 0, 7⟩).encoder 0 = ⟨.high, .high, phaseCode .low .low, 7⟩ ∧
    (∃ t, exec (.encTick 0) (withEnc 32 ⟨.high, .high, 0, 7⟩) = .next t) ∧
    (∃ t, exec (.encEdgeA 0 .high) (withEnc 32 ⟨.low, .high, 0, 7⟩) = .next t) ∧
    (∃ t, exec (.encEdgeB 0 .high) (withEnc 32 ⟨.high, .low, 0, 7⟩) = .next t) := ⟨rfl, ⟨_, rfl⟩, ⟨_, rfl⟩, ⟨_, rfl⟩⟩

/-- EdgeOrderDecidesTheCount. -/
theorem witness_edgeOrder : booted.encoder 0 = ⟨.low, .low, 0, 0⟩ := rfl

/-- OnlyEncoderCommandsWriteEncoders, AgentsTouchDisjointState, ReadsHaveNoSideEffect: commands of each kind complete. -/
theorem witness_completes : (∃ t, exec (.encPos 0) booted = .next t) ∧ (∃ t, exec (.motStop 0) booted = .next t) ∧
    (∃ t, exec (.encTick 0) booted = .next t) ∧ (∃ t, exec (.encZero 0 1) booted = .next t) ∧
    Machine.Instr.encoderIndex (.motStop 0) = none := ⟨⟨_, rfl⟩, ⟨_, rfl⟩, ⟨_, rfl⟩, ⟨_, rfl⟩, rfl⟩

/-- RacingReadValues: the smallest and the largest number of a width that is no whole number of bytes. -/
theorem witness_racingRead : fitsWidth 12 (-2048) ∧ fitsWidth 12 2047 := by simp [fitsWidth]

/-- OverlappedReadSeesAnAdmittedValue: an edge, then an overlapped read of the same encoder. -/
theorem witness_overlap : decodeFrame (withFrames [0x05000001] [0x07000000] [⟨.edge, 0, none⟩, ⟨.control, 0, some 0⟩]).edgePort =
      .ok (.encEdgeB 0 .high, []) ∧
    decodeFrame (withFrames [0x05000001] [0x07000000] [⟨.edge, 0, none⟩, ⟨.control, 0, some 0⟩]).controlPort =
      .ok (.encPos 0, []) ∧ Machine.Instr.encoderIndex (.encEdgeB 0 .high) = some 0 := ⟨rfl, rfl, rfl⟩

/-! PWM Driver. -/

/-- SetFreqSucceedsExactlyWhenAPairExists, SetFreqReprogramsTheGroup, AchievedFrequencyIsWithinOneCount: the period 4 is a fit. -/
theorem witness_setFreq : booted.cfg.timerOf 9 = some (0, 0) ∧ (∃ gc, booted.cfg.groups[0]? = some gc ∧
    selectConfig booted.cfg.baseClock gc 2000000 = some (1, 4)) ∧ ∃ x, booted.group? 0 = some x := by
  exact ⟨rfl, ⟨_, rfl, by decide⟩, ⟨_, rfl⟩⟩

/-- SetFreqSucceedsExactlyWhenAPairExists: a pin in range with no timer, and one out of range. -/
theorem witness_setFreq_noTimer : booted.cfg.timerOf 12 = none ∧ 12 < booted.cfg.nPins ∧ booted.cfg.timerOf 20 = none := by decide

/-- The same statements' other case: at the next frequency no period is in range. -/
theorem witness_setFreq_none : ¬∃ ps ∈ [1, 8, 64, 256, 1024], 3 < 16000000 / (2 * ps * 2000001) ∧
    16000000 / (2 * ps * 2000001) ≤ 65535 := by decide

/-- FailedSetFreqChangesNothing. -/
theorem witness_failedSetFreq : exec (.pwmSetFreq 9 2000001) booted = .next (booted.respond 0) ∧
    (booted.respond 0).resp ≠ ⟨.ok, 1⟩ := ⟨rfl, by decide⟩

/-- SetDutyProgramsTheChannel: a channel with a pin, and one without. -/
theorem witness_setDuty : channelExists booted.cfg 0 2 = true ∧ booted.channel? 0 2 = some ⟨0, 0, false⟩ ∧
    channelExists booted.cfg 1 1 = true ∧ booted.channel? 1 1 = some ⟨0, 0, false⟩ ∧ booted.cfg.timerOf 3 = some (1, 1) :=
  ⟨rfl, rfl, rfl, rfl, rfl⟩

/-- AnalogWriteDrivesThePin. -/
theorem witness_aWrite : 19 < booted.cfg.nPins ∧ 254 < 256 := by decide

/-- Group 0 at 1000 Hz, period 8000 (V-SELECT), with the invariant. -/
theorem witness_running : (programGroup 0 1 8000 1000 booted).Inv :=
  inv_programGroup witness_inv 0 1 8000 1000 (gc := ⟨.bits16, .abc, [1, 8, 64, 256, 1024], 0⟩) rfl (by decide) (by decide) (by decide)
    (by decide)

/-- AnalogWriteShowsOnThePin: its four clauses, an OUTPUT pin with a timer, one without, and a running group at values 1 and 254. -/
theorem witness_shows : (programGroup 0 1 8000 1000 booted).pin? 9 = some ⟨.low, .latch, .output⟩ ∧
    (programGroup 0 1 8000 1000 booted).pin? 4 = some ⟨.low, .latch, .output⟩ ∧ booted.cfg.timerOf 4 = none ∧
    (∃ y, (programGroup 0 1 8000 1000 booted).group? 0 = some y ∧ y.cs = .prescaler 1 ∧ 0 < y.top * 1 / 256 ∧
      0 < y.top * 254 / 256) := ⟨by decide, by decide, rfl, ⟨_, rfl, rfl, by decide, by decide⟩⟩

/-- A register map: a control register of group 0 (address 0), registers of its other fields (1 to 6), registers of group 1 (10 to 14). -/
def registerMap : List Placement :=
  [⟨0, 0, .cs 0 ⟨[(0, .off), (1, .prescaler 1), (2, .prescaler 8), (3, .prescaler 64), (4, .prescaler 256), (5, .prescaler 1024)], .off⟩⟩,
   ⟨0, 16, .oen 0 0⟩, ⟨0, 17, .oen 0 1⟩, ⟨0, 20, .oen 0 2⟩, ⟨1, 0, .top 0⟩, ⟨2, 0, .cmp 0 0⟩, ⟨3, 0, .freq 0⟩, ⟨4, 0, .duty 0 1⟩,
   ⟨5, 1, .wgm 0 ⟨[(0, .reset), (9, .pwm)], .pwm⟩⟩] ++
  [⟨10, 0, .cs 1 ⟨[(0, .off), (1, .prescaler 1), (2, .prescaler 8), (3, .prescaler 32), (4, .prescaler 64), (5, .prescaler 128),
      (6, .prescaler 256), (7, .prescaler 1024)], .prescaler 8⟩⟩,
   ⟨11, 0, .top 1⟩, ⟨12, 0, .cmp 1 0⟩, ⟨13, 0, .cmp 1 1⟩, ⟨14, 0, .duty 1 1⟩]

/-- `EX` with that map, after boot. -/
def withRegisters : State := { booted with cfg := { Config.ex with timerRegMap := registerMap } }

/-- RegisterWriteSetsItsFields, RegisterReadsBackWhatIsWritten: a control register of four fields, in 3 bytes. -/
theorem witness_registers : regMapWf withRegisters.cfg = true ∧ (placed withRegisters.cfg 0).length = 4 ∧
    registerBits withRegisters.cfg (placed withRegisters.cfg 0) = 21 ∧
    (nextOf (memWrite 0 3 0x150003 withRegisters)).isSome := by decide

set_option maxRecDepth 4000 in
/-- The same statements: the parameters and the shape. -/
theorem witness_registers_shaped : withRegisters.cfg.wf = true ∧ withRegisters.shaped := by
  refine ⟨by decide, rfl, fun g gc x hg hx => ?_⟩
  match g with
  | 0 => cases hg; cases hx; decide
  | 1 => cases hg; cases hx; decide
  | g + 2 => cases hg

/-- RegisterWriteSetsItsFields: each of its stops: no register, 2 bytes of 21 bits. -/
theorem witness_registers_stop : placed withRegisters.cfg 7 = [] ∧
    8 * 2 < registerBits withRegisters.cfg (placed withRegisters.cfg 0) := ⟨rfl, by decide⟩

/-- RegisterSequenceReprogramsTheGroup: group 1 of two channels, at the largest period of 8 bits. -/
theorem witness_registers_sequence : placed withRegisters.cfg 10 = [⟨10, 0, .cs 1 ⟨[(0, .off), (1, .prescaler 1), (2, .prescaler 8),
      (3, .prescaler 32), (4, .prescaler 64), (5, .prescaler 128), (6, .prescaler 256), (7, .prescaler 1024)], .prescaler 8⟩⟩] ∧
    placed withRegisters.cfg 11 = [⟨11, 0, .top 1⟩] ∧ (∀ c < 2, placed withRegisters.cfg (12 + c) = [⟨12 + c, 0, .cmp 1 c⟩]) ∧
    (withRegisters.group? 1).map (fun x => x.chans.length) = some 2 ∧ (255 : Nat) ≤ CounterWidth.bits8.topMax := by decide

/-- A control register: bits 0 to 15 select the clock (code 3 is prescaler 64), bits 16, 17 and 20 enable outputs A, B, C (R63); pin 9,
mapped to channel A, follows its enable (10_state.md R36). -/
theorem test_register_control : grpAt 0 (memWrite 0 3 0x110003 withRegisters) =
      some ⟨0, 0, .prescaler 64, .reset, [⟨0, 0, true⟩, ⟨0, 0, false⟩, ⟨0, 0, true⟩]⟩ ∧
    pinAt 9 (memWrite 0 3 0x110003 withRegisters) = some ⟨.low, .timer, .output⟩ := by decide

/-- It reads back so, the bits of no field being those of the environment. -/
theorem test_register_reads : (nextOf (memWrite 0 3 0x110003 withRegisters)).bind (memRead 0 4 0xFFFFFFFF) = some 0xFFFD0003 ∧
    (nextOf (memWrite 0 3 0x110003 withRegisters)).bind (memRead 0 4 0) = some 0x00110003 := by decide

/-- The period of a running group is assigned, and nothing with it (R63). -/
theorem test_register_running : grpAt 1 (memWrite 11 1 200 (withGroup 1 128 [⟨0, 0, false⟩, ⟨100, 50, true⟩] withRegisters)) =
    some ⟨1, 200, .prescaler 1, .pwm, [⟨0, 0, false⟩, ⟨100, 50, true⟩]⟩ := by decide

/-- The gated sequence of 41_pwm.md R143 at V-SELECT's 1000 Hz of the 8-bit group, prescaler 32 and period 250, with W11's duty 100. -/
theorem test_register_sequence : grpAt 1 (memWrites 1 [(10, 0), (11, 250), (12, 0), (13, 97), (10, 3)]
      (withGroup 1 128 [⟨0, 0, false⟩, ⟨100, 50, true⟩] withRegisters)) =
    some ⟨1, 250, .prescaler 32, .pwm, [⟨0, 0, false⟩, ⟨100, 97, true⟩]⟩ := by decide

/-! Motor Controller. -/

/-- The hypotheses of the motor statements: motor 0 with an enable pin, motor 1 in DUAL wiring. -/
theorem witness_motor : booted.cfg.motors[0]? = some ⟨.dirPwm 7 9 (some 8), 0⟩ ∧ booted.cfg.motors[1]? = some ⟨.dual 4 5, 1⟩ ∧
    (booted.motor 1).dir = .stopped ∧ (∃ t, exec (.motStop 1) booted = .next t) := ⟨rfl, rfl, rfl, ⟨_, rfl⟩⟩

/-- Motor 1 in an episode at 100 ticks per second to goal 500, forward, and to goal -500, backward. -/
theorem witness_episode : (startRegulation 1 (.dual 4 5) 100 500 0 booted).Inv ∧
    (startRegulation 1 (.dual 4 5) 100 (-500) 0 booted).Inv :=
  ⟨inv_startRegulation witness_inv 1 _ 100 500 0 ⟨by decide, by decide⟩ (fits_zero _),
    inv_startRegulation witness_inv 1 _ 100 (-500) 0 ⟨by decide, by decide⟩ (fits_zero _)⟩

/-- SetPowerStoresAndAppliesThePower: both directions (stopped in `witness_motor`), at powers 0, 1 and 255. -/
theorem witness_setPower : ((startRegulation 1 (.dual 4 5) 100 500 0 booted).motor 1).dir = .forward ∧
    ((startRegulation 1 (.dual 4 5) 100 (-500) 0 booted).motor 1).dir = .backward ∧ (0 : Int) ≤ 0 ∧ (0 : Int) < 1 ∧ (0 : Int) < 255 ∧
    (255 : Int) ≤ 255 ∧ pinAt 5 (exec (.motSetPower 1 255) (startRegulation 1 (.dual 4 5) 100 500 0 booted)) =
      some ⟨.low, .latch, .output⟩ := by decide

/-- CheckRegulates: outside regulation; in an episode with the goal at the position; one tick short of it, at 332 and 333 ms. -/
theorem witness_check : (booted.motor 1).regulated = false ∧
    ((startRegulation 1 (.dual 4 5) 100 500 0 booted).motor 1).regulated = true ∧
    atGoal ((startRegulation 1 (.dual 4 5) 100 500 0 booted).motor 1) 500 ∧
    ¬atGoal ((startRegulation 1 (.dual 4 5) 100 500 0 booted).motor 1) 499 ∧
    uwrapTo 32 ((332 : Nat) - (0 : Nat)) < booted.cfg.checkInterval ∧ booted.cfg.checkInterval ≤ uwrapTo 32 ((333 : Nat) - (0 : Nat)) := by
  refine ⟨rfl, by decide, .inl ⟨by decide, by decide⟩, ?_, by decide, by decide⟩
  rintro (⟨-, h⟩ | ⟨h, -⟩)
  · revert h; decide
  · revert h; decide

/-- CheckRegulates, EpisodeEndsOnlyByStopOrReplacement: the position of that episode is 0, short of the goal. -/
theorem witness_check_running : (startRegulation 1 (.dual 4 5) 100 500 0 booted).readPos 1 = 0 ∧
    (∃ t, exec (.motCheck 1 333) (startRegulation 1 (.dual 4 5) 100 500 0 booted) = .next t) := ⟨by decide, ⟨_, rfl⟩⟩

/-- NextPowerRule: each of its clauses, at the seed power and one below. -/
theorem witness_nextPower : 15 < Config.ex.seedPower ∧ Config.ex.seedPower ≤ 16 ∧ ((100 : Nat) : Int) = 100 ∧
    ((99 : Nat) : Int) < 100 ∧ ((101 : Nat) : Int) > 100 := by decide

/-- CorrectionsBelowTargetRaiseThePower: the default table, at rate 1 and target 2, and the default seed. -/
theorem witness_corrections : Config.ex.powerUp = powerUpDefault ∧ 0 < 1 ∧ ((1 : Nat) : Int) < 2 ∧ Config.ex.seedPower = 16 :=
  ⟨rfl, by decide, by decide, rfl⟩

/-- PowerZeroIsSticky: after boot the enable of motor 0 is forced high; a forward motor 1 whose power has gone to 0 has pin 4 low. -/
theorem witness_sticky : booted.forced 8 .high ∧ (setPowerCore 1 (.dual 4 5) 0 (startRegulation 1 (.dual 4 5) 100 500 0 booted)).Inv ∧
    ((setPowerCore 1 (.dual 4 5) 0 (startRegulation 1 (.dual 4 5) 100 500 0 booted)).motor 1).dir = .forward ∧
    (setPowerCore 1 (.dual 4 5) 0 (startRegulation 1 (.dual 4 5) 100 500 0 booted)).forced 4 .low := by
  refine ⟨⟨⟨⟨.high, .latch, .output⟩, by decide, rfl, rfl⟩, fun g c h => ?_⟩, inv_setPowerCore witness_episode.1 _ _ _, by decide,
    ⟨⟨.low, .latch, .output⟩, by decide, rfl, rfl⟩, fun g c h => ?_⟩
  · have : booted.cfg.timerOf 8 = none := rfl
    rw [this] at h; cases h
  · have : (setPowerCore 1 (.dual 4 5) 0 (startRegulation 1 (.dual 4 5) 100 500 0 booted)).cfg.timerOf 4 = none := rfl
    rw [this] at h; cases h

/-- ClockIsMonotone, ElapsedTimeAcrossAWrap: the largest step of the clock and the largest elapsed time. -/
theorem witness_clock : 2147483647 < 2147483648 ∧ 4294967295 < 4294967296 ∧
    ∃ t, exec (.motGoFor 0 1 1) booted = .next t ∧ t.clock = some 0 := ⟨by decide, by decide, ⟨_, rfl, rfl⟩⟩

end Sys2Proof.Tests
end

section
/-! PROOFS. The state of the block (10_state.md): what a command can do to the state, said once, and from it what every step keeps
(O16), who writes encoders (O27), what a pin shows after an analog write (O40) and what a failed reprogramming leaves (O35). -/

namespace Sys2Proof.Machine

open Sys2Proof

/-! ### What a command can do -/

/-- What command `i` can make of the units of `s` before it answers: nothing (a read, a unit out of range, a failed reprogramming), or
the one operation that gives it its meaning, with the condition under which it runs. -/
inductive Effect (s : State) : Instr → State → Prop where
  | unchanged (i : Instr) : Effect s i s
  | setA {e : Nat} (l : Level) : e < s.cfg.nEnc → Effect s (.encSetA e l) (storeA e l s)
  | setB {e : Nat} (l : Level) : e < s.cfg.nEnc → Effect s (.encSetB e l) (storeB e l s)
  | tick {e : Nat} : e < s.cfg.nEnc → Effect s (.encTick e) (tick e s)
  | edgeA {e : Nat} (l : Level) : e < s.cfg.nEnc → Effect s (.encEdgeA e l) (Machine.tick e (storeA e l s))
  | edgeB {e : Nat} (l : Level) : e < s.cfg.nEnc → Effect s (.encEdgeB e l) (Machine.tick e (storeB e l s))
  | zero {e : Nat} (offset : Int) : e < s.cfg.nEnc →
      Effect s (.encZero e offset) (s.modEncoder e (fun x => { x with pos := wrapTo s.cfg.posWidth offset }))
  | setFreq {p f g ps t : Nat} : freqPlan s.cfg p f = some (g, ps, t) → Effect s (.pwmSetFreq p f) (programGroup g ps t f s)
  | setDuty {g c : Nat} (d : Nat) : channelExists s.cfg g c = true → Effect s (.pwmSetDuty g c d) (dutyCore g c d s)
  | aWrite (p v : Nat) : Effect s (.pwmAWrite p v) (aWriteCore p v s)
  | stop {m : Nat} {mc : MotorConfig} : s.cfg.motors[m]? = some mc → Effect s (.motStop m) (stopMotor m mc.wiring s)
  | go {m : Nat} {mc : MotorConfig} (fwd : Bool) (pw : Int) : s.cfg.motors[m]? = some mc →
      Effect s (.motGo m fwd pw) (goMotor m mc.wiring fwd pw s)
  | setPower {m : Nat} {mc : MotorConfig} (pw : Int) : s.cfg.motors[m]? = some mc →
      Effect s (.motSetPower m pw) (setPowerCore m mc.wiring pw s)
  | goFor {m : Nat} {mc : MotorConfig} (rate ticks : Int) : s.cfg.motors[m]? = some mc → Effect s (.motGoFor m rate ticks)
      (startRegulation m mc.wiring rate (wrapTo s.cfg.posWidth (posSnap mc s + ticks)) (posSnap mc s) s)
  | goTo {m : Nat} {mc : MotorConfig} (rate goal : Int) : s.cfg.motors[m]? = some mc → Effect s (.motGoTo m rate goal)
      (startRegulation m mc.wiring rate (wrapTo s.cfg.posWidth goal) (posSnap mc s) s)
  | check {m : Nat} {mc : MotorConfig} (now : Nat) : s.cfg.motors[m]? = some mc →
      Effect s (.motCheck m now) (checkMotor m mc now s)

theorem complete_eq_next {r : Word} {s t : State} : complete r s = .next t ↔ t = s.respond r := by
  simp [complete, eq_comm]

/-- A command whose unit is checked first has its effect or none. -/
theorem Effect.ite {s u : State} {i : Instr} {c : Prop} [Decidable c] (h : c → Effect s i u) :
    Effect s i (if c then u else s) := by
  split
  · exact h ‹c›
  · exact .unchanged i

/-- A command has one of its effects and answers. -/
theorem exec_effect (i : Instr) (s : State) : ∃ r u, Effect s i u ∧ exec i s = complete r u := by
  cases i with
  | encSetA e l => exact ⟨0, _, .ite (.setA l), rfl⟩
  | encSetB e l => exact ⟨0, _, .ite (.setB l), rfl⟩
  | encTick e => exact ⟨0, _, .ite .tick, rfl⟩
  | encEdgeA e l => exact ⟨0, _, .ite (.edgeA l), rfl⟩
  | encEdgeB e l => exact ⟨0, _, .ite (.edgeB l), rfl⟩
  | encZero e offset => exact ⟨0, _, .ite (.zero offset), rfl⟩
  | encPos e => exact ⟨_, _, .unchanged _, rfl⟩
  | pwmSetFreq p f =>
    simp only [exec, execPwmSetFreq]
    split
    · exact ⟨0, _, .unchanged _, rfl⟩
    · exact ⟨1, _, .setFreq ‹_›, rfl⟩
  | pwmSetDuty g c d => exact ⟨0, _, .ite (.setDuty d), rfl⟩
  | pwmAWrite p v => exact ⟨0, _, .aWrite p v, rfl⟩
  | motStop m =>
    simp only [exec, execMotStop]
    split
    · exact ⟨0, _, .unchanged _, rfl⟩
    · exact ⟨0, _, .stop ‹_›, rfl⟩
  | motGo m fwd pw =>
    simp only [exec, execMotGo]
    split
    · exact ⟨0, _, .unchanged _, rfl⟩
    · exact ⟨0, _, .go fwd pw ‹_›, rfl⟩
  | motSetPower m pw =>
    simp only [exec, execMotSetPower]
    split
    · exact ⟨0, _, .unchanged _, rfl⟩
    · exact ⟨0, _, .setPower pw ‹_›, rfl⟩
  | motGoFor m rate ticks =>
    simp only [exec, execMotGoFor]
    split
    · exact ⟨0, _, .unchanged _, rfl⟩
    · exact ⟨0, _, .goFor rate ticks ‹_›, rfl⟩
  | motGoTo m rate goal =>
    simp only [exec, execMotGoTo]
    split
    · exact ⟨0, _, .unchanged _, rfl⟩
    · exact ⟨0, _, .goTo rate goal ‹_›, rfl⟩
  | motCheck m now =>
    simp only [exec, execMotCheck]
    split
    · exact ⟨0, _, .unchanged _, rfl⟩
    · exact ⟨0, _, .check now ‹_›, rfl⟩
  | motMoving m =>
    simp only [exec, execMotMoving]
    split <;> exact ⟨_, _, .unchanged _, rfl⟩
  | motEncPos m =>
    simp only [exec, execMotEncPos]
    split <;> exact ⟨_, _, .unchanged _, rfl⟩

/-- A command's next state is one of its effects with an answer. -/
theorem effect_of_exec {i : Instr} {s t : State} (h : exec i s = .next t) : ∃ r u, Effect s i u ∧ t = u.respond r := by
  obtain ⟨r, u, hu, he⟩ := exec_effect i s
  exact ⟨r, u, hu, complete_eq_next.mp (he ▸ h)⟩

/-! ### Commands keep the invariant -/

theorem inv_storeA {s : State} (h : s.Inv) (e : Nat) (l : Level) : (storeA e l s).Inv :=
  inv_modEncoder h e _ fun _ hx => hx

theorem inv_storeB {s : State} (h : s.Inv) (e : Nat) (l : Level) : (storeB e l s).Inv :=
  inv_modEncoder h e _ fun _ hx => hx

/-- A wrapped number fits the positions of a block with the invariant (10_state.md R26). -/
theorem State.Inv.fits_wrap {s : State} (h : s.Inv) (v : Int) : fitsWidth s.cfg.posWidth (wrapTo s.cfg.posWidth v) :=
  Machine.fits_wrap v (Config.wf_parts h.cfg).1

theorem inv_tick {s : State} (h : s.Inv) (e : Nat) : (tick e s).Inv :=
  inv_modEncoder h e _ fun _ _ => h.fits_wrap _

/-- A chosen pair is a supported prescaler with a period above `TOP_MIN` that fits the counter (41_pwm.md R141). -/
theorem pickPrescaler_some {clk topMax f : Nat} {l : List Nat} {ps t : Nat} (h : pickPrescaler clk topMax f l = some (ps, t)) :
    ps ∈ l ∧ topMin < t ∧ t ≤ topMax := by
  induction l with
  | nil => cases h
  | cons q l ih =>
    rw [pickPrescaler] at h
    split at h
    · cases h
      exact ⟨List.mem_cons_self, ‹_›⟩
    · obtain ⟨hm, ht⟩ := ih h
      exact ⟨List.mem_cons_of_mem q hm, ht⟩

/-- What PWM.SETFREQ programs is in range for an existing group, and its frequency is not 0 (41_pwm.md R141, R142). -/
theorem freqPlan_some {c : Config} {p f g ps t : Nat} (h : freqPlan c p f = some (g, ps, t)) :
    ∃ gc, c.groups[g]? = some gc ∧ f ≠ 0 ∧ ps ∈ gc.prescalers ∧ topMin < t ∧ t ≤ gc.width.topMax := by
  unfold freqPlan at h
  split at h
  · cases h
  split at h
  · cases h
  · rename_i gc hgc
    obtain ⟨⟨ps', t'⟩, hsel, hr⟩ := Option.map_eq_some_iff.mp h
    cases hr
    by_cases hf : f = 0
    · simp [selectConfig, hf] at hsel
    · rw [selectConfig, if_neg hf] at hsel
      exact ⟨gc, hgc, hf, pickPrescaler_some hsel⟩

/-- A configured frequency of 32 bits is stored as no 0, the mark of a group never configured (10_state.md R28). -/
theorem ofNat_frequency_ne_zero {f : Nat} (h0 : f ≠ 0) (h : f < 4294967296) : BitVec.ofNat 32 f ≠ 0 := by
  intro he
  have hm : f % 4294967296 = 0 := by simpa using congrArg BitVec.toNat he
  omega

/-- Every effect of a command with operands in range keeps the invariant. -/
theorem Effect.inv {s u : State} {i : Instr} (hu : Effect s i u) (h : s.Inv) (hi : i.wf = true) : u.Inv := by
  cases hu with
  | unchanged => exact h
  | setA l _ => exact inv_storeA h _ l
  | setB l _ => exact inv_storeB h _ l
  | tick _ => exact inv_tick h _
  | edgeA l _ => exact inv_tick (inv_storeA h _ l) _
  | edgeB l _ => exact inv_tick (inv_storeB h _ l) _
  | zero offset _ => exact inv_modEncoder h _ _ fun _ _ => h.fits_wrap offset
  | setFreq hplan =>
    simp only [Instr.wf, fitsUnsigned, Bool.and_eq_true, decide_eq_true_eq] at hi
    obtain ⟨gc, hgc, hf, hps, hlo, hhi⟩ := freqPlan_some hplan
    exact inv_programGroup h _ _ _ _ hgc hps hlo hhi (ofNat_frequency_ne_zero hf hi.2)
  | setDuty d _ =>
    simp only [Instr.wf, fitsByte, Bool.and_eq_true, decide_eq_true_eq] at hi
    exact inv_dutyCore h _ _ hi.2
  | aWrite p v =>
    simp only [Instr.wf, fitsByte, Bool.and_eq_true, decide_eq_true_eq] at hi
    exact inv_aWriteCore h p hi.2
  | stop _ => exact inv_stopMotor h _ _
  | go fwd pw _ => exact inv_goMotor h _ _ fwd pw
  | setPower pw _ => exact inv_setPowerCore h _ _ pw
  | goFor rate ticks _ => exact inv_startRegulation h _ _ rate _ _ (h.fits_wrap _) (readPos_fits h _)
  | goTo rate goal _ => exact inv_startRegulation h _ _ rate _ _ (h.fits_wrap _) (readPos_fits h _)
  | check now _ => exact inv_checkMotor h _ _ now

theorem inv_exec {i : Instr} {s t : State} (h : s.Inv) (hi : i.wf = true) (he : exec i s = .next t) : t.Inv := by
  obtain ⟨r, u, hu, rfl⟩ := effect_of_exec he
  exact inv_respond (hu.inv h hi) r

/-! ### What the decoder reads has operands in range -/

theorem fitsSigned_toInt (w : Word) : fitsSigned w.toInt = true := by
  have hlo := BitVec.le_toInt w
  have hhi := BitVec.toInt_lt (x := w)
  simp only [fitsSigned, Bool.and_eq_true, decide_eq_true_eq]
  omega

/-- Header fields are bytes, and operand words hold their 32-bit numbers (30_encoding.md R81, R82). -/
theorem instr_wf (o : Opcode) (h w1 w2 : Word) : (o.instr h w1 w2).wf = true := by
  have hw : w1.toNat < 4294967296 := w1.isLt
  cases o <;>
    simp [Opcode.instr, Instr.wf, fitsByte, fitsUnsigned, fitsSigned_toInt, idxField_lt, subField_lt, imm8Field_lt, hw]

theorem decodeFrame_wf {ws rest : List Word} {i : Instr} (h : decodeFrame ws = .ok (i, rest)) : i.wf = true := by
  cases ws with
  | nil => cases h
  | cons hd ws =>
    rw [decodeFrame] at h
    split at h
    · cases h
    split at h
    · split at h
      · cases h
      · cases h
        exact instr_wf _ _ _ _
    · cases h

/-! ### Boot keeps the invariant -/

theorem inv_setOutputs (l : List Nat) {s : State} (h : s.Inv) : (setOutputs l s).Inv := by
  induction l generalizing s with
  | nil => exact h
  | cons p l ih => exact ih (inv_setPinOutput h p)

theorem inv_stopFrom (l : List MotorConfig) (m : Nat) {s : State} (h : s.Inv) : (stopFrom m l s).Inv := by
  induction l generalizing m s with
  | nil => exact h
  | cons mc l ih => exact ih (m + 1) (inv_stopMotor h m mc.wiring)

/-- The invariant does not read how far boot has come. -/
theorem inv_boot {s : State} (h : s.Inv) (b : BootPhase) : ({ s with boot := b } : State).Inv :=
  inv_congr h rfl rfl rfl rfl rfl h.record h.race

/-! ### Taking a frame keeps the invariant -/

theorem edgeRecord_fits {s : State} (h : s.Inv) {i : Instr} {r : EdgeRecord} (hr : edgeRecord i s = some r) :
    fitsWidth s.cfg.posWidth r.before := by
  unfold edgeRecord at hr
  split at hr
  · cases hr
  split at hr
  · cases hr
    exact encoder_pos_fits h _
  · cases hr

theorem raceOf_fits {s : State} (h : s.Inv) {t : Turn} {r : Race} (hr : raceOf t s = some r) :
    fitsWidth s.cfg.posWidth r.before := by
  unfold raceOf at hr
  split at hr
  · cases hr
    exact h.record _ ‹_›
  · cases hr

theorem inv_begin {s : State} (h : s.Inv) (t : Turn) (ts : List Turn) (rest : List Word) (i : Instr) :
    (s.begin t ts rest i).Inv := by
  unfold State.begin
  split
  · exact inv_congr h rfl rfl rfl rfl rfl (fun _ hr => edgeRecord_fits h hr) (fun _ hr => by cases hr)
  · exact inv_congr h rfl rfl rfl rfl rfl (fun _ hr => by cases hr) (fun _ hr => raceOf_fits h hr)

theorem inv_dropIllegal {s : State} (h : s.Inv) (t : Turn) (ts : List Turn) : (s.dropIllegal t ts).Inv := by
  unfold State.dropIllegal State.setPort
  split <;> exact inv_congr h rfl rfl rfl rfl rfl (fun _ hr => by cases hr) (fun _ hr => by cases hr)

/-- What the block does next starts from a state with the invariant, and a command has its operands in range. -/
def Fetched.Sound : Fetched → Prop
  | .wait => True
  | .move s => s.Inv
  | .refuse _ => True
  | .command i s => i.wf = true ∧ s.Inv

theorem fetchTurn_sound {s : State} (h : s.Inv) (t : Turn) (ts : List Turn) : (fetchTurn t ts s).Sound := by
  unfold fetchTurn
  split
  · trivial
  · exact inv_dropIllegal h t ts
  · exact inv_dropIllegal h t ts
  · split
    · exact ⟨decodeFrame_wf ‹_›, inv_begin h t ts _ _⟩
    · trivial

theorem fetchBoot_sound {s : State} (h : s.Inv) : (fetchBoot s).Sound := by
  unfold fetchBoot
  split
  · exact inv_boot h .running
  split
  · trivial
  · exact inv_congr h rfl rfl rfl rfl rfl h.record h.race
  · exact inv_congr h rfl rfl rfl rfl rfl h.record h.race
  · split
    · exact ⟨decodeFrame_wf ‹_›, inv_congr h rfl rfl rfl rfl rfl (fun _ hr => by cases hr) (fun _ hr => by cases hr)⟩
    · trivial

theorem fetch_sound {s : State} (h : s.Inv) : (fetch s).Sound := by
  unfold fetch
  split
  · exact inv_boot (inv_setOutputs _ h) .stopMotors
  · exact inv_boot (inv_stopFrom _ 0 h) .handlers
  · exact fetchBoot_sound h
  · split
    · trivial
    · exact fetchTurn_sound h _ _

/-- Settles O16: what the block fetches is sound, and each effect of a command keeps the invariant. -/
theorem everyStepKeepsTheInvariant : Obligations.EveryStepKeepsTheInvariant := by
  intro s t h hs
  have hf := fetch_sound h
  unfold step at hs
  split at hs <;> rename_i he <;> rw [he] at hf
  · cases hs
    exact h
  · cases hs
    exact hf
  · cases hs
  · exact inv_exec hf.2 hf.1 hs

/-! ### Who writes encoders (10_state.md R27) -/

theorem dutyCore_enc (g c d : Nat) (s : State) : (dutyCore g c d s).enc = s.enc := by
  unfold dutyCore
  split <;> rfl

/-- An effect of a command that names no encoder keeps every encoder. -/
theorem Effect.enc {s u : State} {i : Instr} (hu : Effect s i u) (hi : Instr.encoderIndex i = none) : u.enc = s.enc := by
  cases hu with
  | unchanged => rfl
  | setA | setB | tick | edgeA | edgeB | zero => cases hi
  | setFreq => rfl
  | setDuty d _ => exact dutyCore_enc _ _ d s
  | aWrite p v => exact aWriteCore_enc p v s
  | stop _ => exact (stopMotor_frame _ _ s).enc
  | go fwd pw _ => exact goMotor_enc _ _ fwd pw s
  | setPower pw _ => exact setPowerCore_enc _ _ pw s
  | goFor | goTo => exact startRegulation_enc _ _ _ _ _ s
  | check now _ => exact checkMotor_enc _ _ now s

/-- Settles O27: each effect of a PWM or motor command keeps the encoders, and ENC.POS has none. -/
theorem onlyEncoderCommandsWriteEncoders : Obligations.OnlyEncoderCommandsWriteEncoders := by
  intro i s t he hi
  obtain ⟨r, u, hu, rfl⟩ := effect_of_exec he
  obtain hi | ⟨e, rfl⟩ := hi
  · exact hu.enc hi
  · cases hu
    rfl

/-! ### What a pin shows (10_state.md R37) -/

section Shown
variable {s : State} {p : Nat} {x : Pin} (hx : s.pin? p = some x)
include hx

/-- An OUTPUT pin forced to a level shows it. -/
theorem pinOutput_of_forced {l : Level} (hm : x.mode = .output) (hf : s.forced p l) : s.pinOutput p = .level l := by
  obtain ⟨⟨y, hy, hd, hl⟩, -⟩ := hf
  obtain rfl : x = y := by simpa [hx] using hy
  simp [State.pinOutput, hx, hd, hm, hl]

/-- A pin driven by the collaborator's generic write shows it (41_pwm.md R152). -/
theorem pinOutput_of_generic {v : BitVec 8} (hd : x.drive = .generic v) : s.pinOutput p = .generic v := by
  simp [State.pinOutput, hx, hd]

/-- A pin driven by the timer shows the output of the channel behind it. -/
theorem pinOutput_of_timer {g c : Nat} {y : Group} {ch : Channel} (hd : x.drive = .timer)
    (ht : s.cfg.timerOf p = some (g, c)) (hg : s.group? g = some y) (hc : s.channel? g c = some ch) :
    s.pinOutput p = channelOutput s.cfg.baseClock y ch := by
  simp [State.pinOutput, hx, hd, ht, hg, hc]

end Shown

/-- The waveform where it is specified: the clock running, the compare value strictly between 0 and the period, and the duty not 255
(41_pwm.md R153). -/
theorem channelOutput_running (clk : Nat) {y : Group} {ch : Channel} {ps : Nat} (hcs : y.cs = .prescaler ps) (h0 : 0 < ch.cmp)
    (h1 : ch.cmp < y.top) (hd : ch.duty ≠ 255) : channelOutput clk y ch = .waveform clk (2 * ps * y.top) ch.cmp y.top := by
  simp only [channelOutput, hcs]
  rw [if_neg (by simp only [hd, or_false]; omega)]

/-- A byte's share of a period is less than the period (41_pwm.md R145). -/
theorem scale_lt {t d : Nat} (hd : d < 256) (h : 0 < scale t d) : scale t d < t := by
  have ht : 0 < t := Nat.pos_of_ne_zero fun h0 => by simp [h0, scale] at h
  exact (Nat.div_lt_iff_lt_mul (by decide)).mpr (Nat.mul_lt_mul_of_pos_left hd ht)

/-- A duty of 1 to 254 carried by a timer pin shows as the channel's waveform (41_pwm.md R148, R153). -/
theorem pinOutput_of_carries {t : State} {p v g c ps : Nat} {y : Group} (hv : v < 256) (h0 : v ≠ 0) (h1 : v ≠ 255)
    (ht : t.cfg.timerOf p = some (g, c)) (hg : t.group? g = some y) (hcs : y.cs = .prescaler ps) (hpos : 0 < scale y.top v)
    (hc : t.carries p v) :
    t.pinOutput p = .waveform t.cfg.baseClock (2 * ps * y.top) (scale y.top v) y.top := by
  have htop : t.top g = y.top := by simp [top_eq, hg]
  simp only [State.carries, if_neg h0, if_neg h1, ht, htop] at hc
  obtain ⟨⟨x, hx, hd⟩, hch⟩ := hc
  have hduty : BitVec.ofNat 8 v ≠ 255 := fun he => by
    have hm : v % 256 = 255 := by simpa using congrArg BitVec.toNat he
    omega
  rw [pinOutput_of_timer hx hd ht hg hch]
  exact channelOutput_running _ hcs hpos (scale_lt hv hpos) hduty

/-- A group with the settings of another has its clock select and period. -/
theorem group_of_settings {s t : State} {g : Nat} {y : Group} (h : (t.group? g).map groupSettings = (s.group? g).map groupSettings)
    (hy : s.group? g = some y) : ∃ z, t.group? g = some z ∧ z.cs = y.cs ∧ z.top = y.top := by
  rw [hy] at h
  obtain ⟨z, hz, he⟩ := Option.map_eq_some_iff.mp h
  simp only [groupSettings, Prod.mk.injEq] at he
  obtain ⟨-, htop, hcs, -⟩ := he
  exact ⟨z, hz, hcs, htop⟩

/-- Settles O40: the pin carries its value after the write, keeps its mode, and its group keeps clock and period. -/
theorem analogWriteShowsOnThePin : Obligations.AnalogWriteShowsOnThePin := by
  intro s p v x h hv hx
  have hp : p < s.cfg.nPins := h.pinLength ▸ (List.getElem?_eq_some_iff.mp hx).1
  have hf := (aWriteCore_frame p v h.wired.injective).trans (OutputsOnly.respond [p] _ 0)
  have hc : ((aWriteCore p v s).respond 0).carries p v := aWriteCore_carries h.wired hp
  refine ⟨_, rfl, ?_⟩
  generalize (aWriteCore p v s).respond 0 = t at hf hc
  have hmode := hf.pin.modes p
  rw [hx] at hmode
  obtain ⟨z, hz, hzm⟩ := Option.map_eq_some_iff.mp hmode
  refine ⟨fun hm h0 => ?_, fun hm h1 => ?_, fun h0 h1 ht => ?_, fun g c ps y h0 h1 ht hy hcs hpos => ?_⟩
  · rw [State.carries, if_pos h0] at hc
    exact pinOutput_of_forced hz (hzm.trans hm) hc
  · rw [State.carries, if_neg (by omega), if_pos h1] at hc
    exact pinOutput_of_forced hz (hzm.trans hm) hc
  · rw [← hf.inputs.cfg] at ht
    simp only [State.carries, if_neg h0, if_neg h1, ht] at hc
    obtain ⟨w, hw, hd⟩ := hc
    exact pinOutput_of_generic hw hd
  · obtain ⟨y', hy', hcs', htop⟩ := group_of_settings (hf.grp.settings g) hy
    rw [← hf.inputs.cfg] at ht ⊢
    rw [← htop] at hpos ⊢
    exact pinOutput_of_carries hv h0 h1 ht hy' (hcs'.trans hcs) hpos hc

/-! ### A failed reprogramming (10_state.md R30) -/

/-- Settles O35: PWM.SETFREQ answers 1 with every plan it programs, so without that answer there was none. -/
theorem failedSetFreqChangesNothing : Obligations.FailedSetFreqChangesNothing := by
  intro s t p f he hr
  simp only [exec, execPwmSetFreq] at he
  split at he
  · exact complete_eq_next.mp he
  · rw [complete_eq_next.mp he] at hr
    exact absurd rfl hr

end Sys2Proof.Machine
end

section
/-! PROOFS. Who reads and writes what (20_memory.md R67, R68, R72): reads keep the state (O22), the two agents write disjoint state (O28),
and what a read that overlaps an edge returns (O29, O30). -/

namespace Sys2Proof.Machine

open Sys2Proof

/-! ### Reads (R68) -/

/-- A read command has no effect but its answer. -/
theorem exec_read {s t : State} {i : Instr} {n : Nat} (hi : i = .encPos n ∨ i = .motEncPos n ∨ i = .motMoving n)
    (h : exec i s = .next t) : ∃ r, t = s.respond r := by
  obtain ⟨r, u, hu, rfl⟩ := effect_of_exec h
  rcases hi with rfl | rfl | rfl <;> cases hu <;> exact ⟨r, rfl⟩

/-- A second evaluation of an encoder leaves the whole state as the first left it (40_encoder.md R107). -/
theorem tick_idem (e : Nat) (s : State) : tick e (tick e s) = tick e s := by
  simp only [tick, modEncoder_cfg, modEncoder_modEncoder, tick_tick]

/-- Settles O22: a read has no effect but its answer, and evaluating an encoder is idempotent. -/
theorem readsHaveNoSideEffect : Obligations.ReadsHaveNoSideEffect := by
  refine ⟨fun s t n h => ?_, fun s t e _ h => ?_⟩
  · have hread : ∃ r, t = s.respond r := by
      rcases h with h | h | h
      · exact exec_read (.inl rfl) h
      · exact exec_read (.inr (.inl rfl)) h
      · exact exec_read (.inr (.inr rfl)) h
    obtain ⟨r, rfl⟩ := hread
    rfl
  · simp only [exec, execEncTick, complete_eq_next] at h ⊢
    subst h
    by_cases he : e < s.cfg.nEnc
    · have hc : ((tick e s).respond 0).cfg = s.cfg := rfl
      rw [if_pos he, hc, if_pos he]
      show _ = (tick e (tick e s)).respond 0
      rw [tick_idem]
    · simp only [if_neg he, respond_cfg]
      rfl

/-! ### The two agents (R72) -/

/-- An edge-agent command writes the encoders alone. -/
theorem Effect.edge {s u : State} {i : Instr} (hu : Effect s i u) (hi : i.agent = .edge) :
    ∃ l, u = { s with enc := l } := by
  cases hu with
  | unchanged => exact ⟨s.enc, rfl⟩
  | setA | setB | tick | edgeA | edgeB => exact ⟨_, rfl⟩
  | zero | setFreq | setDuty | aWrite | stop | go | setPower | goFor | goTo | check => cases hi

/-- A control-agent command names no encoder, or is one of the two encoder commands of that agent (30_encoding.md R88). -/
theorem control_cases {i : Instr} (hi : i.agent = .control) :
    (Instr.encoderIndex i = none ∨ ∃ e, i = .encPos e) ∨ ∃ e v, i = .encZero e v := by
  cases i with
  | encSetA | encSetB | encTick | encEdgeA | encEdgeB => cases hi
  | encZero e v => exact .inr ⟨e, v, rfl⟩
  | encPos e => exact .inl (.inr ⟨e, rfl⟩)
  | _ => exact .inl (.inl rfl)

/-- A rewrite of an encoder that keeps its levels and its previous phase keeps those of every encoder. -/
theorem modEncoder_lines {s : State} (e : Nat) {f : Encoder → Encoder}
    (hf : ∀ x, (f x).a = x.a ∧ (f x).b = x.b ∧ (f x).prev = x.prev) (e' : Nat) :
    ((s.modEncoder e f).encoder e').a = (s.encoder e').a ∧ ((s.modEncoder e f).encoder e').b = (s.encoder e').b ∧
      ((s.modEncoder e f).encoder e').prev = (s.encoder e').prev := by
  rw [encoder_modEncoder]
  split
  · exact hf _
  · exact ⟨rfl, rfl, rfl⟩

/-- Settles O28, by the effects of each agent's commands. -/
theorem agentsTouchDisjointState : Obligations.AgentsTouchDisjointState := by
  refine ⟨fun i s t hi he => ?_, fun i s t hi he => ?_⟩
  · obtain ⟨r, u, hu, rfl⟩ := effect_of_exec he
    obtain ⟨l, rfl⟩ := hu.edge hi
    exact ⟨rfl, rfl, rfl, rfl⟩
  · rcases control_cases hi with hi | ⟨e, v, rfl⟩
    · exact .inl (onlyEncoderCommandsWriteEncoders i s t he hi)
    · obtain ⟨r, u, hu, rfl⟩ := effect_of_exec he
      cases hu with
      | unchanged => exact .inl rfl
      | zero => exact .inr ⟨e, v, rfl, modEncoder_lines e fun _ => ⟨rfl, rfl, rfl⟩⟩

/-! ### Racing reads (R67) -/

/-- A position of `w` bits fits its bytes. -/
theorem uwrap_lt_bytes (w : Nat) (v : Int) : uwrapTo w v < 256 ^ ((w + 7) / 8) := by
  refine (uwrap_lt w v).trans_le ?_
  rw [show (256 : Nat) = 2 ^ 8 from rfl, ← Nat.pow_mul]
  exact Nat.pow_le_pow_right (by decide) (by omega)

/-- Each byte of a bytewise racing value is that byte of one of the two positions, as the mask says. -/
theorem byteAt_tornValue {w k : Nat} (mask : Nat) (v0 v1 : Int) (hk : k < (w + 7) / 8) :
    byteAt k (uwrapTo w (tornValue .bytewise w mask v0 v1)) =
      if mask / 2 ^ k % 2 = 1 then byteAt k (uwrapTo w v1) else byteAt k (uwrapTo w v0) := by
  simp only [tornValue]
  rw [uwrap_wrap, uwrap_nat _ _ (mix_lt2 _ w mask _ _ (uwrap_lt w v0) (uwrap_lt w v1)), mix_byte _ _ _ _ _ hk]

/-- A position is a bytewise racing value when the mask chooses each of its bytes. -/
theorem tornValue_eq_of_bytes {w mask : Nat} {v0 v1 v : Int} (hw : 2 ≤ w) (hv : fitsWidth w v)
    (h : ∀ k < (w + 7) / 8, byteAt k (uwrapTo w v) =
      if mask / 2 ^ k % 2 = 1 then byteAt k (uwrapTo w v1) else byteAt k (uwrapTo w v0)) :
    tornValue .bytewise w mask v0 v1 = v := by
  have hmix : mixBytes ((w + 7) / 8) mask (uwrapTo w v0) (uwrapTo w v1) = uwrapTo w v :=
    bytes_ext _ _ _ (mix_lt ..) (uwrap_lt_bytes w v) fun k hk => by rw [mix_byte _ _ _ _ _ hk, h k hk]
  simp only [tornValue, hmix, wrap_uwrap, wrap_fits hw hv]

/-- Settles O29: masks 0 and 1 give the two whole values; bytewise, the mask chooses each byte freely. -/
theorem racingReadValues : Obligations.RacingReadValues := by
  refine ⟨fun w v0 v1 v => ⟨?_, ?_⟩, fun w v0 v1 v hw hv => ⟨?_, fun h => ?_⟩⟩
  · rintro ⟨mask, rfl⟩
    simp only [tornValue]
    split
    · exact .inr rfl
    · exact .inl rfl
  · rintro (rfl | rfl)
    · exact ⟨0, rfl⟩
    · exact ⟨1, rfl⟩
  · rintro ⟨mask, rfl⟩ k hk
    rw [byteAt_tornValue mask v0 v1 hk]
    split
    · exact .inr rfl
    · exact .inl rfl
  · obtain ⟨mask, hm⟩ := mask_exists ((w + 7) / 8) fun k => byteAt k (uwrapTo w v) = byteAt k (uwrapTo w v1)
    refine ⟨mask, tornValue_eq_of_bytes hw hv fun k hk => ?_⟩
    split
    · next hbit => exact (hm k hk).mp hbit
    · next hbit => exact (h k hk).resolve_right fun h1 => hbit ((hm k hk).mpr h1)

/-! ### A read after an edge (R67, 60_exceptions.md R247) -/

/-- A booted block executes the frame of the next turn, when it is a command of that turn's agent. -/
theorem step_of_frame {s : State} {t : Turn} {ts : List Turn} {i : Instr} {rest : List Word} (hb : s.boot = .running)
    (ht : s.turns = t :: ts) (hd : decodeFrame (s.port t.agent) = .ok (i, rest)) (ha : i.agent = t.agent) :
    step s = exec i (s.begin t ts rest i) := by
  simp only [step, fetch, hb, ht, fetchTurn, hd, if_pos ha]

/-- An edge-agent command writes the encoders and the answer. -/
theorem exec_edge {i : Instr} (hi : i.agent = .edge) (s : State) :
    ∃ r l, exec i s = .next (({ s with enc := l } : State).respond r) := by
  obtain ⟨r, u, hu, he⟩ := exec_effect i s
  obtain ⟨l, rfl⟩ := hu.edge hi
  exact ⟨r, l, he⟩

/-- The position read of a control turn right after an edge command on the same encoder: the position, or where the turn says that the
read overlaps the edge, the racing value of the positions before and after it. -/
theorem readPos_begin_control {u : State} {t : Turn} {e : Nat} {before : Int} (ha : t.agent = .control)
    (hl : u.lastEdge = some ⟨e, before⟩) (ts : List Turn) (rest : List Word) (i : Instr) :
    (u.begin t ts rest i).readPos e =
      match t.torn with
      | none => (u.encoder e).pos
      | some mask => tornValue u.cfg.tornRead u.cfg.posWidth mask before (u.encoder e).pos := by
  simp only [State.begin, ha, State.readPos, raceOf, hl]
  cases t.torn with
  | none => rfl
  | some mask => exact if_pos rfl

/-- The turn of an edge-agent command completes: what the environment and boot have set stays but for its own frame and turn, and the
position the command found is recorded. -/
theorem step_edge {s : State} {t : Turn} {ts : List Turn} {i : Instr} {e : Nat} {rest : List Word} (hb : s.boot = .running)
    (ht : s.turns = t :: ts) (ha : t.agent = .edge) (hd : decodeFrame s.edgePort = .ok (i, rest)) (hi : i.agent = .edge)
    (hidx : Instr.encoderIndex i = some e) (he : e < s.cfg.nEnc) :
    ∃ u, step s = .next u ∧ u.cfg = s.cfg ∧ u.boot = .running ∧ u.turns = ts ∧ u.controlPort = s.controlPort ∧
      u.lastEdge = some ⟨e, (s.encoder e).pos⟩ := by
  obtain ⟨r, l, hu⟩ := exec_edge hi (s.begin t ts rest i)
  refine ⟨_, (step_of_frame hb ht (by rw [ha]; exact hd) (hi.trans ha.symm)).trans hu, ?_⟩
  simp [State.begin, ha, edgeRecord, hidx, he, hb]

/-- The turn of an ENC.POS right after an edge command on the same encoder completes, and answers the position it reads. -/
theorem step_encPos_after_edge {u : State} {t : Turn} {ts : List Turn} {e : Nat} {before : Int} {rest : List Word}
    (hb : u.boot = .running) (ht : u.turns = t :: ts) (ha : t.agent = .control)
    (hd : decodeFrame u.controlPort = .ok (.encPos e, rest)) (he : e < u.cfg.nEnc) (hl : u.lastEdge = some ⟨e, before⟩) :
    ∃ v, step u = .next v ∧ v.resp = ⟨.ok, BitVec.ofInt 32
      (match t.torn with
       | none => (u.encoder e).pos
       | some mask => tornValue u.cfg.tornRead u.cfg.posWidth mask before (u.encoder e).pos)⟩ := by
  refine ⟨_, step_of_frame (i := .encPos e) hb ht (by rw [ha]; exact hd) ha.symm, ?_⟩
  have hc : (u.begin t ts rest (.encPos e)).cfg = u.cfg := by simp only [State.begin, ha]
  rw [respond_resp, hc, if_pos he, readPos_begin_control ha hl]
  rfl

/-- Settles O30: the edge command records the position it found, with which the read of the next turn races. -/
theorem overlappedReadSeesAnAdmittedValue : Obligations.OverlappedReadSeesAnAdmittedValue := by
  intro s t1 t2 ts i e r1 r2 hb ht ha1 ha2 hd1 hi hidx he hd2
  obtain ⟨u, hs, hcfg, hboot, hturns, hport, hlast⟩ := step_edge hb ht ha1 hd1 hi hidx he
  obtain ⟨v, hu, hresp⟩ := step_encPos_after_edge hboot hturns ha2 (by rw [hport]; exact hd2) (by rw [hcfg]; exact he) hlast
  rw [hcfg] at hresp
  exact ⟨u, v, hs, hu, hresp⟩

end Sys2Proof.Machine
end

section
/-! PROOFS. The timer register surface (20_memory.md R62, R63): what a register write assigns (O41), what a register reads (O42), and the
gated sequence of 41_pwm.md R143 on it (O43). -/

namespace Sys2Proof.Machine

open Sys2Proof

/-! ### Accesses of a register -/

/-- An access at least as wide as its register writes the register's fields. -/
theorem memWrite_of_register {s : State} {addr n : Nat} (v : Nat) (hp : placed s.cfg addr ≠ [])
    (hn : registerBits s.cfg (placed s.cfg addr) ≤ 8 * n) :
    memWrite addr n v s = .next (writeFields (placed s.cfg addr) v s) := by
  unfold memWrite
  cases h : placed s.cfg addr with
  | nil => exact absurd h hp
  | cons p ps => exact if_neg (by rw [← h]; omega)

/-- An address with no register faults. -/
theorem memWrite_of_no_register {s : State} {addr : Nat} (n v : Nat) (hp : placed s.cfg addr = []) :
    memWrite addr n v s = .fault (.noRegister addr) := by
  simp only [memWrite, hp]

/-- A write narrower than its register is refused. -/
theorem memWrite_of_narrow {s : State} {addr n : Nat} (v : Nat) (hp : placed s.cfg addr ≠ [])
    (hn : 8 * n < registerBits s.cfg (placed s.cfg addr)) :
    memWrite addr n v s = .refused .partialRegisterAccess := by
  unfold memWrite
  cases h : placed s.cfg addr with
  | nil => exact absurd h hp
  | cons p ps => exact if_pos (h ▸ hn)

/-- An access at least as wide as its register reads the register's fields over the environment's bits. -/
theorem memRead_of_register {s : State} {addr n : Nat} (spare : Nat) (hp : placed s.cfg addr ≠ [])
    (hn : registerBits s.cfg (placed s.cfg addr) ≤ 8 * n) :
    memRead addr n spare s = overlay (placed s.cfg addr) s (spare % 2 ^ (8 * n)) := by
  unfold memRead
  cases h : placed s.cfg addr with
  | nil => exact absurd h hp
  | cons p ps => exact if_neg (by rw [← h]; omega)

/-- Settles O41: a register write is `writeFields` of the fields at its address. -/
theorem registerWriteSetsItsFields : Obligations.RegisterWriteSetsItsFields := by
  refine ⟨fun s addr n v hc hm hs hp hn => ?_, fun s addr n v hp => memWrite_of_no_register n v hp,
    fun s addr n v hp hn => memWrite_of_narrow v hp hn⟩
  obtain ⟨-, -, hinj, -⟩ := Config.wf_parts hc
  obtain ⟨hwf, hapart⟩ := placed_wf hm addr
  obtain ⟨hshaped, hholds, hkept⟩ := writeFields_spec hinj hs hwf hapart v
  exact ⟨_, memWrite_of_register v hp hn, writeFields_frame .., hshaped, hholds, hkept⟩

/-- Settles O42: a register read is `overlay` of the fields at its address, and a written field reads as what it holds. -/
theorem registerReadsBackWhatIsWritten : Obligations.RegisterReadsBackWhatIsWritten := by
  intro s addr n spare hc hm hs hp hn
  obtain ⟨-, -, hinj, -⟩ := Config.wf_parts hc
  obtain ⟨hwf, hapart⟩ := placed_wf hm addr
  refine ⟨?_, fun v t ht => ?_⟩
  · obtain ⟨r, hr, hlt, hfields, hspare⟩ := overlay_spec hs hwf hapart (spare % 2 ^ (8 * n))
    refine ⟨r, (memRead_of_register spare hp hn).trans hr, ?_, hfields, fun k hk hfree => ?_⟩
    · exact hlt (8 * n) (Nat.mod_lt _ (Nat.two_pow_pos _)) fun p hp => (le_registerBits hp).trans hn
    · rw [hspare k hfree, Nat.testBit_mod_two_pow, decide_eq_true hk, Bool.true_and]
  · obtain rfl : writeFields (placed s.cfg addr) v s = t := by simpa [memWrite_of_register v hp hn] using ht
    obtain ⟨hshaped, hholds, -⟩ := writeFields_spec hinj hs hwf hapart v
    have hcfg := (writeFields_frame (placed s.cfg addr) v s).inputs.cfg
    generalize writeFields (placed s.cfg addr) v s = t at hshaped hholds hcfg
    rw [← hcfg] at hp hn hwf hapart hholds ⊢
    obtain ⟨r, hr, -, hfields, -⟩ := overlay_spec hshaped hwf hapart (spare % 2 ^ (8 * n))
    refine ⟨r, (memRead_of_register spare hp hn).trans hr, fun p hpm => ?_⟩
    obtain ⟨x, hx, hxr⟩ := hfields p hpm
    rw [hxr]
    exact sameReading_of_holds (hwf p hpm) (getField_lt ..) (hholds p hpm) hx

/-! ### The gated sequence of register writes (41_pwm.md R143) -/

/-- Two rewrites of one group are one. -/
theorem modGroup_modGroup (s : State) (g : Nat) (f h : Group → Group) :
    (s.modGroup g f).modGroup g h = s.modGroup g (fun x => h (f x)) := by
  simp [State.modGroup, List.modify_modify_eq, Function.comp_def]

/-- A write of a field with a register to itself, of a value of its bits, assigns the value. -/
theorem memWrite_single {s : State} {addr n v : Nat} {f : TimerField} (hp : placed s.cfg addr = [⟨addr, 0, f⟩])
    (hn : fieldBits s.cfg f ≤ 8 * n) (hv : v < 2 ^ fieldBits s.cfg f) : memWrite addr n v s = .next (writeField f v s) := by
  rw [memWrite_of_register v (by simp [hp]) (by simpa [hp, registerBits] using hn), hp]
  simp only [writeFields, getField_zero hv]

/-- A sequence that begins with such a write goes on from the assignment. -/
theorem memWrites_single {c : Config} {n addr v : Nat} {f : TimerField} (hp : placed c addr = [⟨addr, 0, f⟩])
    (hn : fieldBits c f ≤ 8 * n) (hv : v < 2 ^ fieldBits c f) (l : List (Nat × Nat)) (s : State) (hc : s.cfg = c) :
    memWrites n ((addr, v) :: l) s = memWrites n l (writeField f v s) := by
  subst hc
  simp only [memWrites, memWrite_single hp hn hv]

/-- Compare values, by channel, for the channels `l` of a group. -/
def setCmps (val : Nat → Nat) (l : List Nat) (chans : List Channel) : List Channel :=
  l.foldl (fun cs c => cs.modify c (fun ch => { ch with cmp := val c })) chans

theorem setCmps_getElem? (val : Nat → Nat) (l : List Nat) (chans : List Channel) (k : Nat) :
    (setCmps val l chans)[k]? = if k ∈ l then (chans[k]?).map (fun ch => { ch with cmp := val k }) else chans[k]? := by
  induction l generalizing chans with
  | nil => simp [setCmps]
  | cons c l ih =>
    show (setCmps val l _)[k]? = _
    rw [ih, List.getElem?_modify]
    by_cases hk : c = k
    · subst hk
      cases chans[c]? <;> simp
    · simp [hk, Ne.symm hk]

/-- Every compare value from the stored duty of its channel. -/
theorem setCmps_range (t : Nat) (chans : List Channel) :
    setCmps (fun c => scale t (((chans[c]?).map (fun ch => ch.duty.toNat)).getD 0)) (List.range chans.length) chans =
      chans.map (fun ch => { ch with cmp := scale t ch.duty.toNat }) := by
  refine List.ext_getElem? fun k => ?_
  rw [setCmps_getElem?, List.getElem?_map]
  by_cases hk : k < chans.length
  · simp [hk]
  · simp [hk]

/-- Writes of compare registers, each alone in its register, are one rewrite of the group; the writes `rest` follow. -/
theorem memWrites_cmps {c : Config} {n g : Nat} {addr val : Nat → Nat} {l : List Nat}
    (hl : ∀ k ∈ l, placed c (addr k) = [⟨addr k, 0, .cmp g k⟩] ∧ fieldBits c (.cmp g k) ≤ 8 * n ∧
      val k < 2 ^ fieldBits c (.cmp g k)) (rest : List (Nat × Nat)) (s : State) (hc : s.cfg = c) :
    memWrites n (l.map (fun k => (addr k, val k)) ++ rest) s =
      memWrites n rest (s.modGroup g (fun x => { x with chans := setCmps val l x.chans })) := by
  induction l generalizing s with
  | nil =>
    have hid : s.modGroup g (fun x => x) = s := by simp only [State.modGroup, modify_eq_self fun _ _ => rfl]
    exact congrArg (memWrites n rest) hid.symm
  | cons k l ih =>
    obtain ⟨hp, hn, hv⟩ := hl k (by simp)
    calc memWrites n ((addr k, val k) :: (l.map (fun k => (addr k, val k)) ++ rest)) s
      _ = memWrites n (l.map (fun k => (addr k, val k)) ++ rest) (writeField (.cmp g k) (val k) s) :=
        memWrites_single hp hn hv _ s hc
      _ = memWrites n rest ((writeField (.cmp g k) (val k) s).modGroup g _) := ih (fun j hj => hl j (by simp [hj])) _ hc
      _ = _ := by simp only [writeField, State.modChannel, modGroup_modGroup]; rfl

/-- A period in range fits the bits of its register (00_scope.md R8, 20_memory.md R63). -/
theorem topMax_lt (w : CounterWidth) : w.topMax < 2 ^ w.bits := by cases w <;> decide

/-- A duty's share of a period is at most the period (41_pwm.md R145). -/
theorem scale_le (t : Nat) (d : BitVec 8) : scale t d.toNat ≤ t :=
  Nat.div_le_of_le_mul (by rw [Nat.mul_comm]; exact Nat.mul_le_mul_right t d.isLt.le)

/-- Settles O43: every write of the sequence rewrites the group alone, and the last one is of the clock select. -/
theorem registerSequenceReprogramsTheGroup : Obligations.RegisterSequenceReprogramsTheGroup := by
  intro s g ps t off on n csAddr topAddr cmpAddr gc x codes hgc hx hn ht hcs htop hcmp hoff hon _ hdon
  have hb : ((s.cfg.groups[g]?).map (fun y => y.width.bits)).getD 0 = gc.width.bits := by rw [hgc]; rfl
  have hfits : ∀ v ≤ t, v < 2 ^ gc.width.bits := fun v hv => (hv.trans ht).trans_lt (topMax_lt gc.width)
  rw [← hb] at hn hoff hon hfits
  have hcmps : ∀ c ∈ List.range x.chans.length, placed s.cfg (cmpAddr c) = [⟨cmpAddr c, 0, .cmp g c⟩] ∧
      fieldBits s.cfg (.cmp g c) ≤ 8 * n ∧
      scale t (((x.chans[c]?).map (fun ch => ch.duty.toNat)).getD 0) < 2 ^ fieldBits s.cfg (.cmp g c) := by
    intro c hc
    have hc := List.mem_range.mp hc
    refine ⟨hcmp c hc, hn, hfits _ ?_⟩
    rw [List.getElem?_eq_getElem hc]
    exact scale_le t _
  refine ⟨_, Eq.trans (memWrites_single hcs hn hoff _ _ rfl) (Eq.trans (memWrites_single htop hn (hfits t le_rfl) _ _ rfl)
    (Eq.trans (memWrites_cmps hcmps _ _ rfl) (memWrites_single hcs hn hon [] _ rfl))), ?_⟩
  simp only [writeField, writeTop, modGroup_modGroup, hdon]
  refine ⟨?_, fun g' hg => ?_, rfl, .modGroup ..⟩
  · rw [group?_modGroup, if_pos rfl, hx, Option.map_some, setCmps_range]
    rfl
  · rw [group?_modGroup, if_neg (Ne.symm hg)]

end Sys2Proof.Machine
end

section
/-! PROOFS. Frames and their commands (30_encoding.md): the round trip of the encoding (O1, O2, O4), serialized frames (O3), which headers
are refused (O5), and what a step makes of a refused frame (O6), of a command's frame (O7) and of a unit index out of range (O11). -/

namespace Sys2Proof

open Sys2Proof.Machine

/-! ### The round trip (R81 to R91) -/

/-- Settles O1, one command at a time. -/
theorem encodedCommandDecodesToItself : Obligations.EncodedCommandDecodesToItself := by
  intro i rest h
  cases i with
  | encSetA e l => exact Laws.RoundTrip.encSetA e l h rest
  | encSetB e l => exact Laws.RoundTrip.encSetB e l h rest
  | encTick e => exact Laws.RoundTrip.encTick e h rest
  | encEdgeA e l => exact Laws.RoundTrip.encEdgeA e l h rest
  | encEdgeB e l => exact Laws.RoundTrip.encEdgeB e l h rest
  | encZero e offset => exact Laws.RoundTrip.encZero e offset h rest
  | encPos e => exact Laws.RoundTrip.encPos e h rest
  | pwmSetFreq p f => exact Laws.RoundTrip.pwmSetFreq p f h rest
  | pwmSetDuty g c d => exact Laws.RoundTrip.pwmSetDuty g c d h rest
  | pwmAWrite p v => exact Laws.RoundTrip.pwmAWrite p v h rest
  | motStop m => exact Laws.RoundTrip.motStop m h rest
  | motGo m fwd power => exact Laws.RoundTrip.motGo m fwd power h rest
  | motSetPower m power => exact Laws.RoundTrip.motSetPower m power h rest
  | motGoFor m rate ticks => exact Laws.RoundTrip.motGoFor m rate ticks h rest
  | motGoTo m rate goal => exact Laws.RoundTrip.motGoTo m rate goal h rest
  | motCheck m now => exact Laws.RoundTrip.motCheck m now h rest
  | motMoving m => exact Laws.RoundTrip.motMoving m h rest
  | motEncPos m => exact Laws.RoundTrip.motEncPos m h rest

/-- A bit field of at most 1 is the level it is read as. -/
theorem bit_levelField {h : Word} (hm : imm8Field h < 2) : (levelField h).bit = imm8Field h := by
  unfold levelField
  split <;> simp only [Level.bit] <;> omega

theorem flagBit_flagField {h : Word} (hs : subField h < 2) : flagBit (flagField h) = subField h := by
  simp only [flagBit, flagField, decide_eq_true_eq]
  split <;> omega

/-- The command of a header with its reserved bits clear has that header, and the operand words it was made of. -/
theorem encode_instr {o : Opcode} {h : Word} (ho : Opcode.ofCode (opcField h) = some o) (hr : o.format.reservedZero h = true)
    (w1 w2 : Word) : encode (o.instr h w1 w2) = h :: [w1, w2].take o.format.operandWords := by
  have hh := header_fields ho
  cases o with
  | encTick | encPos | motStop | motMoving | motEncPos | encZero | pwmSetFreq | motSetPower | motCheck | motGoFor | motGoTo =>
    simp only [Format.reservedZero, Opcode.format, Bool.and_eq_true, decide_eq_true_eq] at hr
    obtain ⟨hs, hm⟩ := hr
    rw [hs, hm] at hh
    simp [Opcode.instr, encode, hh, Opcode.format, Format.operandWords]
  | encSetA | encSetB | encEdgeA | encEdgeB =>
    simp only [Format.reservedZero, Opcode.format, Bool.and_eq_true, decide_eq_true_eq] at hr
    obtain ⟨hs, hm⟩ := hr
    rw [hs] at hh
    simp [Opcode.instr, encode, bit_levelField hm, hh, Opcode.format, Format.operandWords]
  | motGo =>
    simp only [Format.reservedZero, Opcode.format, Bool.and_eq_true, decide_eq_true_eq] at hr
    obtain ⟨hs, hm⟩ := hr
    rw [hm] at hh
    simp [Opcode.instr, encode, flagBit_flagField hs, hh, Opcode.format, Format.operandWords]
  | pwmAWrite =>
    have hs : subField h = 0 := by simpa [Format.reservedZero, Opcode.format] using hr
    rw [hs] at hh
    simp [Opcode.instr, encode, hh, Opcode.format, Format.operandWords]
  | pwmSetDuty => simp [Opcode.instr, encode, hh, Opcode.format, Format.operandWords]

/-- The two words the decoder looks at begin with the operand words of any format. -/
theorem take_getD_pair {α : Type} (d : α) (l : List α) {n : Nat} (hn : n ≤ 2) (hl : n ≤ l.length) :
    [l.getD 0 d, l.getD 1 d].take n = l.take n := by
  match n, l with
  | 0, _ => rfl
  | 1, _ :: _ => rfl
  | 2, _ :: _ :: _ => rfl

theorem operandWords_le_two (f : Format) : f.operandWords ≤ 2 := by cases f <;> decide

/-- What a frame that decodes is: the header of a row of the opcode map with its reserved bits clear and the operand words of its
format, and what is left over. -/
theorem decodeFrame_ok {h : Word} {ws rest : List Word} {i : Instr} (hd : decodeFrame (h :: ws) = .ok (i, rest)) :
    ∃ o : Opcode, Opcode.ofCode (opcField h) = some o ∧ o.format.reservedZero h = true ∧ o.format.operandWords ≤ ws.length ∧
      i = o.instr h (ws.getD 0 0) (ws.getD 1 0) ∧ rest = ws.drop o.format.operandWords := by
  rw [decodeFrame] at hd
  split at hd
  · cases hd
  · next o ho =>
    split at hd
    · next hr =>
      split at hd
      · cases hd
      · next hl =>
        cases hd
        exact ⟨o, ho, hr, by omega, rfl, rfl⟩
    · cases hd

/-- Settles O2, by `encode_instr` on the header and the operand words that the decoder has read. -/
theorem decodedFrameIsTheCommandsEncoding : Obligations.DecodedFrameIsTheCommandsEncoding := by
  intro ws rest i hd
  refine ⟨decodeFrame_wf hd, ?_⟩
  cases ws with
  | nil => cases hd
  | cons h ws =>
    obtain ⟨o, ho, hr, hl, rfl, rfl⟩ := decodeFrame_ok hd
    rw [encode_instr ho hr, take_getD_pair 0 ws (operandWords_le_two _) hl, List.cons_append, List.take_append_drop]

/-- Settles O4: the words are those the encoder computes, and by O1 they decode to their command. -/
theorem workedEncodings : Obligations.WorkedEncodings := by
  intro x hx
  have henc : encode x.1 = x.2 ∧ x.1.wf = true := by
    revert x
    decide
  obtain ⟨hw, hwf⟩ := henc
  have hd := encodedCommandDecodesToItself x.1 [] hwf
  rw [List.append_nil, hw] at hd
  exact ⟨hw, hd⟩

/-! ### Serialized frames (R98) -/

theorem extractLsb'_byte (w : Word) (k : Nat) : w.extractLsb' k 8 = BitVec.ofNat 8 (w.toNat / 2 ^ k) := by
  apply BitVec.eq_of_toNat_eq
  simp [BitVec.extractLsb'_toNat, Nat.shiftRight_eq_div_pow]

theorem wordOfBytes_extractLsb' (w : Word) :
    wordOfBytes (w.extractLsb' 0 8) (w.extractLsb' 8 8) (w.extractLsb' 16 8) (w.extractLsb' 24 8) = w := by
  calc _ = w.extractLsb' 16 16 ++ w.extractLsb' 8 8 ++ w.extractLsb' 0 8 := by
        rw [wordOfBytes, BitVec.extractLsb'_append_extractLsb'_eq_extractLsb' (start₂ := 24) rfl]
    _ = w.extractLsb' 8 24 ++ w.extractLsb' 0 8 := by
        rw [BitVec.extractLsb'_append_extractLsb'_eq_extractLsb' (start₂ := 16) rfl]
    _ = w.extractLsb' 0 32 := by
        rw [BitVec.extractLsb'_append_extractLsb'_eq_extractLsb' (start₂ := 8) rfl]
    _ = w := BitVec.extractLsb'_eq_self

theorem wordsOfBytes_bytesOfWords (ws : List Word) : wordsOfBytes (bytesOfWords ws) = ws := by
  induction ws with
  | nil => rfl
  | cons w ws ih =>
    change wordOfBytes _ _ _ _ :: wordsOfBytes (bytesOfWords ws) = w :: ws
    rw [wordOfBytes_extractLsb', ih]

/-- Settles O3: bytes are read back word by word, and then O1. -/
theorem serializedFramesAreLittleEndian : Obligations.SerializedFramesAreLittleEndian := by
  refine ⟨fun w ws => ?_, wordsOfBytes_bytesOfWords, fun i rest hi => ?_⟩
  · simp only [bytesOfWords, bytesOfWord, extractLsb'_byte, Nat.pow_zero, Nat.div_one, Nat.reducePow]
  · rw [decodeBytes, wordsOfBytes_bytesOfWords]
    exact encodedCommandDecodesToItself i rest hi

/-! ### Which headers are refused (R83, R88, R93) -/

theorem ofCode_eq_some {n : Nat} {o : Opcode} : Opcode.ofCode n = some o ↔ n = o.code :=
  ⟨fun h => (code_of_ofCode h).symm, fun h => h ▸ ofCode_code o⟩

/-- Headers are equal when their four fields are. -/
theorem header_ext_iff {h k : Word} : h = k ↔
    opcField h = opcField k ∧ idxField h = idxField k ∧ subField h = subField k ∧ imm8Field h = imm8Field k := by
  refine ⟨fun e => e ▸ ⟨rfl, rfl, rfl, rfl⟩, fun ⟨ho, hi, hs, hm⟩ => BitVec.eq_of_toNat_eq ?_⟩
  rw [toNat_eq_fields h, toNat_eq_fields k, ho, hi, hs, hm]

section mask
variable (h m : Word)

theorem opcField_and : opcField (h &&& m) = opcField h &&& opcField m := by
  rw [opcField, BitVec.extractLsb'_and, BitVec.toNat_and]; rfl
theorem idxField_and : idxField (h &&& m) = idxField h &&& idxField m := by
  rw [idxField, BitVec.extractLsb'_and, BitVec.toNat_and]; rfl
theorem subField_and : subField (h &&& m) = subField h &&& subField m := by
  rw [subField, BitVec.extractLsb'_and, BitVec.toNat_and]; rfl
theorem imm8Field_and : imm8Field (h &&& m) = imm8Field h &&& imm8Field m := by
  rw [imm8Field, BitVec.extractLsb'_and, BitVec.toNat_and]; rfl

end mask

theorem and_255 {n : Nat} (hn : n < 256) : n &&& 255 = n := by
  rw [show 255 = 2 ^ 8 - 1 from rfl, Nat.and_two_pow_sub_one_eq_mod, Nat.mod_eq_of_lt hn]

/-- Under the mask of all but its lowest bit, a byte is 0 when it is at most 1. -/
theorem and_254_eq_zero {n : Nat} (hn : n < 256) : n &&& 254 = 0 ↔ n < 2 := by
  have hdiv : (n &&& 254) / 2 = n / 2 := by
    rw [Nat.and_div_two, show 254 / 2 = 2 ^ 7 - 1 from rfl, Nat.and_two_pow_sub_one_eq_mod]
    omega
  have hmod : (n &&& 254) % 2 = 0 := by
    have := Nat.and_mod_two_pow (a := n) (b := 254) (n := 1)
    simpa using this
  omega

theorem opcField_lt (h : Word) : opcField h < 256 := (h.extractLsb' 24 8).isLt

theorem opcField_fixedMask (f : Format) : opcField f.fixedMask = 255 := by cases f <;> rfl

theorem idxField_fixedMask (f : Format) : idxField f.fixedMask = 0 := by cases f <;> rfl

/-- The reserved bits of a format are those of its mask below the index. -/
theorem reservedZero_iff (f : Format) (h : Word) : f.reservedZero h = true ↔
    subField h &&& subField f.fixedMask = 0 ∧ imm8Field h &&& imm8Field f.fixedMask = 0 := by
  have hs := subField_lt h
  have hm := imm8Field_lt h
  cases f with
  | n | w | ww =>
    change _ ↔ subField h &&& 255 = 0 ∧ imm8Field h &&& 255 = 0
    simp [Format.reservedZero, and_255 hs, and_255 hm]
  | l =>
    change _ ↔ subField h &&& 255 = 0 ∧ imm8Field h &&& 254 = 0
    simp [Format.reservedZero, and_255 hs, and_254_eq_zero hm]
  | cd =>
    change _ ↔ subField h &&& 0 = 0 ∧ imm8Field h &&& 0 = 0
    simp [Format.reservedZero]
  | i8 =>
    change _ ↔ subField h &&& 255 = 0 ∧ imm8Field h &&& 0 = 0
    simp [Format.reservedZero, and_255 hs]
  | fw =>
    change _ ↔ subField h &&& 254 = 0 ∧ imm8Field h &&& 255 = 0
    simp [Format.reservedZero, and_254_eq_zero hs, and_255 hm]

/-- The header of an opcode with nothing in its other fields, as the patterns of R89 write it. -/
theorem ofNat_code_eq_header (o : Opcode) : BitVec.ofNat 32 (o.code * 16777216) = header o 0 0 0 := by
  simp only [header_eq, Nat.zero_mul, Nat.add_zero]

/-- A header is an opcode alone under a format's mask exactly when it has that opcode and the format's reserved bits are clear. -/
theorem and_fixedMask_eq_iff (f : Format) (o : Opcode) (h : Word) :
    h &&& f.fixedMask = BitVec.ofNat 32 (o.code * 16777216) ↔ opcField h = o.code ∧ f.reservedZero h = true := by
  have h0 : 0 < 256 := by decide
  rw [ofNat_code_eq_header, header_ext_iff, opcField_and, idxField_and, subField_and, imm8Field_and, opcField_header h0 h0 h0,
    idxField_header h0 h0 h0, subField_header h0 h0 h0, imm8Field_header h0 h0 h0, opcField_fixedMask, idxField_fixedMask,
    and_255 (opcField_lt h), Nat.and_zero, reservedZero_iff]
  simp only [true_and]

/-- The decoder refuses a header, whatever follows it, when its opcode is reserved or one of its reserved bits is set (R242). -/
theorem decodeFrame_illegal_iff {h : Word} {ws : List Word} : (∃ e, decodeFrame (h :: ws) = .error e ∧ e ≠ .incomplete) ↔
    ∀ o, Opcode.ofCode (opcField h) = some o → ¬o.format.reservedZero h = true := by
  rw [decodeFrame]
  split
  · next hn => simp [hn]
  · next o ho =>
    simp only [ho, Option.some.injEq, forall_eq']
    split
    · next hr =>
      split <;> simp [hr]
    · next hr => simp [hr]

/-- Settles O5: the decoder's test on the fields of a header is the comparison under the masks. -/
theorem headerIllegalExactlyWhenNoRowMatches : Obligations.HeaderIllegalExactlyWhenNoRowMatches := by
  intro h ws
  simp only [decodeFrame_illegal_iff, ofCode_eq_some, ne_eq, and_fixedMask_eq_iff, not_and]

end Sys2Proof

namespace Sys2Proof.Machine

open Sys2Proof

/-! ### What a step makes of a frame (R80, R85, R92, R93) -/

@[simp] theorem port_setPort_self (s : State) (a : Agent) (ws : List Word) : (s.setPort a ws).port a = ws := by cases a <;> rfl

theorem port_setPort_of_ne (s : State) {a b : Agent} (hab : b ≠ a) (ws : List Word) : (s.setPort a ws).port b = s.port b := by
  match a, b, hab with
  | .edge, .control, _ | .control, .edge, _ => rfl

/-- A booted block drops a frame that the decoder refuses. -/
theorem step_of_illegal {s : State} {t : Turn} {ts : List Turn} {e : DecodeError} (hb : s.boot = .running) (ht : s.turns = t :: ts)
    (hd : decodeFrame (s.port t.agent) = .error e) (he : e ≠ .incomplete) : step s = .next (s.dropIllegal t ts) := by
  simp only [step, fetch, hb, ht, fetchTurn, hd]
  cases e with
  | incomplete => exact absurd rfl he
  | reservedOpcode | reservedBits => rfl

theorem dropIllegal_port (s : State) (t : Turn) (ts : List Turn) (a : Agent) :
    (s.dropIllegal t ts).port a = (s.setPort t.agent (afterIllegal (s.port t.agent))).port a := by
  cases a <;> rfl

/-- An ILLEGAL frame changes no unit. -/
theorem dropIllegal_units (s : State) (t : Turn) (ts : List Turn) : (s.dropIllegal t ts).cfg = s.cfg ∧
    (s.dropIllegal t ts).enc = s.enc ∧ (s.dropIllegal t ts).grp = s.grp ∧ (s.dropIllegal t ts).pin = s.pin ∧
    (s.dropIllegal t ts).mot = s.mot ∧ (s.dropIllegal t ts).clock = s.clock ∧ (s.dropIllegal t ts).boot = s.boot := by
  simp only [State.dropIllegal, State.setPort]
  split <;> exact ⟨rfl, rfl, rfl, rfl, rfl, rfl, rfl⟩

/-- Settles O6: a header no row matches is one the decoder refuses (O5). -/
theorem illegalFrameChangesNoUnit : Obligations.IllegalFrameChangesNoUnit := by
  intro s t ts h ws hb ht hp hno
  obtain ⟨e, hd, he⟩ := (headerIllegalExactlyWhenNoRowMatches h ws).mpr hno
  obtain ⟨hcfg, henc, hgrp, hpin, hmot, hclock, hboot⟩ := dropIllegal_units s t ts
  refine ⟨_, step_of_illegal hb ht (hp ▸ hd) he, rfl, hcfg, henc, hgrp, hpin, hmot, hclock, hboot.trans hb, rfl, ?_, fun a ha => ?_⟩
  · rw [dropIllegal_port, port_setPort_self, hp, afterIllegal]
  · rw [dropIllegal_port, port_setPort_of_ne s ha]

/-- The state in which a turn's command executes is the block as it stood. -/
theorem begin_units (s : State) (t : Turn) (ts : List Turn) (rest : List Word) (i : Instr) : (s.begin t ts rest i).cfg = s.cfg ∧
    (s.begin t ts rest i).enc = s.enc ∧ (s.begin t ts rest i).grp = s.grp ∧ (s.begin t ts rest i).pin = s.pin ∧
    (s.begin t ts rest i).mot = s.mot ∧ (s.begin t ts rest i).resp = s.resp ∧ (s.begin t ts rest i).clock = s.clock ∧
    (s.begin t ts rest i).boot = s.boot := by
  unfold State.begin
  split <;> exact ⟨rfl, rfl, rfl, rfl, rfl, rfl, rfl, rfl⟩

/-- The turn is taken and its clock draw is at hand (log 11). -/
theorem begin_turn (s : State) (t : Turn) (ts : List Turn) (rest : List Word) (i : Instr) :
    (s.begin t ts rest i).turns = ts ∧ (s.begin t ts rest i).draw = t.draw := by
  unfold State.begin
  split <;> exact ⟨rfl, rfl⟩

theorem begin_port (s : State) (t : Turn) (ts : List Turn) (rest : List Word) (i : Instr) (a : Agent) :
    (s.begin t ts rest i).port a = (s.setPort t.agent rest).port a := by
  unfold State.begin State.setPort
  split <;> cases a <;> rfl

/-- A read races only in a control turn that says so (20_memory.md R67). -/
theorem begin_race_eq_none {t : Turn} (h : t.agent = .edge ∨ t.torn = none) (s : State) (ts : List Turn) (rest : List Word)
    (i : Instr) : (s.begin t ts rest i).race = none := by
  unfold State.begin
  split
  · rfl
  · next ha =>
    have hn : t.torn = none := h.resolve_left (by simp [ha])
    simp [raceOf, hn]

/-- Settles O7, with the state of `State.begin`. -/
theorem stepRunsTheDecodedCommand : Obligations.StepRunsTheDecodedCommand := by
  intro s t ts i rest hb ht hd ha
  obtain ⟨hcfg, henc, hgrp, hpin, hmot, hresp, hclock, hboot⟩ := begin_units s t ts rest i
  obtain ⟨hturns, hdraw⟩ := begin_turn s t ts rest i
  refine ⟨_, step_of_frame hb ht hd ha, hcfg, henc, hgrp, hpin, hmot, hresp, hclock, hboot.trans hb, hturns, hdraw, ?_,
    fun a hne => ?_, fun h => begin_race_eq_none h s ts rest i⟩
  · rw [begin_port, port_setPort_self]
  · rw [begin_port, port_setPort_of_ne s hne]

/-! ### Unit indices out of range (R95) -/

theorem timerOf_eq_none {c : Config} {p : Nat} (h : c.nPins ≤ p) : c.timerOf p = none :=
  Option.eq_none_iff_forall_ne_some.mpr fun _ hp => absurd (timerOf_lt hp) (by omega)

/-- A channel exists unless its group or its own index is out of range (41_pwm.md R147). -/
theorem channelExists_of_outOfRange {c : Config} {g ch d : Nat} (h : outOfRange c (.pwmSetDuty g ch d) = true) :
    channelExists c g ch = false := by
  unfold channelExists
  split
  · rfl
  · next gc hg =>
    obtain ⟨hlt, rfl⟩ := List.getElem?_eq_some_iff.mp hg
    simpa [outOfRange, hlt, Nat.not_le.mpr hlt] using h

/-- Settles O11: every command looks its unit up first. -/
theorem outOfRangeIndexIsIgnored : Obligations.OutOfRangeIndexIsIgnored := by
  intro i s h
  cases i with
  | encSetA e | encSetB e | encTick e | encEdgeA e | encEdgeB e | encZero e | encPos e =>
    have he : ¬e < s.cfg.nEnc := by simpa [outOfRange] using h
    simp only [exec, execEncSetA, execEncSetB, execEncTick, execEncEdgeA, execEncEdgeB, execEncZero, execEncPos, if_neg he, complete]
  | pwmSetFreq p f =>
    have hp : s.cfg.timerOf p = none := timerOf_eq_none (by simpa [outOfRange] using h)
    simp only [exec, execPwmSetFreq, freqPlan, hp, complete]
  | pwmSetDuty g c d =>
    simp [exec, execPwmSetDuty, channelExists_of_outOfRange h, complete]
  | pwmAWrite p v =>
    have hp : s.cfg.nPins ≤ p := by simpa [outOfRange] using h
    simp only [exec, execPwmAWrite, aWriteCore, if_pos hp, complete]
  | motStop m | motGo m | motSetPower m | motGoFor m | motGoTo m | motCheck m | motMoving m | motEncPos m =>
    have hm : s.cfg.motors[m]? = none := List.getElem?_eq_none (by simpa [outOfRange] using h)
    simp only [exec, execMotStop, execMotGo, execMotSetPower, execMotGoFor, execMotGoTo, execMotCheck, execMotMoving,
      execMotEncPos, hm, complete]

end Sys2Proof.Machine
end

section
/-! PROOFS. The encoder (40_encoder.md): the phase decoder (O17), what each encoder command writes and answers (O18 to O21), and the count
it makes of edges, one at a time (O24, O25) and in sequence (O23, O26). -/

namespace Sys2Proof.Machine

open Sys2Proof

/-! ### The phase decoder (R100, R101) -/

/-- Settles O17, one of the sixteen pairs at a time. -/
theorem phaseDecoderTable : Obligations.PhaseDecoderTable := by
  intro a b a' b'
  cases a <;> cases b <;> cases a' <;> cases b' <;> decide

theorem delta_bounds (p n : BitVec 2) : -1 ≤ delta p n ∧ delta p n ≤ 1 := by
  revert p n
  decide

/-- The four impossible transitions, in which both lines change, count 0 (R101). -/
theorem delta_impossible {a b a' b' : Level} (ha : a' ≠ a) (hb : b' ≠ b) : delta (phaseCode a b) (phaseCode a' b') = 0 := by
  match a, b, a', b', ha, hb with
  | .low, .low, .high, .high, _, _ | .low, .high, .high, .low, _, _ | .high, .low, .low, .high, _, _
  | .high, .high, .low, .low, _, _ => rfl

/-! ### One encoder through a new level and an evaluation (R103) -/

@[simp] theorem setLine_pos (line : Line) (l : Level) (x : Encoder) : (setLine line l x).pos = x.pos := by cases line <;> rfl

@[simp] theorem setLine_prev (line : Line) (l : Level) (x : Encoder) : (setLine line l x).prev = x.prev := by cases line <;> rfl

theorem setLine_withPos (line : Line) (l : Level) (x : Encoder) (p : Int) :
    setLine line l { x with pos := p } = { setLine line l x with pos := p } := by cases line <;> rfl

@[simp] theorem tickEncoder_pos (w : Nat) (x : Encoder) :
    (tickEncoder w x).pos = wrapTo w (x.pos + delta x.prev x.phase) := rfl

/-- An evaluation in which both lines differ from the previous phase keeps a position that fits (R113). -/
theorem tickEncoder_pos_of_impossible {w : Nat} {x : Encoder} {a b : Level} (hw : wrapTo w x.pos = x.pos)
    (hp : x.prev = phaseCode a b) (ha : x.a ≠ a) (hb : x.b ≠ b) : (tickEncoder w x).pos = x.pos := by
  rw [tickEncoder_pos, hp, Encoder.phase, delta_impossible ha hb, Int.add_zero, hw]

/-! ### What an encoder command writes (R105 to R110) -/

section Commands

variable {s : State} {e : Nat}

theorem tick_storeA (l : Level) : tick e (storeA e l s) = s.modEncoder e (fun x => tickEncoder s.cfg.posWidth (setLine .a l x)) :=
  modEncoder_modEncoder s e ..

theorem tick_storeB (l : Level) : tick e (storeB e l s) = s.modEncoder e (fun x => tickEncoder s.cfg.posWidth (setLine .b l x)) :=
  modEncoder_modEncoder s e ..

theorem exec_encSetA (he : e < s.cfg.nEnc) (l : Level) :
    exec (.encSetA e l) s = complete 0 (s.modEncoder e (setLine .a l)) := by
  simp only [exec, execEncSetA, if_pos he]
  rfl

theorem exec_encSetB (he : e < s.cfg.nEnc) (l : Level) :
    exec (.encSetB e l) s = complete 0 (s.modEncoder e (setLine .b l)) := by
  simp only [exec, execEncSetB, if_pos he]
  rfl

theorem exec_encTick (he : e < s.cfg.nEnc) :
    exec (.encTick e) s = complete 0 (s.modEncoder e (tickEncoder s.cfg.posWidth)) := by
  simp only [exec, execEncTick, if_pos he, tick]

/-- An edge command stores a level and evaluates in one rewrite of its encoder (R108, R109). -/
theorem exec_edgeCommand (he : e < s.cfg.nEnc) (line : Line) (l : Level) :
    exec (edgeCommand line e l) s = complete 0 (s.modEncoder e (fun x => tickEncoder s.cfg.posWidth (setLine line l x))) := by
  cases line with
  | a => simp only [edgeCommand, exec, execEncEdgeA, if_pos he, tick_storeA]
  | b => simp only [edgeCommand, exec, execEncEdgeB, if_pos he, tick_storeB]

theorem exec_encZero (he : e < s.cfg.nEnc) (offset : Int) : exec (.encZero e offset) s =
    complete 0 (s.modEncoder e (fun x => { x with pos := wrapTo s.cfg.posWidth offset })) := by
  simp only [exec, execEncZero, if_pos he]

/-- A command that rewrites one encoder answers OK, 0, and changes that encoder alone. -/
theorem completes_of_rewrite {i : Instr} {f : Encoder → Encoder} (hlen : e < s.enc.length)
    (hi : exec i s = complete 0 (s.modEncoder e f)) :
    ∃ t, exec i s = .next t ∧ t.resp = ⟨.ok, 0⟩ ∧ EncoderOnly e s t ∧ t.encoder e = f (s.encoder e) :=
  ⟨_, hi, rfl, encoderOnly_modEncoder s e f 0, encoder_modEncoder_self s f hlen⟩

/-- The same of a next state in hand. -/
theorem encoder_of_rewrite {i : Instr} {f : Encoder → Encoder} {t : State} (hlen : e < s.enc.length)
    (hi : exec i s = complete 0 (s.modEncoder e f)) (h : exec i s = .next t) : t.encoder e = f (s.encoder e) := by
  rw [hi, complete_eq_next] at h
  rw [h]
  exact encoder_modEncoder_self s f hlen

/-! ### What a position read answers (R111, 20_memory.md R67) -/

theorem exec_encPos (he : e < s.cfg.nEnc) : exec (.encPos e) s = .next (s.respond (BitVec.ofInt 32 (s.readPos e))) := by
  simp only [exec, execEncPos, if_pos he, complete, posWord]

theorem exec_motEncPos {m : Nat} {mc : MotorConfig} (hm : s.cfg.motors[m]? = some mc) :
    exec (.motEncPos m) s = .next (s.respond (BitVec.ofInt 32 (s.readPos mc.encOf))) := by
  simp only [exec, execMotEncPos, hm, complete, posWord]

theorem readPos_of_no_race (h : s.race = none) (e : Nat) : s.readPos e = (s.encoder e).pos := by
  simp only [State.readPos, h]

theorem readPos_of_other_race {r : Race} (h : s.race = some r) (hne : r.enc ≠ e) : s.readPos e = (s.encoder e).pos := by
  simp only [State.readPos, h, if_neg hne]

theorem readPos_of_race {r : Race} (h : s.race = some r) :
    s.readPos r.enc = tornValue s.cfg.tornRead s.cfg.posWidth r.mask r.before (s.encoder r.enc).pos := by
  simp only [State.readPos, h, if_true]

end Commands

/-- Settles O18: each command is one rewrite of its encoder. -/
theorem setLevelOnlyStoresTheLevel : Obligations.SetLevelOnlyStoresTheLevel := by
  intro s e l he hlen
  have hlt : e < s.enc.length := hlen ▸ he
  exact ⟨completes_of_rewrite hlt (exec_encSetA he l), completes_of_rewrite hlt (exec_encSetB he l)⟩

/-- Settles O19: an edge command is a new level and then an evaluation, in one rewrite. -/
theorem edgeCommandsStoreAndEvaluate : Obligations.EdgeCommandsStoreAndEvaluate := by
  intro s e l he hlen
  have hlt : e < s.enc.length := hlen ▸ he
  exact ⟨completes_of_rewrite hlt (exec_encTick he), completes_of_rewrite hlt (exec_edgeCommand he .a l),
    completes_of_rewrite hlt (exec_edgeCommand he .b l)⟩

/-- Settles O20: ENC.ZERO keeps the overlap of the state, so that a read after it has none either. -/
theorem zeroSetsThePosition : Obligations.ZeroSetsThePosition := by
  intro s e offset he hlen
  obtain ⟨t, ht, hresp, honly, henc⟩ := completes_of_rewrite (hlen ▸ he) (exec_encZero he offset)
  refine ⟨t, ht, hresp, honly, henc, fun hrace => ?_⟩
  have he' : e < t.cfg.nEnc := honly.inputs.cfg ▸ he
  have hrace' : t.race = none := honly.inputs.race.trans hrace
  rw [exec_encPos he', readPos_of_no_race hrace', henc]

/-- Settles O21, by the three cases of a position read. -/
theorem positionReadsAnswerThePosition : Obligations.PositionReadsAnswerThePosition :=
  ⟨fun _ _ => exec_encPos, fun _ _ _ => exec_motEncPos, fun _ e h => readPos_of_no_race h e,
    fun _ _ _ => readPos_of_other_race, fun _ _ => readPos_of_race⟩

/-! ### One evaluation (R113, R115, R116) -/

/-- Settles O24: each of the three commands evaluates an encoder with the previous phase and the position of before. -/
theorem impossibleTransitionIsDropped : Obligations.ImpossibleTransitionIsDropped := by
  intro s t e l a b he hlen hw hfit hprev h
  have hlt : e < s.enc.length := hlen ▸ he
  have hwrap : wrapTo s.cfg.posWidth (s.encoder e).pos = (s.encoder e).pos := wrap_fits hw hfit
  rcases h with ⟨hx, ha, hb⟩ | ⟨hx, ha, hb⟩ | ⟨hx, ha, hb⟩
  · rw [encoder_of_rewrite hlt (exec_encTick he) hx]
    exact tickEncoder_pos_of_impossible hwrap hprev ha hb
  · rw [encoder_of_rewrite hlt (exec_edgeCommand he .a l) hx]
    exact tickEncoder_pos_of_impossible (x := setLine .a l (s.encoder e)) hwrap hprev ha hb
  · rw [encoder_of_rewrite hlt (exec_edgeCommand he .b l) hx]
    exact tickEncoder_pos_of_impossible (x := setLine .b l (s.encoder e)) hwrap hprev ha hb

/-- The position of `y` is that of `x`, moved by at most one and wrapped (R116). -/
def MovedByAtMostOne (w : Nat) (x y : Encoder) : Prop := ∃ d : Int, -1 ≤ d ∧ d ≤ 1 ∧ y.pos = wrapTo w (x.pos + d)

theorem movedByAtMostOne_of_fits {w : Nat} {x : Encoder} (hw : 2 ≤ w) (h : fitsWidth w x.pos) : MovedByAtMostOne w x x :=
  ⟨0, by decide, by decide, by rw [Int.add_zero, wrap_fits hw h]⟩

/-- An evaluation moves the position by DELTA. -/
theorem movedByAtMostOne_tickEncoder {w : Nat} {x y : Encoder} (h : y.pos = x.pos) : MovedByAtMostOne w x (tickEncoder w y) :=
  ⟨_, (delta_bounds ..).1, (delta_bounds ..).2, h ▸ tickEncoder_pos w y⟩

/-- A rewrite of one encoder that moves it by at most one moves every encoder so, when keeping a position is such a move. -/
theorem movedByAtMostOne_modEncoder {s : State} {e e' w : Nat} {f : Encoder → Encoder}
    (hid : MovedByAtMostOne w (s.encoder e) (s.encoder e)) (hf : MovedByAtMostOne w (s.encoder e) (f (s.encoder e))) :
    MovedByAtMostOne w (s.encoder e) ((s.modEncoder e' f).encoder e) := by
  rw [encoder_modEncoder]
  split
  · exact hf
  · exact hid

/-- Settles O25, by the effects of the edge agent's commands: a stored level keeps a position, an evaluation counts by DELTA. -/
theorem edgeCommandMovesByAtMostOne : Obligations.EdgeCommandMovesByAtMostOne := by
  intro i s t e hi _ hw hfit h
  obtain ⟨r, u, hu, rfl⟩ := effect_of_exec h
  have hid : MovedByAtMostOne s.cfg.posWidth (s.encoder e) (s.encoder e) := movedByAtMostOne_of_fits hw hfit
  change MovedByAtMostOne s.cfg.posWidth (s.encoder e) (u.encoder e)
  cases hu with
  | unchanged => exact hid
  | setA | setB => exact movedByAtMostOne_modEncoder hid hid
  | tick => exact movedByAtMostOne_modEncoder hid (movedByAtMostOne_tickEncoder rfl)
  | edgeA l => exact tick_storeA l ▸ movedByAtMostOne_modEncoder hid (movedByAtMostOne_tickEncoder (setLine_pos ..))
  | edgeB l => exact tick_storeB l ▸ movedByAtMostOne_modEncoder hid (movedByAtMostOne_tickEncoder (setLine_pos ..))
  | zero | setFreq | setDuty | aWrite | stop | go | setPower | goFor | goTo | check => cases hi

/-! ### Sequences of delivered edges (R112, R113, R117) -/

/-- An encoder after a sequence of delivered edges, each a new level and then an evaluation. -/
def deliverEdges (w : Nat) (x : Encoder) (edges : List (Line × Level)) : Encoder :=
  edges.foldl (fun y ev => tickEncoder w (setLine ev.1 ev.2 y)) x

@[simp] theorem deliverEdges_nil (w : Nat) (x : Encoder) : deliverEdges w x [] = x := rfl

@[simp] theorem deliverEdges_cons (w : Nat) (x : Encoder) (ev : Line × Level) (edges : List (Line × Level)) :
    deliverEdges w x (ev :: edges) = deliverEdges w (tickEncoder w (setLine ev.1 ev.2 x)) edges := rfl

/-- The commands of a sequence of edges on one encoder complete and leave that encoder as the sequence makes it. -/
theorem execAll_edgeCommands {s : State} {e : Nat} (he : e < s.cfg.nEnc) (hlen : s.enc.length = s.cfg.nEnc)
    (edges : List (Line × Level)) : ∃ t, execAll (edges.map (fun ev => edgeCommand ev.1 e ev.2)) s = .next t ∧
      t.encoder e = deliverEdges s.cfg.posWidth (s.encoder e) edges := by
  induction edges generalizing s with
  | nil => exact ⟨s, rfl, rfl⟩
  | cons ev edges ih =>
    obtain ⟨u, hu, -, honly, henc⟩ := completes_of_rewrite (hlen ▸ he) (exec_edgeCommand he ev.1 ev.2)
    have hcfg : u.cfg = s.cfg := honly.inputs.cfg
    obtain ⟨t, ht, htenc⟩ := ih (s := u) (hcfg ▸ he) (by rw [honly.count, hlen, hcfg])
    refine ⟨t, ?_, ?_⟩
    · simp only [List.map_cons, execAll, hu, ht]
    · rw [htenc, henc, hcfg, deliverEdges_cons]

/-- The transitions that a sequence evaluates do not depend on the position. -/
theorem transitions_withPos (x : Encoder) (p : Int) (edges : List (Line × Level)) :
    transitions { x with pos := p } edges = transitions x edges := by
  induction edges generalizing x with
  | nil => rfl
  | cons ev edges ih =>
    simp only [transitions, setLine_withPos]
    exact congrArg _ (ih { setLine ev.1 ev.2 x with prev := (setLine ev.1 ev.2 x).phase })

theorem transitions_cons (w : Nat) (x : Encoder) (ev : Line × Level) (edges : List (Line × Level)) :
    transitions x (ev :: edges) =
      (x.prev, (setLine ev.1 ev.2 x).phase) :: transitions (tickEncoder w (setLine ev.1 ev.2 x)) edges :=
  congrArg _ (transitions_withPos { setLine ev.1 ev.2 x with prev := (setLine ev.1 ev.2 x).phase } _ edges).symm

/-- The count law of one encoder (R112): each evaluation counts by DELTA, which is the forward less the backward transition. -/
theorem deliverEdges_pos {w : Nat} {x : Encoder} (h : wrapTo w x.pos = x.pos) (edges : List (Line × Level)) :
    (deliverEdges w x edges).pos = wrapTo w (x.pos + ((transitions x edges).countP isForward : Nat) -
      ((transitions x edges).countP isBackward : Nat)) := by
  induction edges generalizing x with
  | nil => simp [transitions, h]
  | cons ev edges ih =>
    rw [deliverEdges_cons, ih (wrap_idem ..), transitions_cons w, tickEncoder_pos, Int.add_sub_assoc, wrap_wrap_add,
      setLine_pos, setLine_prev, delta_cases, List.countP_cons, List.countP_cons]
    congr 1
    push_cast
    ring

/-- Settles O23, by the count law of its encoder. -/
theorem countLaw : Obligations.CountLaw := by
  intro s e edges he hlen hw hfit
  obtain ⟨t, ht, henc⟩ := execAll_edgeCommands he hlen edges
  exact ⟨t, ht, henc ▸ deliverEdges_pos (wrap_fits hw hfit) edges⟩

/-- Two rising edges from phase 00: backward twice when line A is first, forward twice when line B is first (R117). -/
theorem deliverEdges_rising (w : Nat) (p : Int) :
    deliverEdges w ⟨.low, .low, 0, p⟩ [(.a, .high), (.b, .high)] = ⟨.high, .high, 3, wrapTo w (p - 2)⟩ ∧
    deliverEdges w ⟨.low, .low, 0, p⟩ [(.b, .high), (.a, .high)] = ⟨.high, .high, 3, wrapTo w (p + 2)⟩ := by
  have htwice (d : Int) : wrapTo w (wrapTo w (p + d) + d) = wrapTo w (p + 2 * d) := by
    rw [wrap_wrap_add]
    congr 1
    ring
  exact ⟨congrArg (Encoder.mk .high .high 3) (htwice (-1)), congrArg (Encoder.mk .high .high 3) (htwice 1)⟩

/-- Settles O26, by what the two orders make of the encoder alone. -/
theorem edgeOrderDecidesTheCount : Obligations.EdgeOrderDecidesTheCount := by
  intro s e p he hlen hs
  obtain ⟨hAB, hBA⟩ := deliverEdges_rising s.cfg.posWidth p
  obtain ⟨t, ht, htenc⟩ := execAll_edgeCommands he hlen [(.a, .high), (.b, .high)]
  obtain ⟨u, hu, huenc⟩ := execAll_edgeCommands he hlen [(.b, .high), (.a, .high)]
  exact ⟨⟨t, ht, by rw [htenc, hs, hAB]⟩, ⟨u, hu, by rw [huenc, hs, hBA]⟩⟩

end Sys2Proof.Machine
end

section
/-! PROOFS. The PWM Driver (41_pwm.md): the choice of a prescaler and a period (O31, O36), when a reprogramming succeeds (O32, O34) and
what it writes (O33), duty scaling (O37), and what the two duty commands leave on a channel and on a pin (O38, O39). -/

namespace Sys2Proof.Machine

open Sys2Proof

/-! ### Prescaler and period selection (R141, R154) -/

/-- The period of a prescaler is in the range of a group's counter (R141). -/
def periodFits (clk topMax f ps : Nat) : Bool := decide (topMin < clk / (2 * ps * f) ∧ clk / (2 * ps * f) ≤ topMax)

@[simp] theorem periodFits_iff {clk topMax f ps : Nat} :
    periodFits clk topMax f ps = true ↔ 3 < clk / (2 * ps * f) ∧ clk / (2 * ps * f) ≤ topMax := by
  simp [periodFits]

/-- A period above `TOP_MIN` is a quotient by no 0: neither the prescaler nor the frequency is 0. -/
theorem divisor_ne_zero_of_period {clk ps f : Nat} (h : 3 < clk / (2 * ps * f)) : 2 * ps * f ≠ 0 := by
  intro h0
  simp [h0] at h

theorem pickPrescaler_eq_find? (clk topMax f : Nat) (l : List Nat) :
    pickPrescaler clk topMax f l = (l.find? (periodFits clk topMax f)).map (fun ps => (ps, clk / (2 * ps * f))) := by
  induction l with
  | nil => rfl
  | cons ps l ih =>
    rw [pickPrescaler, List.find?_cons, periodFits]
    split <;> simp [*]

/-- The check for frequency 0 changes no result: no period is in range there. -/
theorem selectConfig_eq_find? (clk : Nat) (gc : GroupConfig) (f : Nat) : selectConfig clk gc f =
    (gc.prescalers.find? (periodFits clk gc.width.topMax f)).map (fun ps => (ps, clk / (2 * ps * f))) := by
  rw [selectConfig, pickPrescaler_eq_find?]
  split
  · next h0 =>
    have hnone : gc.prescalers.find? (periodFits clk gc.width.topMax f) = none := List.find?_eq_none.mpr (by simp [h0])
    rw [hnone, Option.map_none]
  · rfl

/-- Settles O31: SelectConfig finds the first prescaler of the list whose period fits. -/
theorem selectConfigTakesTheFirstFit : Obligations.SelectConfigTakesTheFirstFit := by
  intro clk f ps t gc
  simp only [selectConfig_eq_find?, Option.map_eq_some_iff, List.find?_eq_some_iff_append, Bool.not_eq_true',
    ← Bool.not_eq_true, periodFits_iff, Prod.mk.injEq]
  constructor
  · rintro ⟨q, ⟨⟨hlo, hhi⟩, l1, l2, hl, hbefore⟩, rfl, rfl⟩
    exact ⟨right_ne_zero_of_mul (divisor_ne_zero_of_period hlo), l1, l2, hl, rfl, hlo, hhi, hbefore⟩
  · rintro ⟨-, l1, l2, hl, rfl, hlo, hhi, hbefore⟩
    exact ⟨ps, ⟨⟨hlo, hhi⟩, l1, l2, hl, hbefore⟩, rfl, rfl⟩

theorem selectConfig_isSome_iff {clk f : Nat} {gc : GroupConfig} : (selectConfig clk gc f).isSome = true ↔
    ∃ ps ∈ gc.prescalers, 3 < clk / (2 * ps * f) ∧ clk / (2 * ps * f) ≤ gc.width.topMax := by
  simp only [selectConfig_eq_find?, Option.isSome_map, List.find?_isSome, periodFits_iff]

/-- Settles O36: the period is the floor of a quotient whose divisor is not 0. -/
theorem achievedFrequencyIsWithinOneCount : Obligations.AchievedFrequencyIsWithinOneCount := by
  intro clk f ps t gc h
  obtain ⟨-, -, -, -, rfl, hlo, -⟩ := (selectConfigTakesTheFirstFit ..).mp h
  have hpos : 0 < 2 * ps * f := Nat.pos_of_ne_zero (divisor_ne_zero_of_period hlo)
  have hassoc (t : Nat) : f * (2 * ps * t) = 2 * ps * f * t := by ring
  rw [hassoc, hassoc]
  exact ⟨Nat.lt_mul_div_succ clk hpos, Nat.mul_div_le clk _⟩

/-! ### Reprogramming a group (R142 to R144, R151, R155) -/

section SetFreq

variable {s : State} {p f : Nat}

theorem freqPlan_of_no_timer {c : Config} (h : c.timerOf p = none) : freqPlan c p f = none := by
  simp only [freqPlan, h]

theorem freqPlan_of_timer {c : Config} {g ch : Nat} {gc : GroupConfig} (ht : c.timerOf p = some (g, ch))
    (hg : c.groups[g]? = some gc) : freqPlan c p f = (selectConfig c.baseClock gc f).map (fun r => (g, r.1, r.2)) := by
  simp only [freqPlan, ht, hg]

/-- Frequency 0 has no plan, on any pin (R144): `freqPlan_some` gives every plan another frequency. -/
theorem freqPlan_zero (c : Config) (p : Nat) : freqPlan c p 0 = none := by
  refine Option.eq_none_iff_forall_ne_some.mpr fun _ h => ?_
  obtain ⟨_, _, h0, _⟩ := freqPlan_some h
  exact h0 rfl

theorem exec_pwmSetFreq_of_no_plan (h : freqPlan s.cfg p f = none) : exec (.pwmSetFreq p f) s = .next (s.respond 0) := by
  simp only [exec, execPwmSetFreq, h, complete]

theorem exec_pwmSetFreq_of_plan {g ps t : Nat} (h : freqPlan s.cfg p f = some (g, ps, t)) :
    exec (.pwmSetFreq p f) s = .next ((programGroup g ps t f s).respond 1) := by
  simp only [exec, execPwmSetFreq, h, complete]

end SetFreq

/-- The gated sequence is one rewrite of its group (R142, R143). -/
theorem programGroup_eq (g ps t f : Nat) (s : State) : programGroup g ps t f s = s.modGroup g (fun x =>
    ⟨BitVec.ofNat 32 f, t, .prescaler ps, .pwm, x.chans.map (fun ch => { ch with cmp := scale t ch.duty.toNat })⟩) := by
  simp only [programGroup, startClock, writeModeFreq, restoreDuties, writeTop, stopClock, modGroup_modGroup]

/-- Settles O32: a timer pin has a plan exactly when SelectConfig gives a pair, and a pin with no timer has none. -/
theorem setFreqSucceedsExactlyWhenAPairExists : Obligations.SetFreqSucceedsExactlyWhenAPairExists := by
  refine ⟨fun s p f g c gc ht hg => ?_, fun s p f ht => exec_pwmSetFreq_of_no_plan (freqPlan_of_no_timer ht)⟩
  simp only [← selectConfig_isSome_iff]
  have hplan := freqPlan_of_timer (f := f) ht hg
  cases hsel : selectConfig s.cfg.baseClock gc f with
  | none =>
    rw [hsel] at hplan
    exact ⟨_, exec_pwmSetFreq_of_no_plan hplan, nofun, fun _ => rfl⟩
  | some r =>
    rw [hsel] at hplan
    exact ⟨_, exec_pwmSetFreq_of_plan hplan, fun _ => rfl, fun h => absurd rfl h⟩

/-- Settles O33: the plan is the pair SelectConfig gives, and programming it rewrites its group alone. -/
theorem setFreqReprogramsTheGroup : Obligations.SetFreqReprogramsTheGroup := by
  intro s p f g c ps t gc x ht hg hx hsel
  have hplan : freqPlan s.cfg p f = some (g, ps, t) := by rw [freqPlan_of_timer ht hg, hsel, Option.map_some]
  rw [exec_pwmSetFreq_of_plan hplan, programGroup_eq]
  refine ⟨_, rfl, rfl, ?_, fun g' hne => ?_, List.length_modify ..,
    (RegistersOnly.modGroup ..).inputs.trans (OutputsOnly.respond [] _ 1).inputs, rfl, rfl, rfl, rfl⟩
  · rw [group?_congr (respond_grp ..), group?_modGroup, if_pos rfl, hx]
    rfl
  · rw [group?_congr (respond_grp ..), group?_modGroup, if_neg (Ne.symm hne)]

/-- Settles O34: frequency 0 has no plan. -/
theorem frequencyZeroFails : Obligations.FrequencyZeroFails :=
  fun s p => exec_pwmSetFreq_of_no_plan (freqPlan_zero s.cfg p)

/-! ### Duties (R145, R146, R148) -/

/-- Settles O37: at duty 255 what is missing from the period is a 256th of it, rounded up. -/
theorem scaledDuty : Obligations.ScaledDuty := by
  intro t d
  have h255 : scale t 255 = t - (t + 255) / 256 := by
    show t * 255 / 256 = _
    omega
  exact ⟨rfl, Nat.zero_div _, h255, by omega⟩

theorem exec_pwmSetDuty {s : State} {g c : Nat} (d : Nat) (h : channelExists s.cfg g c = true) :
    exec (.pwmSetDuty g c d) s = .next ((dutyCore g c d s).respond 0) := by
  simp only [exec, execPwmSetDuty, if_pos h, complete]

/-- Settles O38: a duty is written to its channel and to the pin mapped to it, if there is one. -/
theorem setDutyProgramsTheChannel : Obligations.SetDutyProgramsTheChannel := by
  intro s g c d ch h he hch
  have hkept := dutyCore_kept g c d s
  have hframe := (dutyCore_inputs g c d s).trans (OutputsOnly.respond [] _ 0).inputs
  have hpin (p : Nat) : s.cfg.pinOf g c = some p ↔ s.cfg.timerOf p = some (g, c) :=
    ⟨timerOf_of_pinOf, pinOf_of_timerOf h.wired.injective⟩
  refine ⟨_, exec_pwmSetDuty d he, rfl, ?_, fun g' c' hne => ?_, fun g' => (dutyCore_group? g c d g' s).1, fun p ht => ?_,
    fun p ht => ?_, hframe, dutyCore_enc g c d s, hkept.mot, hkept.clock⟩
  · rw [channel?_congr (respond_grp ..), dutyCore_channel?, if_pos ⟨rfl, rfl⟩, hch]
    rfl
  · rw [channel?_congr (respond_grp ..), dutyCore_channel?, if_neg]
    rintro ⟨rfl, rfl⟩
    exact hne rfl
  · rw [pin?_congr (respond_pin ..), dutyCore_pin?, if_pos ((hpin p).mpr ht)]
  · rw [pin?_congr (respond_pin ..), dutyCore_pin?, if_neg (mt (hpin p).mp ht)]

/-- Settles O39: the body of PWM.AWRITE leaves its pin carrying the value, in the frame of that pin, and its force writes keep every
duty. -/
theorem analogWriteDrivesThePin : Obligations.AnalogWriteDrivesThePin := by
  intro s p v h hp _
  have hinj := h.wired.injective
  have hkept := aWriteCore_kept p v s
  have hcarries : ((aWriteCore p v s).respond 0).carries p v := aWriteCore_carries h.wired hp
  have hframe := (aWriteCore_frame p v hinj).trans (OutputsOnly.respond [p] _ 0)
  refine ⟨_, rfl, rfl, hcarries, hframe, hkept.mot, hkept.clock, fun hforce g c => ?_⟩
  have hduties := aWriteCore_duties p v hinj
  rw [if_pos hforce] at hduties
  exact hduties g c (by simp)

end Sys2Proof.Machine
end

section
/-! PROOFS. The Motor Controller (42_motor.md): a stop (O44, O45), a drive at a power (O46, O47), the start of an episode (O48, O49), its
check and correction (O50 to O52), what ends it (O54), and the moving query (O55). -/

namespace Sys2Proof.Machine

open Sys2Proof

/-! ### What the motor commands compute on a motor of the block -/

section Commands

variable {s : State} {m : Nat} {mc : MotorConfig} (hm : s.cfg.motors[m]? = some mc)
include hm

theorem exec_motStop : exec (.motStop m) s = .next ((stopMotor m mc.wiring s).respond 0) := by
  simp only [exec, execMotStop, hm, complete]

theorem exec_motGo (fwd : Bool) (pw : Int) :
    exec (.motGo m fwd pw) s = .next ((goMotor m mc.wiring fwd pw s).respond 0) := by
  simp only [exec, execMotGo, hm, complete]

theorem exec_motSetPower (pw : Int) :
    exec (.motSetPower m pw) s = .next ((setPowerCore m mc.wiring pw s).respond 0) := by
  simp only [exec, execMotSetPower, hm, complete]

theorem exec_motGoFor (rate ticks : Int) : exec (.motGoFor m rate ticks) s = .next ((startRegulation m mc.wiring rate
    (wrapTo s.cfg.posWidth (s.readPos mc.encOf + ticks)) (s.readPos mc.encOf) s).respond 0) := by
  simp only [exec, execMotGoFor, hm, complete]

theorem exec_motGoTo (rate goal : Int) : exec (.motGoTo m rate goal) s = .next ((startRegulation m mc.wiring rate
    (wrapTo s.cfg.posWidth goal) (s.readPos mc.encOf) s).respond 0) := by
  simp only [exec, execMotGoTo, hm, complete]

theorem exec_motCheck (now : Nat) : exec (.motCheck m now) s = .next ((checkMotor m mc now s).respond 0) := by
  simp only [exec, execMotCheck, hm, complete]

theorem exec_motMoving :
    exec (.motMoving m) s = .next (s.respond (if (s.motor m).dir = .stopped then 0 else 1)) := by
  simp only [exec, execMotMoving, hm, complete]

end Commands

/-- An answer writes no output. -/
theorem OutputsOnly.answered {ps : List Nat} {s t : State} (h : OutputsOnly ps s t) (r : Word) : OutputsOnly ps s (t.respond r) :=
  h.trans (.respond ps t r)

/-- A motor command in its frame that rewrites its motor leaves the other motors, before its answer and after it. -/
theorem motorOnly_answered {s u : State} {m : Nat} {w : Wiring} {f : Motor → Motor} (ho : OutputsOnly w.pins s u)
    (hmot : u.mot = s.mot.modify m f) (r : Word) : MotorOnly m w s (u.respond r) :=
  motorOnly_of_mot (ho.answered r) hmot

/-- Settles O55: the answer is read off the direction. -/
theorem movingReportsTheDirection : Obligations.MovingReportsTheDirection :=
  fun _ _ _ hm => exec_motMoving hm

/-! ### Clamped powers (00_scope.md R10, R185) -/

theorem clampPower_eq_zero_iff {v : Int} : clampPower v = 0 ↔ v ≤ 0 := by
  unfold clampPower clamp
  omega

theorem clampPower_eq_255_iff {v : Int} : clampPower v = 255 ↔ 255 ≤ v := by
  unfold clampPower clamp
  omega

theorem clampPower_of_pos {v : Int} (h : 0 < v) : clampPower v = (min v 255).toNat := by
  unfold clampPower clamp
  omega

theorem clampPower_ne_zero {v : Int} (h : 0 < v) : clampPower v ≠ 0 :=
  fun h0 => absurd (clampPower_eq_zero_iff.mp h0) (by omega)

theorem clampPower_natCast (n : Nat) : clampPower n = min n 255 := by
  unfold clampPower clamp
  omega

/-! ### The direction pin of a DIRPWM wiring (R184, D51) -/

/-- The direction pin of a well-formed DIRPWM wiring is neither its PWM pin nor its enable. -/
theorem direction_pin_not_mem {n d p : Nat} {en : Option Nat} (h : (Wiring.dirPwm d p en).wf n = true) : d ∉ p :: en.toList := by
  have hnodup := Wiring.pins_nodup h
  cases en with
  | none => simpa [Wiring.pins] using hnodup
  | some e =>
    simp only [Wiring.pins, List.nodup_cons] at hnodup
    exact hnodup.1

/-- SetPowerCore writes the PWM pin and the enable of a DIRPWM wiring at most. -/
theorem setPowerCore_dirPwm_frame {s : State} (hs : Wired s) {d p : Nat} {en : Option Nat}
    (hwf : (Wiring.dirPwm d p en).wf s.cfg.nPins = true) (m : Nat) (pw : Int) :
    OutputsOnly (p :: en.toList) s (setPowerCore m (.dirPwm d p en) pw s) := by
  by_cases hz : clampPower pw = 0
  · rw [setPowerCore_zero hz]
    exact (OutputsOnly.modMotor _ s m _).trans (deEnergize_dirPwm_frame d p en _)
  · exact (setPowerCore_pin hs hwf hz (q := p) (inv := false) rfl).1.mono (by simp)

/-! ### Stop (R186) -/

/-- Settles O44: Stop is a rewrite of its motor and the force writes of DeEnergize. -/
theorem stopDeEnergizes : Obligations.StopDeEnergizes := by
  intro s m mc h hm
  obtain ⟨hmot, -, hclock⟩ := stopMotor_mot m mc.wiring s
  have hwf := wiring_wf h hm
  refine ⟨_, exec_motStop hm, rfl, motorOnly_answered (stopMotor_frame m mc.wiring s) hmot 0, hclock,
    motor_of_mot hmot (motor_index_lt h hm), stopMotor_deEnergized h.wired hwf, stopMotor_duties m mc.wiring s,
    fun d p en hw => ?_⟩
  rw [hw] at hwf ⊢
  have hframe : OutputsOnly (p :: en.toList) s ((stopMotor m (.dirPwm d p en) s).respond 0) :=
    ((OutputsOnly.modMotor _ s m _).trans (deEnergize_dirPwm_frame d p en _)).answered 0
  exact ⟨hframe.pin.others d (direction_pin_not_mem hwf), hframe⟩

/-- A rewrite of a motor that it finds done changes nothing. -/
theorem modMotor_of_fixed {s : State} {m : Nat} {f : Motor → Motor} (h : f (s.motor m) = s.motor m) : s.modMotor m f = s := by
  have hmot : s.mot.modify m f = s.mot := modify_eq_self fun x hx => by
    have hmx : s.motor m = x := by simp [State.motor, List.getD_eq_getElem?_getD, hx]
    rw [← hmx, h]
  simp only [State.modMotor, hmot]

/-- A stop of a motor that is stopped, with its outputs de-energized, changes nothing. -/
theorem stopMotor_of_stopped {s : State} {m : Nat} {w : Wiring} (hd : s.deEnergized w)
    (h : { s.motor m with regulated := false, power := 0, dir := .stopped } = s.motor m) : stopMotor m w s = s := by
  rw [stopMotor, modMotor_of_fixed h, deEnergize_of_deEnergized hd]

/-- Settles O45: a stop leaves a stopped, de-energized motor, if there is one. -/
theorem stopIsIdempotent : Obligations.StopIsIdempotent := by
  intro s t m h hs
  cases hm : s.cfg.motors[m]? with
  | none =>
    simp only [exec, execMotStop, hm, complete_eq_next] at hs
    simp only [hs, exec, execMotStop, respond_cfg, hm]
    rfl
  | some mc =>
    obtain ⟨u, hu, hresp, honly, -, hmotor, hde, -⟩ := stopDeEnergizes s m mc h hm
    obtain rfl : u = t := by simpa [hu] using hs
    have hfix : { u.motor m with regulated := false, power := 0, dir := .stopped } = u.motor m := by rw [hmotor]
    have hm' : u.cfg.motors[m]? = some mc := by rw [honly.outputs.inputs.cfg, hm]
    have hans : u.respond 0 = u := by rw [State.respond, ← hresp]
    rw [exec_motStop hm', stopMotor_of_stopped hde hfix, hans]

/-! ### Go and the power setter (R185, R187, R188) -/

/-- Settles O46: the direction is asserted, then the clamped power applied. -/
theorem goDrivesInItsDirection : Obligations.GoDrivesInItsDirection := by
  intro s m mc fwd pw h hm
  obtain ⟨hmot, -, hclock⟩ := goMotor_mot m mc.wiring fwd pw s
  have hlt := motor_index_lt h hm
  rw [ofNat_clampPower] at hmot
  exact ⟨_, exec_motGo hm fwd pw, rfl, motorOnly_answered (goMotor_frame m mc.wiring fwd pw h.wired.injective) hmot 0, hclock,
    motor_of_mot hmot hlt, goMotor_driven h.wired (wiring_wf h hm) hlt fwd pw, goMotor_duties fwd pw h.wired.injective hlt⟩

/-- Above power 0 the answered power setter leaves its PWM pin carrying the power or its complement, and writes no other pin. -/
theorem setPowerCore_pin_answered {s : State} (hs : Wired s) {m : Nat} {w : Wiring} (hwf : w.wf s.cfg.nPins = true) {pw : Int}
    (hpos : 0 < pw) {q : Nat} {inv : Bool} (hq : powerPin w (s.motor m).dir = some (q, inv)) :
    ((setPowerCore m w pw s).respond 0).carries q (if inv then 255 - (min pw 255).toNat else (min pw 255).toNat) ∧
      OutputsOnly [q] s ((setPowerCore m w pw s).respond 0) := by
  obtain ⟨hframe, hcarries⟩ := setPowerCore_pin hs hwf (clampPower_ne_zero hpos) hq
  rw [clampPower_of_pos hpos] at hcarries
  exact ⟨hcarries, hframe.answered 0⟩

/-- Settles O47, by the pin that carries the power: none at 0, where the outputs are de-energized, else that of R183. -/
theorem setPowerStoresAndAppliesThePower : Obligations.SetPowerStoresAndAppliesThePower := by
  intro s m mc pw h hm
  obtain ⟨hmot, -, hclock⟩ := setPowerCore_mot m mc.wiring pw s
  have hwf := wiring_wf h hm
  have hinj := h.wired.injective
  rw [ofNat_clampPower] at hmot
  refine ⟨_, exec_motSetPower hm pw, rfl, motorOnly_answered (setPowerCore_frame m mc.wiring pw hinj) hmot 0, hclock,
    motor_of_mot hmot (motor_index_lt h hm), fun h0 => ?_, fun he => ?_, fun d p en hw => ?_, fun hpos d p en hw => ?_,
    fun hpos a b hw => ?_⟩
  · rw [setPowerCore_zero (clampPower_eq_zero_iff.mpr h0)]
    exact deEnergize_deEnergized ((OutputsOnly.modMotor [] s m _).wired h.wired) hwf
  · exact setPowerCore_duties_extreme hinj (he.imp clampPower_eq_zero_iff.mpr clampPower_eq_255_iff.mpr)
  · rw [hw] at hwf ⊢
    have hframe := (setPowerCore_dirPwm_frame h.wired hwf m pw).answered 0
    exact ⟨hframe.pin.others d (direction_pin_not_mem hwf), hframe⟩
  · rw [hw] at hwf ⊢
    exact setPowerCore_pin_answered h.wired hwf hpos (inv := false) rfl
  · rw [hw] at hwf ⊢
    refine ⟨fun hd => setPowerCore_pin_answered h.wired hwf hpos (inv := true) (by rw [hd]; rfl),
      fun hd => setPowerCore_pin_answered h.wired hwf hpos (inv := true) (by rw [hd]; rfl), fun hd => ?_⟩
    rw [setPowerCore_none (clampPower_ne_zero hpos) (by rw [hd]; rfl)]
    exact ⟨rfl, rfl⟩

/-! ### The start of an episode (R189 to R191) -/

/-- The pins at the start of an episode, as Go leaves them at the seed power. -/
theorem startRegulation_driven {s : State} (hs : Wired s) {m : Nat} {w : Wiring} (hwf : w.wf s.cfg.nPins = true)
    (hlt : m < s.mot.length) (rate g p : Int) :
    (startRegulation m w rate g p s).driven (decide (p < g)) (clampPower s.cfg.seedPower) w :=
  goMotor_driven (s := s.tickClock.modMotor m _) ((OutputsOnly.modMotor [] s.tickClock m _).wired
    ((OutputsOnly.tickClock [] s).wired hs)) hwf (by simpa using hlt) (decide (p < g)) s.cfg.seedPower

/-- A command that starts regulation toward `g` from the position read: what MOT.GOTO and MOT.GOFOR do, each with its goal. -/
theorem episode_starts {s : State} {m : Nat} {mc : MotorConfig} {i : Instr} {rate g : Int} (h : s.Inv)
    (hm : s.cfg.motors[m]? = some mc)
    (hi : exec i s = .next ((startRegulation m mc.wiring rate g (s.readPos mc.encOf) s).respond 0)) :
    ∃ t, exec i s = .next t ∧ t.resp = ⟨.ok, 0⟩ ∧ MotorOnly m mc.wiring s t ∧ t.clock = some s.nowMillis ∧
      t.motor m =
        { dir := if s.readPos mc.encOf < g then .forward else .backward, power := BitVec.ofNat 8 s.cfg.seedPower,
          regulated := true, goal := g, tps := BitVec.ofInt 32 rate, lastT := s.nowMillis, lastPos := s.readPos mc.encOf } ∧
      t.driven (decide (s.readPos mc.encOf < g)) s.cfg.seedPower mc.wiring ∧
      DutiesKept (modulated mc.wiring (decide (s.readPos mc.encOf < g)) s.cfg.seedPower) s t := by
  obtain ⟨hmot, -, hclock⟩ := startRegulation_mot m mc.wiring rate g (s.readPos mc.encOf) s
  have hlt := motor_index_lt h hm
  have hinj := h.wired.injective
  have hseed : clampPower s.cfg.seedPower = s.cfg.seedPower := by
    obtain ⟨-, -, -, -, -, -, -, hle⟩ := Config.wf_parts h.cfg
    rw [clampPower_natCast, min_eq_left hle]
  have hdriven := startRegulation_driven h.wired (wiring_wf h hm) hlt rate g (s.readPos mc.encOf)
  have hduties := startRegulation_duties (w := mc.wiring) rate g (s.readPos mc.encOf) hinj hlt
  rw [hseed] at hmot hdriven hduties
  exact ⟨_, hi, rfl, motorOnly_answered (startRegulation_frame m mc.wiring rate g _ hinj) hmot 0, hclock,
    motor_of_mot hmot hlt, hdriven, hduties⟩

/-- Settles O48: MOT.GOTO starts regulation toward its wrapped goal. -/
theorem goToStartsAnEpisode : Obligations.GoToStartsAnEpisode :=
  fun _ _ _ rate goal h hm => episode_starts h hm (exec_motGoTo hm rate goal)

/-- Settles O49: MOT.GOFOR starts regulation toward the wrapped sum of the position read and its ticks. -/
theorem goForStartsAnEpisode : Obligations.GoForStartsAnEpisode :=
  fun _ _ _ rate ticks h hm => episode_starts h hm (exec_motGoFor hm rate ticks)

/-! ### The correction step (R192, R198) -/

/-- Settles O51, one branch of the definition at a time. -/
theorem nextPowerRule : Obligations.NextPowerRule := by
  intro c pw rate tps
  unfold nextPower
  refine ⟨fun h0 hlt => ?_, fun h0 hle => ?_, fun h0 hgt => ?_, fun h0 hlt => ?_, fun h0 heq => ?_⟩
  · rw [if_pos h0, if_pos hlt]
  · rw [if_pos h0, if_neg (Nat.not_lt.mpr hle)]
  · rw [if_neg h0, if_pos hgt]
  · rw [if_neg h0, if_neg (by omega), if_pos hlt]
  · rw [if_neg h0, if_neg (by omega), if_neg (by omega)]

/-- The default `POWER_UP` on a power (00_scope.md R8). -/
theorem up_of_default {c : Config} (hc : c.powerUp = powerUpDefault) {p : Nat} (hp : p ≤ 255) : c.up p = p * 11 / 10 := by
  have hlt : p < 256 := by omega
  simp [Config.up, hc, powerUpDefault, List.getD_eq_getElem?_getD, hlt]

/-- Below target the default step adds a tenth, which is at least 1 from 10 on. -/
theorem nextPower_below_target {c : Config} (hc : c.powerUp = powerUpDefault) {p rate : Nat} {tps : Int} (hp : p ≤ 255)
    (h0 : 0 < rate) (hlt : (rate : Int) < tps) : nextPower c p rate tps = p + p / 10 := by
  obtain ⟨-, -, -, hup, -⟩ := nextPowerRule c p rate tps
  rw [hup (by omega) hlt, up_of_default hc hp]
  omega

/-- From the seed power on, a stalled motor's power is doubled. -/
theorem nextPower_stalled {c : Config} {p : Nat} (tps : Int) (h : c.seedPower ≤ p) : nextPower c p 0 tps = 2 * p := by
  obtain ⟨-, hdouble, -⟩ := nextPowerRule c p 0 tps
  exact hdouble rfl h

/-- Settles O52: the step below target in closed form, and the doubling of a stalled motor's power from the seed on. -/
theorem correctionsBelowTargetRaiseThePower : Obligations.CorrectionsBelowTargetRaiseThePower := by
  refine fun c hc => ⟨fun p rate tps hp h0 hlt => ?_, fun hseed tps => ?_⟩
  · rw [nextPower_below_target hc hp h0 hlt, clampPower_natCast]
    omega
  · have hstep (p : Nat) (h : 16 ≤ p) : nextPower c p 0 tps = 2 * p := nextPower_stalled tps (hseed ▸ h)
    rw [hstep 16 (by decide), hstep 32 (by decide), hstep 64 (by decide), hstep 128 (by decide)]
    decide

/-! ### The check of an episode (R193) -/

section Check

variable {s : State} {m now : Nat} {mc : MotorConfig}

theorem checkMotor_unregulated (h : (s.motor m).regulated = false) : checkMotor m mc now s = s := by
  simp [checkMotor, h]

theorem checkMotor_at_goal (h : (s.motor m).regulated = true) (hg : atGoal (s.motor m) (s.readPos mc.encOf)) :
    checkMotor m mc now s = stopMotor m mc.wiring s := by
  simp [checkMotor, h, (goalReached_iff ..).mpr hg]

theorem checkMotor_short_of_goal (h : (s.motor m).regulated = true) (hg : ¬atGoal (s.motor m) (s.readPos mc.encOf)) :
    checkMotor m mc now s = if elapsed (s.motor m) now < s.cfg.checkInterval then s
      else correct m mc.wiring now (s.readPos mc.encOf) s := by
  simp [checkMotor, h, mt (goalReached_iff ..).mp hg]

end Check

/-- Settles O50, one branch of the check at a time. -/
theorem checkRegulates : Obligations.CheckRegulates := by
  intro s m now mc _ hm
  rw [exec_motCheck hm]
  simp only [← elapsed_eq_uwrapTo]
  refine ⟨fun hr => ?_, fun hr hg => ?_, fun hr hg hearly => ?_, fun hr hg hdue => ?_⟩
  · rw [checkMotor_unregulated hr]
  · rw [checkMotor_at_goal hr hg, exec_motStop hm]
  · rw [checkMotor_short_of_goal hr hg, if_pos hearly]
  · refine ⟨_, exec_motSetPower hm _, ?_⟩
    rw [checkMotor_short_of_goal hr hg, if_neg (Nat.not_lt.mpr hdue)]
    rfl

/-! ### What ends an episode (R197) -/

/-- What stays of an episode while it lasts: that it is on, its direction, its goal and its rate. -/
structure SameEpisode (x y : Motor) : Prop where
  regulated : y.regulated = x.regulated
  dir : y.dir = x.dir
  goal : y.goal = x.goal
  tps : y.tps = x.tps

theorem SameEpisode.refl (x : Motor) : SameEpisode x x := ⟨rfl, rfl, rfl, rfl⟩

theorem SameEpisode.of_eq {x y : Motor} (h : y = x) : SameEpisode x y := h ▸ .refl x

theorem SameEpisode.trans {x y z : Motor} (h : SameEpisode x y) (k : SameEpisode y z) : SameEpisode x z :=
  ⟨k.regulated.trans h.regulated, k.dir.trans h.dir, k.goal.trans h.goal, k.tps.trans h.tps⟩

/-- A rewrite of one motor that keeps its episode keeps that of every motor. -/
theorem sameEpisode_of_mot {s t : State} {m' : Nat} {f : Motor → Motor} (h : t.mot = s.mot.modify m' f)
    (hf : ∀ x, SameEpisode x (f x)) (m : Nat) : SameEpisode (s.motor m) (t.motor m) := by
  by_cases hne : m = m'
  · subst hne
    by_cases hlt : m < s.mot.length
    · exact motor_of_mot h hlt ▸ hf _
    · exact .of_eq (by simp [State.motor, h, hlt])
  · exact .of_eq (motor_of_mot_ne h hne)

/-- The power setter keeps every episode. -/
theorem sameEpisode_setPowerCore (m' : Nat) (w : Wiring) (pw : Int) (s : State) (m : Nat) :
    SameEpisode (s.motor m) ((setPowerCore m' w pw s).motor m) :=
  sameEpisode_of_mot (setPowerCore_mot m' w pw s).1 (fun _ => ⟨rfl, rfl, rfl, rfl⟩) m

/-- A stop keeps the episodes of other motors. -/
theorem motor_stopMotor_ne {m m' : Nat} (hne : m ≠ m') (w : Wiring) (s : State) : (stopMotor m' w s).motor m = s.motor m :=
  motor_of_mot_ne (stopMotor_mot m' w s).1 hne

/-- A correction keeps every episode. -/
theorem sameEpisode_correct (m' : Nat) (w : Wiring) (now : Nat) (p : Int) (s : State) (m : Nat) :
    SameEpisode (s.motor m) ((correct m' w now p s).motor m) := by
  rw [correct]
  refine (sameEpisode_setPowerCore m' w _ s m).trans (sameEpisode_of_mot rfl (fun x => ?_) m)
  exact ⟨rfl, rfl, rfl, rfl⟩

/-- A check keeps every episode but that of its own motor at the goal. -/
theorem sameEpisode_checkMotor {m m' : Nat} {mc : MotorConfig} {s : State}
    (h : m' = m → ¬atGoal (s.motor m') (s.readPos mc.encOf)) (now : Nat) :
    SameEpisode (s.motor m) ((checkMotor m' mc now s).motor m) := by
  cases hr : (s.motor m').regulated with
  | false => exact .of_eq (by rw [checkMotor_unregulated hr])
  | true =>
    by_cases hg : atGoal (s.motor m') (s.readPos mc.encOf)
    · rw [checkMotor_at_goal hr hg]
      exact .of_eq (motor_stopMotor_ne (fun heq => h heq.symm hg) mc.wiring s)
    · rw [checkMotor_short_of_goal hr hg]
      split
      · exact .refl _
      · exact sameEpisode_correct m' mc.wiring now _ s m

/-- Settles O54, by the effects of a command: most keep every motor, the power setter and the check keep an episode on, and the commands
that end or replace one write their own motor. -/
theorem episodeEndsOnlyByStopOrReplacement : Obligations.EpisodeEndsOnlyByStopOrReplacement := by
  intro i s t m mc _ hm hreg he hstop hgo hgoFor hgoTo hcheck
  obtain ⟨r, u, hu, rfl⟩ := effect_of_exec he
  have hsame : SameEpisode (s.motor m) (u.motor m) := by
    cases hu with
    | unchanged | setA | setB | tick | edgeA | edgeB | zero | setFreq => exact .refl _
    | setDuty d => exact .of_eq (motor_congr (dutyCore_kept _ _ d s).mot m)
    | aWrite p v => exact .of_eq (motor_congr (aWriteCore_kept p v s).mot m)
    | stop => exact .of_eq (motor_stopMotor_ne (by rintro rfl; exact hstop rfl) _ s)
    | go fwd pw => exact .of_eq (motor_of_mot_ne (goMotor_mot _ _ fwd pw s).1 (by rintro rfl; exact hgo fwd pw rfl))
    | setPower pw => exact sameEpisode_setPowerCore _ _ pw s m
    | goFor rate ticks =>
      exact .of_eq (motor_of_mot_ne (startRegulation_mot ..).1 (by rintro rfl; exact hgoFor rate ticks rfl))
    | goTo rate goal =>
      exact .of_eq (motor_of_mot_ne (startRegulation_mot ..).1 (by rintro rfl; exact hgoTo rate goal rfl))
    | check now hm' =>
      refine sameEpisode_checkMotor ?_ now
      rintro rfl
      obtain rfl := Option.some.inj (hm.symm.trans hm')
      exact hcheck now rfl
  exact ⟨hsame.regulated.trans hreg, hsame.dir, hsame.goal, hsame.tps⟩

end Sys2Proof.Machine
end

section
/-! PROOFS. Agents, completion and the clock (60_exceptions.md): the refusal of a command of the wrong agent (O8), that every command
completes (O10), and the clock's draws with the commands that read it (O56). -/

namespace Sys2Proof.Machine

open Sys2Proof

/-! ### Commands of the wrong agent (R245) -/

/-- The edge agent's commands are the five that deliver levels and evaluate (R245). -/
theorem agent_eq_edge_iff (i : Instr) : i.agent = .edge ↔ (∃ e l, i = .encSetA e l) ∨ (∃ e l, i = .encSetB e l) ∨
    (∃ e, i = .encTick e) ∨ (∃ e l, i = .encEdgeA e l) ∨ (∃ e l, i = .encEdgeB e l) := by
  constructor
  · intro h
    cases i with
    | encSetA e l => exact .inl ⟨e, l, rfl⟩
    | encSetB e l => exact .inr (.inl ⟨e, l, rfl⟩)
    | encTick e => exact .inr (.inr (.inl ⟨e, rfl⟩))
    | encEdgeA e l => exact .inr (.inr (.inr (.inl ⟨e, l, rfl⟩)))
    | encEdgeB e l => exact .inr (.inr (.inr (.inr ⟨e, l, rfl⟩)))
    | _ => cases h
  · rintro (⟨e, l, rfl⟩ | ⟨e, l, rfl⟩ | ⟨e, rfl⟩ | ⟨e, l, rfl⟩ | ⟨e, l, rfl⟩) <;> rfl

/-- A booted block refuses the frame of the next turn, when it is a command of the other agent. -/
theorem step_of_wrong_agent {s : State} {t : Turn} {ts : List Turn} {i : Instr} {rest : List Word} (hb : s.boot = .running)
    (ht : s.turns = t :: ts) (hd : decodeFrame (s.port t.agent) = .ok (i, rest)) (ha : i.agent ≠ t.agent) :
    step s = .refused .wrongAgent := by
  simp only [step, fetch, hb, ht, fetchTurn, hd, if_neg ha]

/-- Settles O8, by the agent of each command and the decoded frame of the turn. -/
theorem wrongAgentCommandIsRefused : Obligations.WrongAgentCommandIsRefused :=
  ⟨agent_eq_edge_iff, fun _ _ _ _ _ => step_of_wrong_agent⟩

/-! ### Every command completes (R240, 42_motor.md R196) -/

/-- No effect of a command writes the parameters, boot or the environment's inputs. -/
theorem Effect.inputs {s u : State} {i : Instr} (hu : Effect s i u) : SameInputs s u := by
  cases hu with
  | unchanged => exact .refl s
  | setA | setB | tick | edgeA | edgeB | zero | setFreq => exact ⟨rfl, rfl, rfl, rfl, rfl, rfl, rfl, rfl, rfl⟩
  | setDuty d _ => exact dutyCore_inputs _ _ d s
  | aWrite p v => exact aWriteCore_inputs p v s
  | stop _ => exact (stopMotor_frame _ _ s).inputs
  | go fwd pw _ => exact goMotor_inputs _ _ fwd pw s
  | setPower pw _ => exact setPowerCore_inputs _ _ pw s
  | goFor | goTo => exact startRegulation_inputs _ _ _ _ _ s
  | check now _ => exact checkMotor_inputs _ _ now s

/-- Settles O10: a command has one of its effects, which keeps the inputs, and answers OK. -/
theorem everyCommandAnswersOk : Obligations.EveryCommandAnswersOk := by
  intro i s
  obtain ⟨r, u, hu, he⟩ := exec_effect i s
  exact ⟨u.respond r, he, rfl, hu.inputs.trans (OutputsOnly.respond [] u r).inputs⟩

/-! ### The clock (R250, 70_reset_and_hazards.md R287) -/

/-- A draw after the first adds its low 31 bits (log 11). -/
theorem nextClock_some (t d : Word) : nextClock (some t) d = t + BitVec.ofNat 32 (d.toNat % 2147483648) := rfl

/-- A step below `2^31` is the draw of that number. -/
theorem nextClock_some_ofNat (t : Word) {k : Nat} (hk : k < 2147483648) :
    nextClock (some t) (BitVec.ofNat 32 k) = t + BitVec.ofNat 32 k := by
  have hlow : (BitVec.ofNat 32 k).toNat % 2147483648 = k := by
    rw [BitVec.toNat_ofNat]
    omega
  rw [nextClock_some, hlow]

/-- MOT.CHECK is given the time as an operand and does not read the clock (42_motor.md R193). -/
theorem checkMotor_clock (m : Nat) (mc : MotorConfig) (now : Nat) (s : State) : (checkMotor m mc now s).clock = s.clock := by
  simp only [checkMotor]
  split
  · split
    · exact (stopMotor_mot m mc.wiring s).2.2
    split
    · rfl
    · exact (setPowerCore_mot m mc.wiring _ s).2.2
  · rfl

/-- The commands that read the clock (R250). -/
def readsClock (i : Instr) : Prop := (∃ m rate ticks, i = .motGoFor m rate ticks) ∨ (∃ m rate goal, i = .motGoTo m rate goal)

/-- An effect of a command leaves the clock alone, or is that of a command that reads it and sets it to the next draw. -/
theorem Effect.clock {s u : State} {i : Instr} (hu : Effect s i u) :
    u.clock = s.clock ∨ (u.clock = some (nextClock s.clock s.draw) ∧ readsClock i) := by
  cases hu with
  | unchanged | setA | setB | tick | edgeA | edgeB | zero | setFreq => exact .inl rfl
  | setDuty d _ => exact .inl (dutyCore_kept _ _ d s).clock
  | aWrite p v => exact .inl (aWriteCore_kept p v s).clock
  | stop _ => exact .inl (stopMotor_mot _ _ s).2.2
  | go fwd pw _ => exact .inl (goMotor_mot _ _ fwd pw s).2.2
  | setPower pw _ => exact .inl (setPowerCore_mot _ _ pw s).2.2
  | goFor rate ticks _ => exact .inr ⟨(startRegulation_mot _ _ rate _ _ s).2.2, .inl ⟨_, rate, ticks, rfl⟩⟩
  | goTo rate goal _ => exact .inr ⟨(startRegulation_mot _ _ rate _ _ s).2.2, .inr ⟨_, rate, goal, rfl⟩⟩
  | check now _ => exact .inl (checkMotor_clock _ _ now s)

/-- Settles O56, by the form of a draw and the effects of a command. -/
theorem clockIsMonotone : Obligations.ClockIsMonotone := by
  refine ⟨fun v => ⟨v, rfl⟩, fun t d => ⟨_, Nat.mod_lt _ (by decide), nextClock_some t d⟩,
    fun t k hk => ⟨_, nextClock_some_ofNat t hk⟩, fun i s t he => ?_⟩
  obtain ⟨r, u, hu, rfl⟩ := effect_of_exec he
  exact hu.clock

end Sys2Proof.Machine
end

section
/-! PROOFS. Reset, boot and hazards (70_reset_and_hazards.md): the values at reset and their invariant (O12, O15), the boot sequence
(O13), what a block does before its handlers are registered and when it is idle (O9, O14), the synchronisation sequence (O58), the
stickiness of power 0 (O53) and the elapsed time (O57). -/

namespace Sys2Proof.Machine

open Sys2Proof

/-! ### Reset (R270) -/

section Reset

variable (c : Config) (latches : List Level)

theorem resetWith_group? {g : Nat} {gc : GroupConfig} (h : c.groups[g]? = some gc) :
    (State.resetWith c latches).group? g = some (.atReset gc) := by
  simp [State.group?, State.resetWith, h]

theorem resetWith_pin? {p : Nat} (h : p < c.nPins) :
    (State.resetWith c latches).pin? p = some (.atReset (latches.getD p .low)) := by
  simp [State.pin?, State.resetWith, h]

variable {c latches}

theorem mem_resetWith_grp {x : Group} (h : x ∈ (State.resetWith c latches).grp) : ∃ gc ∈ c.groups, .atReset gc = x :=
  List.mem_map.mp h

theorem mem_resetWith_pin {x : Pin} (h : x ∈ (State.resetWith c latches).pin) : ∃ l, .atReset l = x := by
  obtain ⟨p, -, hp⟩ := List.mem_map.mp h
  exact ⟨_, hp⟩

/-- No compare output is enabled at reset (10_state.md R28). -/
theorem resetWith_channel_oen {g k : Nat} {ch : Channel} (h : (State.resetWith c latches).channel? g k = some ch) :
    ch.oen = false := by
  obtain ⟨x, hx, hch⟩ := Option.bind_eq_some_iff.mp h
  obtain ⟨gc, -, rfl⟩ := mem_resetWith_grp (List.mem_of_getElem? hx)
  rw [List.eq_of_mem_replicate (List.mem_of_getElem? hch)]
  rfl

end Reset

/-- Settles O12: each unit list is made of units at reset. -/
theorem resetValues : Obligations.ResetValues := by
  intro c latches
  refine ⟨rfl, List.length_replicate, fun e he => ?_, List.length_map _, fun g gc hg => ?_, ?_, fun p hp => ?_,
    List.length_replicate, fun m hm => ?_⟩
  · simp [State.encoder, State.resetWith, Encoder.atReset, he]
  · refine ⟨_, resetWith_group? c latches hg, rfl, rfl, rfl, rfl, List.length_replicate, fun ch hch => ?_⟩
    rw [List.eq_of_mem_replicate hch]
    exact ⟨rfl, rfl, rfl⟩
  · simp [State.resetWith]
  · exact ⟨_, resetWith_pin? c latches hp, rfl, fun _ => rfl⟩
  · simp [State.motor, State.resetWith, Motor.atReset, hm]

/-- A well-formed group meets its invariant at reset (10_state.md R29). -/
theorem group_atReset_inv {gc : GroupConfig} (h : gc.wf = true) : Group.Inv gc (.atReset gc) := by
  simp only [GroupConfig.wf, Bool.and_eq_true, decide_eq_true_eq] at h
  refine ⟨List.length_replicate, h.2, fun ch hch => ?_, .inl ⟨rfl, rfl, rfl, rfl⟩⟩
  rw [List.eq_of_mem_replicate hch]
  simp [Channel.Inv, Channel.atReset, scale]

/-- A well-formed block meets the invariant at reset. -/
theorem resetWith_inv {c : Config} (latches : List Level) (h : c.wf = true) : (State.resetWith c latches).Inv where
  cfg := h
  encLength := List.length_replicate
  grpLength := List.length_map _
  pinLength := by simp [State.resetWith]
  motLength := List.length_replicate
  positions x hx := by
    rw [List.eq_of_mem_replicate hx]
    exact fits_zero _
  groups g gc x hg hx := by
    obtain rfl : .atReset gc = x := Option.some.inj ((resetWith_group? c latches hg).symm.trans hx)
    obtain ⟨-, -, -, -, -, hgroups, -⟩ := Config.wf_parts h
    exact group_atReset_inv (hgroups gc (List.mem_of_getElem? hg))
  pins p x hx := by
    obtain ⟨l, rfl⟩ := mem_resetWith_pin (List.mem_of_getElem? hx)
    exact ⟨fun g k ch _ hch => by simp [Pin.atReset, resetWith_channel_oen hch], fun _ => by simp [Pin.atReset],
      fun v hv => by cases hv⟩
  motors x hx := by
    rw [List.eq_of_mem_replicate hx]
    exact ⟨fits_zero _, fits_zero _, fun hr => by cases hr⟩
  record r hr := by cases hr
  race r hr := by cases hr

/-- Settles O15: `State.reset` is the reset of the well-formed `EX`. -/
theorem resetMeetsTheInvariant : Obligations.ResetMeetsTheInvariant :=
  ⟨fun _ latches => resetWith_inv latches, resetWith_inv [] (by decide +kernel)⟩

/-! ### The steps of boot (R271) -/

/-- The pin modes of boot write no input. -/
theorem setOutputs_inputs (ps : List Nat) (s : State) : SameInputs s (setOutputs ps s) := by
  induction ps generalizing s with
  | nil => exact .refl s
  | cons p ps ih =>
    have hp : SameInputs s (setPinOutput p s) := ⟨rfl, rfl, rfl, rfl, rfl, rfl, rfl, rfl, rfl⟩
    exact hp.trans (ih (setPinOutput p s))

/-- What every stop keeps, the stops of boot keep. -/
theorem stopFrom_keeps {P : State → Prop} (hstop : ∀ m w s, P s → P (stopMotor m w s)) (mcs : List MotorConfig) (m : Nat)
    {s : State} (h : P s) : P (stopFrom m mcs s) := by
  induction mcs generalizing m s with
  | nil => exact h
  | cons mc mcs ih => exact ih (m + 1) (hstop m mc.wiring s h)

/-- The stops of boot write the pins of their motors and the channels behind them. -/
theorem stopFrom_frame (mcs : List MotorConfig) (m : Nat) (s : State) :
    OutputsOnly (mcs.flatMap fun mc => mc.wiring.pins) s (stopFrom m mcs s) := by
  induction mcs generalizing m s with
  | nil => exact .refl _ s
  | cons mc mcs ih =>
    exact ((stopMotor_frame m mc.wiring s).mono (by simp +contextual)).trans ((ih (m + 1) _).mono (by simp +contextual))

/-- The stops of boot leave a motor's outputs de-energized, when no motor after it shares a pin with it (log 21). -/
theorem stopFrom_deEnergized {mcs : List MotorConfig} {m i : Nat} {mc : MotorConfig} {s : State} (hs : Wired s)
    (hwf : ∀ mc ∈ mcs, mc.wiring.wf s.cfg.nPins = true) (hi : mcs[i]? = some mc)
    (hlast : ∀ (j : Nat) (mc' : MotorConfig), i < j → mcs[j]? = some mc' → ∀ p ∈ mc'.wiring.pins, p ∉ mc.wiring.pins) :
    (stopFrom m mcs s).deEnergized mc.wiring := by
  induction mcs generalizing m i s with
  | nil => cases hi
  | cons a mcs ih =>
    have hframe := stopMotor_frame m a.wiring s
    have hs' := hframe.wired hs
    cases i with
    | zero =>
      obtain rfl : a = mc := Option.some.inj hi
      refine deEnergized_of_outputsOnly (stopFrom_frame mcs (m + 1) _) hs'.injective (fun p hp => ?_)
        (stopMotor_deEnergized hs (hwf a List.mem_cons_self))
      obtain ⟨mc', hmem, hp⟩ := List.mem_flatMap.mp hp
      obtain ⟨j, hj⟩ := List.getElem?_of_mem hmem
      exact hlast (j + 1) mc' (Nat.succ_pos j) hj p hp
    | succ i =>
      refine ih hs' (fun mc' hmem => ?_) hi fun j mc' hij hj => hlast (j + 1) mc' (Nat.succ_lt_succ hij) hj
      rw [hframe.inputs.cfg]
      exact hwf mc' (List.mem_cons_of_mem a hmem)

/-- Timer groups and motors as at reset, and every pin on its latch: what boot finds and leaves. -/
structure UnitsAtReset (c : Config) (latches : List Level) (s : State) : Prop where
  grp : s.grp = (State.resetWith c latches).grp
  mot : s.mot = (State.resetWith c latches).mot
  drives : ∀ p x, s.pin? p = some x → x.drive = .latch

section UnitsAtReset

variable {c : Config} {latches : List Level} {s : State}

theorem unitsAtReset_resetWith : UnitsAtReset c latches (State.resetWith c latches) where
  grp := rfl
  mot := rfl
  drives p x hx := by
    obtain ⟨l, rfl⟩ := mem_resetWith_pin (List.mem_of_getElem? hx)
    rfl

/-- The pin modes change no drive. -/
theorem UnitsAtReset.setOutputs (h : UnitsAtReset c latches s) (ps : List Nat) : UnitsAtReset c latches (setOutputs ps s) := by
  obtain ⟨-, -, hgrp, hmot, -, -, -, hpins⟩ := setOutputs_spec ps s
  refine ⟨hgrp.trans h.grp, hmot.trans h.mot, fun p x hx => ?_⟩
  rw [hpins] at hx
  split at hx
  · obtain ⟨y, hy, rfl⟩ := Option.map_eq_some_iff.mp hx
    exact h.drives p y hy
  · exact h.drives p x hx

/-- Where no compare output is enabled, there is none to disconnect (41_pwm.md R150). -/
theorem disconnect_of_disabled (p : Nat) (h : ∀ g k ch, s.channel? g k = some ch → ch.oen = false) : disconnect p s = s := by
  unfold disconnect
  split
  · rfl
  · next g k _ =>
    have hgrp : s.grp.modify g (fun x => { x with chans := x.chans.modify k fun ch => { ch with oen := false } }) = s.grp :=
      modify_eq_self fun x hx => by
        rw [modify_eq_self fun ch hch => by rw [← h g k ch (by rw [State.channel?, hx]; exact hch)]]
    simp only [setOen, State.modChannel, State.modGroup, hgrp]

/-- A force write disables a compare output that is disabled already, and puts its pin on the latch. -/
theorem UnitsAtReset.forceLevel (h : UnitsAtReset c latches s) (p : Nat) (l : Level) :
    UnitsAtReset c latches (forceLevel p l s) := by
  refine ⟨?_, (forceLevel_kept p l s).mot.trans h.mot, fun q x hx => ?_⟩
  · have hdisabled : disconnect p s = s := disconnect_of_disabled p fun g k ch hch =>
      resetWith_channel_oen (channel?_congr h.grp g k ▸ hch)
    show (disconnect p s).grp = _
    rw [hdisabled, h.grp]
  · rw [forceLevel_pin?] at hx
    split at hx
    · obtain ⟨y, -, rfl⟩ := Option.map_eq_some_iff.mp hx
      rfl
    · exact h.drives q x hx

theorem UnitsAtReset.deEnergize (h : UnitsAtReset c latches s) (w : Wiring) : UnitsAtReset c latches (deEnergize w s) := by
  match w with
  | .dual a b => exact (h.forceLevel a .low).forceLevel b .low
  | .dirPwm _ p none => exact h.forceLevel p .low
  | .dirPwm _ p (some e) => exact (h.forceLevel e .high).forceLevel p .low

/-- A stop of a motor at reset leaves it so. -/
theorem UnitsAtReset.stopMotor (h : UnitsAtReset c latches s) (m : Nat) (w : Wiring) :
    UnitsAtReset c latches (stopMotor m w s) := by
  have hmotor : s.motor m = .atReset := by simp [State.motor, h.mot, State.resetWith]
  rw [Machine.stopMotor, modMotor_of_fixed (by rw [hmotor]; rfl)]
  exact h.deEnergize w

/-- The first step of boot finds and leaves the units at reset. -/
theorem unitsAtReset_bootPinModes : UnitsAtReset c latches (bootPinModes (State.resetWith c latches)) := by
  obtain ⟨hgrp, hmot, hdrives⟩ := unitsAtReset_resetWith.setOutputs (motorPins c)
  exact ⟨hgrp, hmot, hdrives⟩

/-- So does the second. -/
theorem UnitsAtReset.bootStopMotors (h : UnitsAtReset c latches s) : UnitsAtReset c latches (bootStopMotors s) := by
  obtain ⟨hgrp, hmot, hdrives⟩ := stopFrom_keeps (fun m w _ hs => hs.stopMotor m w) s.cfg.motors 0 h
  exact ⟨hgrp, hmot, hdrives⟩

end UnitsAtReset

/-- How far boot has come decides no pin. -/
theorem deEnergized_withBoot {s : State} {w : Wiring} (b : BootPhase) (h : s.deEnergized w) :
    ({ s with boot := b } : State).deEnergized w := by
  cases w <;> exact h

/-- The first step of boot writes the modes of motor pins alone (R271). -/
theorem bootPinModes_frame (s : State) : (bootPinModes s).cfg = s.cfg ∧ (bootPinModes s).enc = s.enc ∧
    (bootPinModes s).bootPort = s.bootPort ∧ ∀ p, (bootPinModes s).pin? p =
      if p ∈ motorPins s.cfg then (s.pin? p).map (fun x => { x with mode := .output }) else s.pin? p := by
  obtain ⟨hcfg, henc, -, -, -, -, hport, hpins⟩ := setOutputs_spec (motorPins s.cfg) s
  exact ⟨hcfg, henc, hport, hpins⟩

/-- The second writes motor pins, no mode, and what drives them. -/
theorem bootStopMotors_frame (s : State) : (bootStopMotors s).cfg = s.cfg ∧ (bootStopMotors s).enc = s.enc ∧
    (bootStopMotors s).bootPort = s.bootPort ∧ (∀ p, p ∉ motorPins s.cfg → (bootStopMotors s).pin? p = s.pin? p) ∧
    ∀ p, ((bootStopMotors s).pin? p).map Pin.mode = (s.pin? p).map Pin.mode := by
  have h := stopFrom_frame s.cfg.motors 0 s
  exact ⟨h.inputs.cfg, h.enc, h.inputs.bootPort, h.pin.others, h.pin.modes⟩

theorem bootStopMotors_deEnergized {s : State} (h : s.Inv) {m : Nat} {mc : MotorConfig} (hm : s.cfg.motors[m]? = some mc)
    (hlast : ∀ (m' : Nat) (mc' : MotorConfig), m < m' → s.cfg.motors[m']? = some mc' →
      ∀ p ∈ mc'.wiring.pins, p ∉ mc.wiring.pins) : (bootStopMotors s).deEnergized mc.wiring := by
  obtain ⟨-, -, -, hmotors, -⟩ := Config.wf_parts h.cfg
  exact deEnergized_withBoot .handlers (stopFrom_deEnergized (m := 0) h.wired (fun mc hmc => (hmotors mc hmc).1) hm hlast)

/-- With no frame left on its port, boot ends (R271). -/
theorem step_of_boot_port_empty {s : State} (hb : s.boot = .handlers) (hp : s.bootPort = []) : step s = .next (bootHandlers s) := by
  simp only [step, fetch, hb, fetchBoot, hp]

/-- Settles O13: the pin modes and the stops keep the units at reset, and the last stop of a pin decides its level. -/
theorem bootSequence : Obligations.BootSequence := by
  intro c latches hwf
  obtain ⟨hcfg1, henc1, hport1, hpins1⟩ := bootPinModes_frame (State.resetWith c latches)
  obtain ⟨hcfg2, henc2, hport2, hothers2, hmodes2⟩ := bootStopMotors_frame (bootPinModes (State.resetWith c latches))
  obtain ⟨hgrp, hmot, hdrives⟩ := (unitsAtReset_bootPinModes (c := c) (latches := latches)).bootStopMotors
  rw [hcfg1] at hothers2
  refine ⟨_, _, _, rfl, rfl, step_of_boot_port_empty rfl (hport2.trans hport1), rfl, hcfg2.trans hcfg1, henc2.trans henc1, hgrp,
    hmot, fun mc hmc p hp => ?_, fun p hp => ?_, fun m mc hm hlast => ?_⟩
  · obtain ⟨-, -, -, hmotors, -⟩ := Config.wf_parts hwf
    have hmem : p ∈ motorPins c := List.mem_flatMap.mpr ⟨mc, hmc, hp⟩
    have hmode := (hmodes2 p).trans (congrArg _ ((hpins1 p).trans (if_pos hmem)))
    rw [resetWith_pin? c latches (Wiring.pins_lt (hmotors mc hmc).1 hp)] at hmode
    obtain ⟨x, hx, hout⟩ := Option.map_eq_some_iff.mp hmode
    exact ⟨x, hx, hout, hdrives p x hx⟩
  · have hmem : p ∉ motorPins c := fun hmem => by
      obtain ⟨mc, hmc, hpin⟩ := List.mem_flatMap.mp hmem
      exact hp mc hmc hpin
    exact (hothers2 p hmem).trans ((hpins1 p).trans (if_neg hmem))
  · have hinv1 : (bootPinModes (State.resetWith c latches)).Inv :=
      inv_boot (inv_setOutputs _ (resetWith_inv latches hwf)) .stopMotors
    exact deEnergized_withBoot .running (bootStopMotors_deEnergized hinv1 (by rwa [hcfg1]) (by rwa [hcfg1]))

/-! ### Before the handlers are registered (R271, R274) -/

/-- The synchronisation sequence has four commands (R274). -/
theorem bootCommand_iff (i : Instr) : bootCommand i = true ↔
    (∃ e l, i = .encSetA e l) ∨ (∃ e l, i = .encSetB e l) ∨ (∃ e, i = .encTick e) ∨ (∃ e v, i = .encZero e v) := by
  constructor
  · intro h
    cases i with
    | encSetA e l => exact .inl ⟨e, l, rfl⟩
    | encSetB e l => exact .inr (.inl ⟨e, l, rfl⟩)
    | encTick e => exact .inr (.inr (.inl ⟨e, rfl⟩))
    | encZero e v => exact .inr (.inr (.inr ⟨e, v, rfl⟩))
    | _ => cases h
  · rintro (⟨e, l, rfl⟩ | ⟨e, l, rfl⟩ | ⟨e, rfl⟩ | ⟨e, v, rfl⟩) <;> rfl

/-- A frame on boot's port runs when it is of the sequence, and is refused when it is not (log 10). -/
theorem fetchBoot_of_frame {s : State} {i : Instr} {rest : List Word} (hd : decodeFrame s.bootPort = .ok (i, rest)) : fetchBoot s =
    if bootCommand i then .command i { s with bootPort := rest, race := none, lastEdge := none } else .refuse .notBootCommand := by
  unfold fetchBoot
  split
  · next hp =>
    rw [hp] at hd
    cases hd
  · next hp =>
    rw [hp] at hd
    rw [hd]

/-- The words of both agents and their schedule are the same in two states. -/
structure SamePorts (s t : State) : Prop where
  edge : t.edgePort = s.edgePort
  control : t.controlPort = s.controlPort
  turns : t.turns = s.turns

theorem SameInputs.samePorts {s t : State} (h : SameInputs s t) : SamePorts s t := ⟨h.edgePort, h.controlPort, h.turns⟩

/-- What the block does next takes nothing of the agents' ports. -/
def Fetched.ServesNoPort (s : State) : Fetched → Prop
  | .wait => True
  | .move t => SamePorts s t
  | .refuse _ => True
  | .command _ t => SamePorts s t

theorem fetchBoot_servesNoPort (s : State) : (fetchBoot s).ServesNoPort s := by
  unfold fetchBoot
  split
  · exact ⟨rfl, rfl, rfl⟩
  split
  · trivial
  · exact ⟨rfl, rfl, rfl⟩
  · exact ⟨rfl, rfl, rfl⟩
  · split
    · exact ⟨rfl, rfl, rfl⟩
    · trivial

theorem fetch_servesNoPort {s : State} (hb : s.boot ≠ .running) : (fetch s).ServesNoPort s := by
  unfold fetch
  split
  · obtain ⟨hedge, hcontrol, hturns⟩ := (setOutputs_inputs (motorPins s.cfg) s).samePorts
    exact ⟨hedge, hcontrol, hturns⟩
  · obtain ⟨hedge, hcontrol, hturns⟩ := (stopFrom_frame s.cfg.motors 0 s).inputs.samePorts
    exact ⟨hedge, hcontrol, hturns⟩
  · exact fetchBoot_servesNoPort s
  · exact absurd ‹_› hb

/-- A step before boot is over takes nothing of the agents' ports: what it fetches does not, and no command writes them. -/
theorem step_samePorts {s t : State} (hb : s.boot ≠ .running) (h : step s = .next t) : SamePorts s t := by
  have hf := fetch_servesNoPort hb
  unfold step at h
  split at h <;> rename_i he <;> rw [he] at hf
  · cases h
    exact ⟨rfl, rfl, rfl⟩
  · cases h
    exact hf
  · cases h
  · obtain ⟨r, u, hu, rfl⟩ := effect_of_exec h
    obtain ⟨hedge, hcontrol, hturns⟩ := hu.inputs.samePorts
    exact ⟨hedge.trans hf.edge, hcontrol.trans hf.control, hturns.trans hf.turns⟩

/-- Settles O14, by what boot fetches at each of its steps. -/
theorem noPortIsServedBeforeHandlers : Obligations.NoPortIsServedBeforeHandlers := by
  refine ⟨fun s t hb h => ?_, fun s i rest hb hd hi => ?_, fun s i rest hb hd hi => ?_, fun s => step_of_boot_port_empty⟩
  · obtain ⟨hedge, hcontrol, hturns⟩ := step_samePorts hb h
    exact ⟨hedge, hcontrol, hturns⟩
  · simp only [step, fetch, hb, fetchBoot_of_frame hd, if_pos ((bootCommand_iff i).mpr hi)]
  · simp only [step, fetch, hb, fetchBoot_of_frame hd, if_neg (mt (bootCommand_iff i).mp hi)]

/-! ### An idle block (R272) -/

/-- Settles O9: with an empty schedule the block fetches a wait. -/
theorem idleBlockWaits : Obligations.IdleBlockWaits := by
  intro s hb ht
  simp only [step, fetch, hb, ht]

/-! ### The synchronisation sequence (R274) -/

/-- A run goes on after a command that rewrites one encoder. -/
theorem execAll_cons_of_rewrite {s : State} {i : Instr} {e : Nat} {f : Encoder → Encoder}
    (hi : exec i s = complete 0 (s.modEncoder e f)) (is : List Instr) :
    execAll (i :: is) s = execAll is ((s.modEncoder e f).respond 0) := by
  simp only [execAll, hi, complete]

/-- The sequence is one rewrite of its encoder. -/
theorem execAll_synchronisation {s : State} {e : Nat} (he : e < s.cfg.nEnc) (la lb : Level) :
    execAll [.encSetA e la, .encSetB e lb, .encTick e, .encZero e 0] s = complete 0 (s.modEncoder e fun x =>
      { tickEncoder s.cfg.posWidth (setLine .b lb (setLine .a la x)) with pos := wrapTo s.cfg.posWidth 0 }) := by
  refine (execAll_cons_of_rewrite (exec_encSetA he la) _).trans ?_
  refine (execAll_cons_of_rewrite (exec_encSetB (by exact he) lb) _).trans ?_
  refine (execAll_cons_of_rewrite (exec_encTick (by exact he)) _).trans ?_
  refine (execAll_cons_of_rewrite (exec_encZero (by exact he) 0) _).trans ?_
  show complete 0 ((((s.modEncoder e _).modEncoder e _).modEncoder e _).modEncoder e _) = _
  simp only [modEncoder_modEncoder]
  rfl

/-- Settles O58: after the rewrite of the sequence the previous phase is that of the levels given, and the position a wrapped 0. -/
theorem synchronisationSequence : Obligations.SynchronisationSequence := by
  intro s e la lb he hlen
  refine ⟨_, execAll_synchronisation he la lb, ?_, (encoderOnly_modEncoder s e _ 0).others, rfl, rfl, rfl⟩
  refine (encoder_modEncoder_self s _ (hlen ▸ he)).trans ?_
  have hzero : wrapTo s.cfg.posWidth 0 = 0 := by simp [wrapTo]
  rw [hzero]
  rfl

/-! ### Power 0 is sticky (R280) -/

/-- The pin that R280 speaks of, with its level while the power is 0: the enable of a DIRPWM wiring, disasserted, or the pin of the
direction of a DUAL wiring. -/
def releasedPin : Wiring → Direction → Option (Nat × Level)
  | .dirPwm _ _ (some e), _ => some (e, .high)
  | .dirPwm _ _ none, _ => none
  | .dual a _, .forward => some (a, .low)
  | .dual _ b, .backward => some (b, .low)
  | .dual _ _, .stopped => none

/-- A de-energized wiring has its released pin at that level (42_motor.md R184). -/
theorem forced_of_deEnergized {s : State} {w : Wiring} {dir : Direction} {q : Nat} {l : Level}
    (hq : releasedPin w dir = some (q, l)) (h : s.deEnergized w) : s.forced q l := by
  match w, dir, hq, h with
  | .dirPwm _ _ (some e), _, rfl, ⟨_, he⟩ => exact he e rfl
  | .dual _ _, .forward, rfl, ⟨ha, _⟩ => exact ha
  | .dual _ _, .backward, rfl, ⟨_, hb⟩ => exact hb

/-- The released pin is not the PWM pin (42_motor.md R183). -/
theorem powerPin_ne_releasedPin {n : Nat} {w : Wiring} (hwf : w.wf n = true) {dir : Direction} {p q : Nat} {inv : Bool} {l : Level}
    (hp : powerPin w dir = some (p, inv)) (hq : releasedPin w dir = some (q, l)) : q ≠ p := by
  have hnodup := Wiring.pins_nodup hwf
  match w, dir, hp, hq with
  | .dirPwm _ _ (some _), _, rfl, rfl =>
    simp only [Wiring.pins, List.nodup_cons, List.mem_singleton] at hnodup
    exact Ne.symm hnodup.2.1
  | .dual _ _, .forward, rfl, rfl => simpa [Wiring.pins] using hnodup
  | .dual _ _, .backward, rfl, rfl => simpa [Wiring.pins, eq_comm] using hnodup

section Sticky

variable {s : State} {m : Nat} {w : Wiring} {q : Nat} {l : Level} (hs : Wired s) (hwf : w.wf s.cfg.nPins = true)
  (hq : releasedPin w (s.motor m).dir = some (q, l)) (hf : s.forced q l)
include hs hwf hq hf

/-- The power setter writes the released pin at power 0 only, where it releases it (42_motor.md R185). -/
theorem setPowerCore_forced (pw : Int) : (setPowerCore m w pw s).forced q l := by
  by_cases hz : clampPower pw = 0
  · rw [setPowerCore_zero hz]
    exact forced_of_deEnergized hq (deEnergize_deEnergized ((OutputsOnly.modMotor [] s m _).wired hs) hwf)
  · cases hp : powerPin w (s.motor m).dir with
    | none =>
      rw [setPowerCore_none hz hp]
      exact hf
    | some r =>
      obtain ⟨p, inv⟩ := r
      obtain ⟨hframe, -⟩ := setPowerCore_pin hs hwf hz hp
      exact forced_of_outputsOnly hframe hs.injective (by simpa using powerPin_ne_releasedPin hwf hp hq) hf

end Sticky

/-- A check waits, stops, or sets a power. -/
theorem checkMotor_forced {s : State} {m : Nat} {mc : MotorConfig} (hs : Wired s) (hwf : mc.wiring.wf s.cfg.nPins = true) {q : Nat}
    {l : Level} (hq : releasedPin mc.wiring (s.motor m).dir = some (q, l)) (hf : s.forced q l) (now : Nat) :
    (checkMotor m mc now s).forced q l := by
  cases hr : (s.motor m).regulated with
  | false => rwa [checkMotor_unregulated hr]
  | true =>
    by_cases hg : atGoal (s.motor m) (s.readPos mc.encOf)
    · rw [checkMotor_at_goal hr hg]
      exact forced_of_deEnergized hq (stopMotor_deEnergized hs hwf)
    · rw [checkMotor_short_of_goal hr hg]
      split
      · exact hf
      · exact setPowerCore_forced hs hwf hq hf _

/-- Settles O53: the released pin of each wiring and direction stays forced under both commands. -/
theorem powerZeroIsSticky : Obligations.PowerZeroIsSticky := by
  intro s t m mc pw now h hm ht
  have hsticky {q : Nat} {l : Level} (hq : releasedPin mc.wiring (s.motor m).dir = some (q, l)) (hf : s.forced q l) :
      t.forced q l := by
    rcases ht with ht | ht
    · obtain rfl := Host.Outcome.next.inj ((exec_motSetPower hm pw).symm.trans ht)
      exact setPowerCore_forced h.wired (wiring_wf h hm) hq hf pw
    · obtain rfl := Host.Outcome.next.inj ((exec_motCheck hm now).symm.trans ht)
      exact checkMotor_forced h.wired (wiring_wf h hm) hq hf now
  refine ⟨fun d p e hw => hsticky (by rw [hw]; rfl), fun a b hw => ⟨fun hd => hsticky ?_, fun hd => hsticky ?_⟩⟩ <;>
    rw [hw, hd] <;> rfl

/-! ### The clock across a wrap (R285) -/

/-- Settles O57, modulo `2^32`. -/
theorem elapsedTimeAcrossAWrap : Obligations.ElapsedTimeAcrossAWrap := by
  intro x d hd
  rw [elapsed_eq_uwrapTo]
  unfold uwrapTo
  omega

end Sys2Proof.Machine
end
